-- ==== Sys2Proof/Word.lean ====
section
/-! DEFINITION. The words of the XKC codec core: a byte and a symbol. -/

namespace Sys2Proof

/-- A byte of a buffer: "A byte is 8 bits" (20_memory.md R60). -/
abbrev Byte := BitVec 8

/-- A symbol, an integer below `2^(8W)` (00_scope.md R17), held in 32 bits at every width `W`; that it fits the
width is `Sym.fits`. Symbols are compared for equality only (46_arithmetic_and_sequencing.md R232). -/
abbrev Sym := BitVec 32

end Sys2Proof
end

