-- ==== Sys2Proof/Config.lean ====
section
/-! DEFINITION. What is configuration and not state (00_scope.md R6 to R8, R19): the symbol width and the capacities. -/

namespace Sys2Proof

/-- The symbol width `W`: one, two or four bytes and no other value (00_scope.md R6, 93_implementation_defined.md U6).
A block of any other width cannot be written down. -/
inductive Width
  | one
  | two
  | four
deriving DecidableEq, Repr

/-- `W` as a number of bytes. -/
def Width.bytes : Width → Nat
  | .one => 1
  | .two => 2
  | .four => 4

/-- Elaboration at a number of bytes: refused outside {1, 2, 4} ("unsupported widths are a compile-time error",
00_scope.md R6, 30_encoding.md R113). -/
def Width.ofBytes : Nat → Option Width
  | 1 => some .one
  | 2 => some .two
  | 4 => some .four
  | _ => none

/-- The elaboration parameters (92_eei_decisions.md section 1). `HOST_MAP` is used by no rule and is left out
(assumption 2). -/
structure Config where
  /-- The symbol width `W` (00_scope.md R6). -/
  width : Width
  /-- `IN_CAP`, at most `2^32 − 1` (00_scope.md R8), which its 32 bits make true. -/
  inCap : BitVec 32
  /-- `OUT_CAP`; `none` is an unbounded buffer (00_scope.md R8). -/
  outCap : Option Nat
  /-- `RUN_CAP`; `none` is an unbounded table (00_scope.md R8). -/
  runCap : Option Nat
deriving DecidableEq, Repr

/-- `W` in bytes. -/
def Config.w (c : Config) : Nat := c.width.bytes

/-- The constraint of 00_scope.md R8 that the types do not already make true: `RUN_CAP ≥ floor(IN_CAP / W)`. -/
def Config.wf (c : Config) : Bool :=
  match c.runCap with
  | none => true
  | some cap => decide (c.inCap.toNat / c.w ≤ cap)

/-- `n` bytes fit the output buffer (20_memory.md R65). -/
def Config.outFits (c : Config) (n : Nat) : Bool :=
  match c.outCap with
  | none => true
  | some cap => decide (n ≤ cap)

/-- `COUNT_CAP`: the largest count of one run (00_scope.md R7). -/
def countCap : Nat := 255

/-- `ALPHA_MAX`: the largest alphabet the wire format can carry (00_scope.md R7). -/
def alphaMax : Nat := 256

/-- `NODE_MAX`: the largest number of tree nodes (00_scope.md R7). -/
def nodeMax : Nat := 256

/-- The value `s` has the width `8W` of a symbol (00_scope.md R17). -/
def Sym.fits (c : Config) (s : Sym) : Bool := decide (s.toNat < 2 ^ (8 * c.w))

end Sys2Proof
end

