-- ==== Sys2Proof/Syntax.lean ====
section
/-! DEFINITION. The operations of the operation set XKC-OPS, one constructor for each row of spec/opcode_table.json
(30_encoding.md R90, R91), and the word an operation is given by. -/

namespace Sys2Proof

/-- An operation with its operands. Operands that a rule calls implicit are state and do not stand here. -/
inductive Instr
  /-- `ENCODE` (45_codec_driver.md R200). -/
  | encode
  /-- `DECODE` (45_codec_driver.md R210). -/
  | decode
  /-- `RLE.COLLAPSE` (40_run_length.md R130). -/
  | rleCollapse
  /-- `ALPHA.FOLD` (41_alphabet.md R141). -/
  | alphaFold
  /-- `ALPHA.SORT` (41_alphabet.md R142). -/
  | alphaSort
  /-- `TREE.INIT` (42_path_tree.md R151). -/
  | treeInit
  /-- `TREE.INSERT s`, `s` a symbol (42_path_tree.md R152). -/
  | treeInsert (s : Sym)
  /-- `TREE.COUNT x`, `x` `none` or a node index (42_path_tree.md R153). -/
  | treeCount (x : Option Nat)
  /-- `TREE.HEIGHT n`, `n` a node index (42_path_tree.md R154). -/
  | treeHeight (n : Nat)
  /-- `TREE.DEPTH n`, `n` a node index (42_path_tree.md R155). -/
  | treeDepth (n : Nat)
  /-- `TREE.PATHINFO s`, `s` a symbol (43_path_codec.md R170). -/
  | treePathinfo (s : Sym)
  /-- `TREE.FINDVALUE` (43_path_codec.md R171). -/
  | treeFindvalue
  /-- `BSW.INIT` (44_bitstream.md R180). -/
  | bswInit
  /-- `BSW.WRITEBIT b`, `b` one bit (44_bitstream.md R181). -/
  | bswWritebit (b : Bool)
  /-- `BSW.ADVANCE` (44_bitstream.md R182). -/
  | bswAdvance
  /-- `BSW.FLUSH` (44_bitstream.md R183). -/
  | bswFlush
  /-- `BSR.INIT base`, `base` a byte index into `IN` (44_bitstream.md R186). -/
  | bsrInit (base : BitVec 32)
  /-- `BSR.READBIT` (44_bitstream.md R187). -/
  | bsrReadbit
  /-- `DRV.DEPTHBITS` (45_codec_driver.md R203). -/
  | drvDepthbits
  /-- `DRV.HDREMIT` (45_codec_driver.md R204). -/
  | drvHdremit
  /-- `DRV.RECEMIT` (45_codec_driver.md R205). -/
  | drvRecemit
  /-- `DRV.TRAILEMIT` (45_codec_driver.md R206). -/
  | drvTrailemit
  /-- `DRV.HDRPARSE` (45_codec_driver.md R213). -/
  | drvHdrparse
  /-- `DRV.TRAILREAD` (45_codec_driver.md R214). -/
  | drvTrailread
  /-- `DRV.RECREAD` (45_codec_driver.md R216). -/
  | drvRecread
deriving DecidableEq, Repr

/-- An operation as the core is given it: the 8-bit code of 30_encoding.md R91 and the operand lines beside it, which
no word encodes ("Operands are passed in the registers each operation's rule names"; the table's `source_fields`:
"passed in a register (not encoded)", "passed on a wire (not encoded)"). An operation reads the lines its rule names
and no other (assumption 4). -/
structure OpWord where
  /-- The operation code. -/
  code : Byte
  /-- The symbol line (`TREE.INSERT`, `TREE.PATHINFO`). -/
  sym : Sym
  /-- The node line carries an index: `false` is `none`, read by `TREE.COUNT` only. -/
  nodePresent : Bool
  /-- The node line (`TREE.COUNT`, `TREE.HEIGHT`, `TREE.DEPTH`). -/
  node : Nat
  /-- The bit line (`BSW.WRITEBIT`). -/
  bit : Bool
  /-- The byte-index line (`BSR.INIT`). -/
  base : BitVec 32
deriving DecidableEq, Repr

/-- A code with every operand line at zero. -/
def OpWord.ofCode (code : Byte) : OpWord :=
  { code := code, sym := 0, nodePresent := false, node := 0, bit := false, base := 0 }

end Sys2Proof
end

