-- ==== Sys2Proof/WellFormed.lean ====
section
/-! DEFINITION. Which operations the operand lines of a block of a given width can carry. -/

namespace Sys2Proof

/-- The operands fit their lines: a symbol is below `2^(8W)` (00_scope.md R17), a node index is below `NODE_MAX`
(00_scope.md R7, 10_state.md R28). A bit and a 32-bit byte index always fit. -/
def Instr.wf (c : Config) : Instr → Bool
  | .encode => true
  | .decode => true
  | .rleCollapse => true
  | .alphaFold => true
  | .alphaSort => true
  | .treeInit => true
  | .treeInsert s => s.fits c
  | .treeCount none => true
  | .treeCount (some n) => decide (n < nodeMax)
  | .treeHeight n => decide (n < nodeMax)
  | .treeDepth n => decide (n < nodeMax)
  | .treePathinfo s => s.fits c
  | .treeFindvalue => true
  | .bswInit => true
  | .bswWritebit _ => true
  | .bswAdvance => true
  | .bswFlush => true
  | .bsrInit _ => true
  | .bsrReadbit => true
  | .drvDepthbits => true
  | .drvHdremit => true
  | .drvRecemit => true
  | .drvTrailemit => true
  | .drvHdrparse => true
  | .drvTrailread => true
  | .drvRecread => true

end Sys2Proof
end

