-- ==== Sys2Proof/Decode.lean ====
section
/-! DEFINITION. The decoder of command words (30_encoding.md R90, R92) and of operation codes (R91), and the encoder. -/

namespace Sys2Proof

/-- The two commands the host may write to `CMD` (30_encoding.md R90): every other value is illegal as a command, the
codes of the micro-operations included (R92). The alternative encoding "method2" has no code (R93). -/
def decodeCommand (c : Byte) : Option Instr :=
  match c.toNat with
  | 0x01 => some .encode
  | 0x02 => some .decode
  | _ => none

/-- The operation of the table of 30_encoding.md R91 that a code names, its operands taken from the operand lines;
`error` carries the code that names none. -/
def decodeWord (w : OpWord) : Except Byte Instr :=
  match w.code.toNat with
  | 0x01 => .ok .encode
  | 0x02 => .ok .decode
  | 0x10 => .ok .rleCollapse
  | 0x18 => .ok .alphaFold
  | 0x19 => .ok .alphaSort
  | 0x20 => .ok .treeInit
  | 0x21 => .ok (.treeInsert w.sym)
  | 0x22 => .ok (.treeCount (if w.nodePresent then some w.node else none))
  | 0x23 => .ok (.treeHeight w.node)
  | 0x24 => .ok (.treeDepth w.node)
  | 0x28 => .ok (.treePathinfo w.sym)
  | 0x29 => .ok .treeFindvalue
  | 0x30 => .ok .bswInit
  | 0x31 => .ok (.bswWritebit w.bit)
  | 0x32 => .ok .bswAdvance
  | 0x33 => .ok .bswFlush
  | 0x38 => .ok (.bsrInit w.base)
  | 0x39 => .ok .bsrReadbit
  | 0x40 => .ok .drvDepthbits
  | 0x41 => .ok .drvHdremit
  | 0x42 => .ok .drvRecemit
  | 0x43 => .ok .drvTrailemit
  | 0x48 => .ok .drvHdrparse
  | 0x49 => .ok .drvTrailread
  | 0x4A => .ok .drvRecread
  | _ => .error w.code

/-- The word of bits `w` of an `nbits`-bit row, when it is one 8-bit code: an operation has no further word. -/
def tableCode (nbits w : Nat) : Option Byte :=
  if w % 2 ^ nbits < 256 then some (BitVec.ofNat 8 (w % 2 ^ nbits)) else none

/-- What the decoder reads from a row of the opcode table: the row's code, every operand line zero. -/
def decodeTableWord (nbits w : Nat) : Option Instr :=
  match tableCode nbits w with
  | none => none
  | some c =>
    match decodeWord (OpWord.ofCode c) with
    | .ok i => some i
    | .error _ => none

/-- The word of an operation (30_encoding.md R91): its code, its operands on their lines, the other lines zero. -/
def encode : Instr → OpWord
  | .encode => .ofCode 0x01
  | .decode => .ofCode 0x02
  | .rleCollapse => .ofCode 0x10
  | .alphaFold => .ofCode 0x18
  | .alphaSort => .ofCode 0x19
  | .treeInit => .ofCode 0x20
  | .treeInsert s => { OpWord.ofCode 0x21 with sym := s }
  | .treeCount none => .ofCode 0x22
  | .treeCount (some n) => { OpWord.ofCode 0x22 with nodePresent := true, node := n }
  | .treeHeight n => { OpWord.ofCode 0x23 with node := n }
  | .treeDepth n => { OpWord.ofCode 0x24 with node := n }
  | .treePathinfo s => { OpWord.ofCode 0x28 with sym := s }
  | .treeFindvalue => .ofCode 0x29
  | .bswInit => .ofCode 0x30
  | .bswWritebit b => { OpWord.ofCode 0x31 with bit := b }
  | .bswAdvance => .ofCode 0x32
  | .bswFlush => .ofCode 0x33
  | .bsrInit base => { OpWord.ofCode 0x38 with base := base }
  | .bsrReadbit => .ofCode 0x39
  | .drvDepthbits => .ofCode 0x40
  | .drvHdremit => .ofCode 0x41
  | .drvRecemit => .ofCode 0x42
  | .drvTrailemit => .ofCode 0x43
  | .drvHdrparse => .ofCode 0x48
  | .drvTrailread => .ofCode 0x49
  | .drvRecread => .ofCode 0x4A

/-- The mnemonic of an operation, as spec/opcode_table.json spells it. -/
def Instr.mnemonic : Instr → String
  | .encode => "ENCODE"
  | .decode => "DECODE"
  | .rleCollapse => "RLE.COLLAPSE"
  | .alphaFold => "ALPHA.FOLD"
  | .alphaSort => "ALPHA.SORT"
  | .treeInit => "TREE.INIT"
  | .treeInsert _ => "TREE.INSERT"
  | .treeCount _ => "TREE.COUNT"
  | .treeHeight _ => "TREE.HEIGHT"
  | .treeDepth _ => "TREE.DEPTH"
  | .treePathinfo _ => "TREE.PATHINFO"
  | .treeFindvalue => "TREE.FINDVALUE"
  | .bswInit => "BSW.INIT"
  | .bswWritebit _ => "BSW.WRITEBIT"
  | .bswAdvance => "BSW.ADVANCE"
  | .bswFlush => "BSW.FLUSH"
  | .bsrInit _ => "BSR.INIT"
  | .bsrReadbit => "BSR.READBIT"
  | .drvDepthbits => "DRV.DEPTHBITS"
  | .drvHdremit => "DRV.HDREMIT"
  | .drvRecemit => "DRV.RECEMIT"
  | .drvTrailemit => "DRV.TRAILEMIT"
  | .drvHdrparse => "DRV.HDRPARSE"
  | .drvTrailread => "DRV.TRAILREAD"
  | .drvRecread => "DRV.RECREAD"

/-- The rows of spec/opcode_table.json: mnemonic and code (30_encoding.md R91). -/
def opcodeTable : List (String × Byte) :=
  [("ENCODE", 0x01), ("DECODE", 0x02), ("RLE.COLLAPSE", 0x10), ("ALPHA.FOLD", 0x18), ("ALPHA.SORT", 0x19),
   ("TREE.INIT", 0x20), ("TREE.INSERT", 0x21), ("TREE.COUNT", 0x22), ("TREE.HEIGHT", 0x23), ("TREE.DEPTH", 0x24)] ++
  [("TREE.PATHINFO", 0x28), ("TREE.FINDVALUE", 0x29), ("BSW.INIT", 0x30), ("BSW.WRITEBIT", 0x31),
   ("BSW.ADVANCE", 0x32), ("BSW.FLUSH", 0x33), ("BSR.INIT", 0x38), ("BSR.READBIT", 0x39)] ++
  [("DRV.DEPTHBITS", 0x40), ("DRV.HDREMIT", 0x41), ("DRV.RECEMIT", 0x42), ("DRV.TRAILEMIT", 0x43),
   ("DRV.HDRPARSE", 0x48), ("DRV.TRAILREAD", 0x49), ("DRV.RECREAD", 0x4A)]

end Sys2Proof
end

