-- ==== Sys2Proof/Machine/State.lean ====
section
/-! DEFINITION. The state of the XKC codec core (10_state.md R20), its value after reset (R50), and the reasons a step
can stop. -/

namespace Sys2Proof.Machine

/-- One entry of `RUNS`: "{symbol, count}, count in [1,255]" (10_state.md R24). -/
structure Run where
  /-- The symbol. -/
  sym : Sym
  /-- The count, 8 bits. -/
  count : BitVec 8
deriving DecidableEq, Repr

/-- One entry of `ALPHA`: "{symbol, cumulative frequency}" (10_state.md R26); the frequency has no width. -/
structure Letter where
  /-- The symbol. -/
  sym : Sym
  /-- The cumulative frequency. -/
  freq : Nat
deriving DecidableEq, Repr

/-- One entry of the tree arena `NODE` (10_state.md R28); `none` in `val` is the explicit empty marker (R31). -/
structure Node where
  /-- Index of the parent; the root's is 0. -/
  parent : Nat
  /-- The symbol held, or the empty marker. -/
  val : Option Sym
  /-- Index of the left child. -/
  left : Option Nat
  /-- Index of the right child. -/
  right : Option Nat
deriving DecidableEq, Repr

/-- What `TREE.INIT` leaves in `NODE[0]`: "root starts as a single sentinel node" (42_path_tree.md R151). -/
def emptyRoot : Node := { parent := 0, val := none, left := none, right := none }

/-- The values of the sequencer register `PHASE` (10_state.md R40). It takes only these. -/
inductive Phase
  | idle
  | eInit
  | eRle
  | eFold
  | eSort
  | eTree
  | eDepthbits
  | eHeader
  | eRecords
  | eFlush
  | eTrailer
  | dInit
  | dHeader
  | dTrailer
  | dTree
  | dRecords
deriving DecidableEq, Repr

/-- The 8-bit value of `PHASE` (10_state.md R40). -/
def Phase.code : Phase → BitVec 8
  | .idle => 0x00
  | .eInit => 0x10
  | .eRle => 0x11
  | .eFold => 0x12
  | .eSort => 0x13
  | .eTree => 0x14
  | .eDepthbits => 0x15
  | .eHeader => 0x16
  | .eRecords => 0x17
  | .eFlush => 0x18
  | .eTrailer => 0x19
  | .dInit => 0x20
  | .dHeader => 0x21
  | .dTrailer => 0x22
  | .dTree => 0x23
  | .dRecords => 0x24

/-- The faults a command can end with (60_exceptions.md R240). Raising one is the fault entry of R250, which gives a
next state; it never stops the machine. -/
inductive FaultCode
  | truncatedInput
  | invalidAlphabetSize
  | treeLookupFailure
  | emptyInput
  | lengthNotMultiple
  | bitCountOverflow
  | bitCountMismatch
  | invalidDepthWidth
  | outputOverflow
  | illegalCommand
  | internalInvariant
deriving DecidableEq, Repr

/-- What a value-returning micro-operation returned when it was performed on its own (assumption 5). -/
inductive Ret
  /-- Nothing has been returned since reset. -/
  | none
  /-- A natural number (`TREE.COUNT`, `TREE.HEIGHT`, `TREE.DEPTH`). -/
  | nat (n : Nat)
  /-- A symbol (`TREE.FINDVALUE`). -/
  | sym (s : Sym)
  /-- A bit (`BSR.READBIT`). -/
  | bit (b : Bool)
deriving DecidableEq, Repr

/-- One line of a script (30_encoding.md R111, R112): a host transaction, or a micro-operation performed on its own as
in Programs 4 and 5 of 95_test_vectors.md. The lines `ENCODE` and `DECODE` are `cmd 0x01` and `cmd 0x02`. -/
inductive Line
  /-- `LOAD b0 b1 …`: `HostLoad` (10_state.md R45). -/
  | load (bytes : List Byte)
  /-- `CMD xx`: `HostCmd` (10_state.md R46). -/
  | cmd (c : Byte)
  /-- `STATUS`: `HostStatus` (10_state.md R47). -/
  | status
  /-- `RESULT`: `HostResult` (10_state.md R48). -/
  | result
  /-- `RESET`: `Reset` (10_state.md R49). -/
  | reset
  /-- `LOADRESULT`: `LOAD` of what the last `RESULT` returned (30_encoding.md R112). -/
  | loadResult
  /-- An operation of XKC-OPS performed on its own (assumption 15). -/
  | op (w : OpWord)
deriving DecidableEq, Repr

/-- What a host transaction returned (assumption 6). -/
inductive Reply
  /-- `HostStatus`: the pair of `STATUS.STATE` and `STATUS.ERRCODE` (10_state.md R47). -/
  | status (state : BitVec 2) (errcode : BitVec 8)
  /-- `HostResult`: `OUT[0..OUT_LEN)` (10_state.md R48). -/
  | result (bytes : List Byte)
deriving DecidableEq, Repr

/-- The bytes of one address space (20_memory.md R60) as (index, byte) pairs in the canonical form `Memory.wf`:
indices strictly rising, no entry equal to `unlisted`. -/
abbrev Memory := List Host.Cell

/-- What an index with no entry reads as: DESIGN CHOICE, unsafe (assumption 8). No rule reads a byte that neither
`HostLoad` nor `OutAppend` has written. -/
def unlisted : Byte := 0

/-- The reasons a step stops with a fault: there are none. Every fault of the spec is a fault entry, after which "the
block is idle and accepts any host transaction" (60_exceptions.md R250, R254), so it gives a next state
(assumption 24). Safe: nothing is stopped that goes on. -/
inductive Fault
deriving DecidableEq, Repr

/-- The reasons a step is refused. -/
inductive Refusal
  /-- Raised by `exec` for an instruction that has no meaning yet; safe, it says nothing of what the instruction does. -/
  | notModelled (mnemonic : String)
  /-- Raised by `step` for a `HostLoad` of more than `IN_CAP` bytes: "the transaction is refused: no state changes (a
  model gives it no step)" (10_state.md R45); safe. -/
  | loadOverCapacity
  /-- Raised by `step` for a `LOADRESULT` that follows no `RESULT`: there is no byte sequence to load
  (30_encoding.md R112, assumption 16); safe. -/
  | noResultToLoad
  /-- Raised by `step` for an operation code outside the table of 30_encoding.md R91 (assumption 25); safe. -/
  | noSuchOperation (code : Byte)
  /-- Raised by `step` for an operand that is wider than its line (assumption 12); safe. -/
  | operandTooWide
deriving DecidableEq, Repr

/-- The state of the block (10_state.md R20), with the elaboration parameters (assumption 1) and the model's own fields
`ret`, `script` and `replies`. `NRUNS`, `NALPHA` and `NNODES` are the lengths of the tables (assumption 10). -/
structure State where
  /-- The elaboration parameters; no step changes them (00_scope.md R6, R8, R19). -/
  cfg : Config
  /-- `IN` (10_state.md R21). -/
  inMem : Memory
  /-- `IN_LEN` (10_state.md R21). -/
  inLen : BitVec 32
  /-- `OUT` (10_state.md R22). -/
  outMem : Memory
  /-- `OUT_LEN` (10_state.md R22). -/
  outLen : Nat
  /-- `CMD` (10_state.md R42): `none` when it holds nothing. -/
  cmd : Option (BitVec 8)
  /-- `STATUS` (10_state.md R43). -/
  status : BitVec 16
  /-- `RUNS` (10_state.md R24). -/
  runs : List Run
  /-- `ALPHA` (10_state.md R26). -/
  alpha : List Letter
  /-- `NODE` (10_state.md R28). -/
  nodes : List Node
  /-- `PI_DEPTH` (10_state.md R33). -/
  piDepth : Nat
  /-- `PI_PATH` (10_state.md R33): bit `i` is entry `i`, every bit past the end is 0 (assumption 11). -/
  piPath : List Bool
  /-- `PI_FOUND` (10_state.md R33). -/
  piFound : Bool
  /-- `WBYTE` (10_state.md R35). -/
  wbyte : BitVec 8
  /-- `WCUR` (10_state.md R35). -/
  wcur : BitVec 3
  /-- `TBITS` (10_state.md R35). -/
  tbits : BitVec 32
  /-- `RBASE` (10_state.md R37). -/
  rbase : BitVec 32
  /-- `RIDX` (10_state.md R37). -/
  ridx : BitVec 32
  /-- `RCUR` (10_state.md R37). -/
  rcur : BitVec 3
  /-- `RBITS` (10_state.md R37). -/
  rbits : BitVec 32
  /-- `RTOTAL` (10_state.md R37). -/
  rtotal : BitVec 32
  /-- `MDB` (10_state.md R39). -/
  mdb : BitVec 8
  /-- `HEIGHT` (10_state.md R39). -/
  height : Nat
  /-- `NSYM` (10_state.md R39). -/
  nsym : BitVec 9
  /-- `PHASE` (10_state.md R40). -/
  phase : Phase
  /-- The model's own: the last value returned by a micro-operation on its own (assumption 5). -/
  ret : Ret
  /-- The model's own: the lines still to be performed, oldest first (assumption 3). -/
  script : List Line
  /-- The model's own: what the host's transactions returned, newest first (assumption 6). -/
  replies : List Reply
deriving DecidableEq, Repr

/-- The parameters the machine of `State.reset` is elaborated with: DESIGN CHOICE, unsafe (assumption 1). -/
def defaultConfig : Config := { width := .one, inCap := 0xFFFFFFFF, outCap := none, runCap := none }

/-- The machine right after reset (10_state.md R50, 70_reset_and_hazards.md R280): buffers empty, `STATUS` 0x0000,
`CMD` holding nothing, `PHASE` IDLE. What R50 calls "unspecified, not observable" has the values of assumption 7: zero,
and for `NODE` the empty tree. -/
def State.reset : State where
  cfg := defaultConfig
  inMem := []
  inLen := 0
  outMem := []
  outLen := 0
  cmd := none
  status := 0x0000
  runs := []
  alpha := []
  nodes := [emptyRoot]
  piDepth := 0
  piPath := []
  piFound := false
  wbyte := 0
  wcur := 0
  tbits := 0
  rbase := 0
  ridx := 0
  rcur := 0
  rbits := 0
  rtotal := 0
  mdb := 0
  height := 0
  nsym := 0
  phase := .idle
  ret := .none
  script := []
  replies := []

end Sys2Proof.Machine
end

