-- ==== Sys2Proof/Machine/Flags.lean ====
section
/-! DEFINITION. The flags of the block: the fields of `STATUS` (10_state.md R43) and the fault codes
(60_exceptions.md R240). The one other flag, `PI_FOUND`, is a field of State that `TREE.PATHINFO` writes. -/

namespace Sys2Proof.Machine

/-- The code a fault leaves in `STATUS.ERRCODE` (60_exceptions.md R240). -/
def FaultCode.code : FaultCode → BitVec 8
  | .truncatedInput => 0x01
  | .invalidAlphabetSize => 0x02
  | .treeLookupFailure => 0x03
  | .emptyInput => 0x04
  | .lengthNotMultiple => 0x05
  | .bitCountOverflow => 0x06
  | .bitCountMismatch => 0x07
  | .invalidDepthWidth => 0x08
  | .outputOverflow => 0x09
  | .illegalCommand => 0x0A
  | .internalInvariant => 0x0B

/-- `STATE` = IDLE: "no command has completed since reset" (10_state.md R43). -/
def stateIdle : BitVec 2 := 0

/-- `STATE` = DONE_OK: "the last command ended without fault" (10_state.md R43). -/
def stateDoneOk : BitVec 2 := 1

/-- `STATE` = DONE_ERR: "the last command ended with a fault" (10_state.md R43). -/
def stateDoneErr : BitVec 2 := 2

/-- The word of `STATUS` with the given fields, bits [7:2] zero (10_state.md R43). -/
def statusWord (state : BitVec 2) (errcode : BitVec 8) : BitVec 16 := errcode ++ (0 : BitVec 6) ++ state

/-- `STATUS[1:0]`, the field `STATE` (10_state.md R43). -/
def statusState (w : BitVec 16) : BitVec 2 := w.extractLsb' 0 2

/-- `STATUS[7:2]`, reserved, always 0 (10_state.md R43). -/
def statusReserved (w : BitVec 16) : BitVec 6 := w.extractLsb' 2 6

/-- `STATUS[15:8]`, the field `ERRCODE` (10_state.md R43). -/
def statusErrcode (w : BitVec 16) : BitVec 8 := w.extractLsb' 8 8

/-- `STATUS` after a command that ended without fault (45_codec_driver.md R201, R211). -/
def statusOk : BitVec 16 := statusWord stateDoneOk 0

/-- `STATUS` after a command that ended with the fault `f` (60_exceptions.md R250). -/
def statusErr (f : FaultCode) : BitVec 16 := statusWord stateDoneErr f.code

end Sys2Proof.Machine
end

