-- ==== Sys2Proof/Machine/Ops.lean ====
section
/-! DEFINITION. The named operations every meaning is built from: register updates, memory, the access primitives of
20_memory.md, the fault entry, and the loops of the pseudocode. -/

namespace Sys2Proof.Machine

/-! ### Register updates -/

/-- Writes `IN` and `IN_LEN`. -/
def State.setIn (s : State) (m : Memory) (n : BitVec 32) : State := { s with inMem := m, inLen := n }

/-- Writes `OUT` and `OUT_LEN`. -/
def State.setOut (s : State) (m : Memory) (n : Nat) : State := { s with outMem := m, outLen := n }

/-- Writes `CMD`. -/
def State.setCmd (s : State) (c : Option (BitVec 8)) : State := { s with cmd := c }

/-- Writes `STATUS`. -/
def State.setStatus (s : State) (w : BitVec 16) : State := { s with status := w }

/-- Writes `RUNS` and `NRUNS`. -/
def State.setRuns (s : State) (r : List Run) : State := { s with runs := r }

/-- Writes `ALPHA` and `NALPHA`. -/
def State.setAlpha (s : State) (a : List Letter) : State := { s with alpha := a }

/-- Writes `NODE` and `NNODES`. -/
def State.setNodes (s : State) (t : List Node) : State := { s with nodes := t }

/-- Writes `PI_DEPTH` and `PI_PATH`. -/
def State.setPath (s : State) (d : Nat) (p : List Bool) : State := { s with piDepth := d, piPath := p }

/-- Writes `PI_FOUND`. -/
def State.setFound (s : State) (b : Bool) : State := { s with piFound := b }

/-- Writes the bit stream writer: `WBYTE`, `WCUR`, `TBITS`. -/
def State.setWriter (s : State) (b : BitVec 8) (c : BitVec 3) (t : BitVec 32) : State :=
  { s with wbyte := b, wcur := c, tbits := t }

/-- Writes `RBASE`. -/
def State.setRbase (s : State) (b : BitVec 32) : State := { s with rbase := b }

/-- Writes the place of the bit stream reader: `RIDX`, `RCUR`, `RBITS`. -/
def State.setReader (s : State) (i : BitVec 32) (c : BitVec 3) (n : BitVec 32) : State :=
  { s with ridx := i, rcur := c, rbits := n }

/-- Writes `RTOTAL`. -/
def State.setRtotal (s : State) (t : BitVec 32) : State := { s with rtotal := t }

/-- Writes `MDB`. -/
def State.setMdb (s : State) (b : BitVec 8) : State := { s with mdb := b }

/-- Writes `HEIGHT`. -/
def State.setHeight (s : State) (h : Nat) : State := { s with height := h }

/-- Writes `NSYM`. -/
def State.setNsym (s : State) (n : BitVec 9) : State := { s with nsym := n }

/-- Writes `PHASE`. -/
def State.setPhase (s : State) (p : Phase) : State := { s with phase := p }

/-- Writes the model's own field `ret`. -/
def State.setRet (s : State) (r : Ret) : State := { s with ret := r }

/-- Writes the model's own field `script`. -/
def State.setScript (s : State) (l : List Line) : State := { s with script := l }

/-- Writes the model's own field `replies`. -/
def State.setReplies (s : State) (l : List Reply) : State := { s with replies := l }

/-! ### Memory -/

/-- The byte at an index. -/
def Memory.read : Memory → Nat → Byte
  | [], _ => unlisted
  | (b, v) :: m, a => if b = a then v else Memory.read m a

/-- The memory with one byte written, in the canonical form again. -/
def Memory.write : Memory → Nat → Byte → Memory
  | [], a, v => if v = unlisted then [] else [(a, v)]
  | (b, w) :: m, a, v =>
    if a < b then (if v = unlisted then (b, w) :: m else (a, v) :: (b, w) :: m)
    else if a = b then (if v = unlisted then m else (a, v) :: m)
    else (b, w) :: Memory.write m a v

/-- Every entry of the list stands at an index of at least `lo`, the indices rise strictly, and no entry is
`unlisted`. -/
def Memory.wfFrom : Nat → Memory → Bool
  | _, [] => true
  | lo, (a, v) :: m => decide (lo ≤ a) && decide (v ≠ unlisted) && Memory.wfFrom (a + 1) m

/-- The canonical form: indices strictly rising, no entry equal to what an unlisted index reads as. -/
def Memory.wf (m : Memory) : Bool := Memory.wfFrom 0 m

/-- The integer `sum over k in [0,n) of m[a+k] * 256^k` (20_memory.md R63): least significant byte at the lowest index
(R68). -/
def Memory.load (m : Memory) (a : Nat) : Nat → Nat
  | 0 => 0
  | n + 1 => (m.read a).toNat + 256 * Memory.load m (a + 1) n

/-- The memory with the `n`-byte little-endian image of `v` written from index `a` on, in increasing index order
(20_memory.md R65, R67). -/
def Memory.store (m : Memory) (a : Nat) : Nat → Nat → Memory
  | 0, _ => m
  | n + 1, v => Memory.store (m.write a (BitVec.ofNat 8 v)) (a + 1) n (v / 256)

/-- The `n` bytes from index `a` on, in index order. -/
def Memory.bytes (m : Memory) (a : Nat) : Nat → List Byte
  | 0 => []
  | n + 1 => m.read a :: Memory.bytes m (a + 1) n

/-- The memory with the given bytes written from index `a` on. -/
def Memory.putBytes (m : Memory) (a : Nat) : List Byte → Memory
  | [] => m
  | b :: bs => Memory.putBytes (m.write a b) (a + 1) bs

/-- The space that holds exactly the given bytes from index 0 on (`IN <- b`, 10_state.md R45). -/
def Memory.ofBytes (bs : List Byte) : Memory := Memory.putBytes [] 0 bs

/-! ### Operations that can raise a fault -/

/-- What a rule of the pseudocode does: it goes on with a value and the state so far, or raises a fault and leaves the
state as it was at that point (60_exceptions.md R250). -/
abbrev Op (α : Type) := EStateM FaultCode State α

/-- `raise F` (00_scope.md R14). -/
def raise {α : Type} (f : FaultCode) : Op α := fun s => .error f s

/-- Reads the state. -/
def look {α : Type} (f : State → α) : Op α := fun s => .ok (f s) s

/-- Updates the state. -/
def update (f : State → State) : Op Unit := fun s => .ok () (f s)

/-- `if c: raise F`. -/
def raiseIf (c : State → Bool) (f : FaultCode) : Op Unit :=
  fun s => if c s then .error f s else .ok () s

/-- `PHASE <- p` (00_scope.md R14). -/
def enter (p : Phase) : Op Unit := update (·.setPhase p)

/-- `for x in l: body x`, in order. -/
def forEach {α : Type} : List α → (α → Op Unit) → Op Unit
  | [], _ => pure ()
  | x :: xs, body => do
    body x
    forEach xs body

/-- `repeat n times: body`. -/
def repeatOp : Nat → Op Unit → Op Unit
  | 0, _ => pure ()
  | n + 1, body => do
    body
    repeatOp n body

/-- `for i from i to i + k - 1: body i`. -/
def countUp : (k i : Nat) → (Nat → Op Unit) → Op Unit
  | 0, _, _ => pure ()
  | k + 1, i, body => do
    body i
    countUp k (i + 1) body

/-! ### Taking a fault, and ending without one -/

/-- Fault entry: what `raise F` does, "exactly this and nothing else" (60_exceptions.md R250). There is no return
operation beside it: "After a fault the block is idle and accepts any host transaction" (R254). -/
def faultEntry (f : FaultCode) (s : State) : State :=
  ((s.setOut s.outMem 0).setStatus (statusErr f)).setPhase .idle

/-- The end of a command without fault (45_codec_driver.md R201, R211). -/
def commandDone (s : State) : State := (s.setStatus statusOk).setPhase .idle

/-- The outcome of a whole command: its sequence performed, then its end or the fault entry. -/
def commandOutcome (body : Op Unit) (s : State) : Host.Outcome State Fault Refusal :=
  match body s with
  | .ok _ t => .next (commandDone t)
  | .error f t => .next (faultEntry f t)

/-- The outcome of a micro-operation that returns nothing, performed on its own. -/
def opOutcome (body : Op Unit) (s : State) : Host.Outcome State Fault Refusal :=
  match body s with
  | .ok _ t => .next t
  | .error f t => .next (faultEntry f t)

/-- The outcome of a micro-operation that returns a value, performed on its own: the value goes to `ret`
(assumption 5). -/
def retOutcome {α : Type} (body : Op α) (wrap : α → Ret) (s : State) : Host.Outcome State Fault Refusal :=
  match body s with
  | .ok v t => .next (t.setRet (wrap v))
  | .error f t => .next (faultEntry f t)

/-! ### The access primitives of 20_memory.md -/

/-- `MemRead(IN, a, n)` (20_memory.md R63): "a model that reaches one" with `a + n > IN_LEN` "raises
`InternalInvariant`". -/
def memRead (a n : Nat) : Op Nat := fun s =>
  if a + n ≤ s.inLen.toNat then .ok (s.inMem.load a n) s else .error .internalInvariant s

/-- `OutAppend(n, v)` (20_memory.md R65). -/
def outAppend (n v : Nat) : Op Unit := fun s =>
  if s.cfg.outFits (s.outLen + n) then .ok () (s.setOut (s.outMem.store s.outLen n v) (s.outLen + n))
  else .error .outputOverflow s

/-- `SymAppend(s)` (20_memory.md R66). -/
def symAppend (v : Sym) : Op Unit := fun s => outAppend s.cfg.w v.toNat s

end Sys2Proof.Machine
end

