-- ==== Sys2Proof/Machine/Operands.lean ====
section
/-! DEFINITION. How operands are assembled: symbols of a raw buffer, bits of a depth and of a path, node indices
(30_encoding.md R109), and the bit length of a depth (00_scope.md R11). -/

namespace Sys2Proof.Machine

/-- The number of symbols of the raw buffer in `IN`: `IN_LEN / W` (40_run_length.md R130). -/
def State.symCount (s : State) : Nat := s.inLen.toNat / s.cfg.w

/-- `SymRead(i)` as a value (20_memory.md R64): `MemRead(IN, i * W, W)`. -/
def State.symAt (s : State) (i : Nat) : Sym := BitVec.ofNat 32 (s.inMem.load (i * s.cfg.w) s.cfg.w)

/-- The symbols of the raw buffer from symbol `i` on, `k` of them. -/
def State.symsFrom (s : State) (i : Nat) : Nat → List Sym
  | 0 => []
  | k + 1 => s.symAt i :: s.symsFrom (i + 1) k

/-- The raw buffer as symbols (30_encoding.md R105): every `SymRead(i)` with `(i + 1) * W ≤ IN_LEN`, in order. -/
def State.inSymbols (s : State) : List Sym := s.symsFrom 0 s.symCount

/-- `bitlen(x)` (00_scope.md R11): 0 for 0, else `floor(log2(x)) + 1`. -/
def bitlen (x : Nat) : Nat := if x = 0 then 0 else Nat.log2 x + 1

/-- Bit `i` of a depth: `(d >> i) & 1` (45_codec_driver.md R205, 30_encoding.md R109 d). -/
def depthBit (d i : Nat) : Bool := d.testBit i

/-- `d | (b << i)` (45_codec_driver.md R216). -/
def withDepthBit (d i : Nat) (b : Bool) : Nat := d ||| (b.toNat <<< i)

/-- `PI_PATH[i]`: 0 past the end of the list (10_state.md R33, assumption 11). -/
def pathBit (p : List Bool) (i : Nat) : Bool := p.getD i false

/-- `WBYTE` with bit `WCUR` set to `b`: `(WBYTE & ~(1 << WCUR) & 0xFF) | (b << WCUR)` (44_bitstream.md R181). -/
def withBit (byte : BitVec 8) (cur : BitVec 3) (b : Bool) : BitVec 8 :=
  (byte &&& ~~~(1#8 <<< cur.toNat)) ||| ((if b then 1#8 else 0#8) <<< cur.toNat)

/-- `(byte >> RCUR) & 1` (44_bitstream.md R187). -/
def bitAt (byte : Nat) (cur : BitVec 3) : Bool := byte.testBit cur.toNat

/-- `ceil(t / 8)`, as `(t + 7) >> 3` (46_arithmetic_and_sequencing.md R230). -/
def ceilDiv8 (t : Nat) : Nat := (t + 7) / 8


end Sys2Proof.Machine
end

