-- ==== Sys2Proof/Machine/Alphabet.lean ====
section
/-! DEFINITION. The Alphabet Builder (41_alphabet.md). -/

namespace Sys2Proof.Machine

/-- Adds `c` to the frequency of the first letter holding `x`; `none` when there is no such letter
(41_alphabet.md R141). -/
def addToLetter (x : Sym) (c : Nat) : List Letter → Option (List Letter)
  | [] => none
  | l :: ls =>
    if l.sym = x then some ({ l with freq := l.freq + c } :: ls)
    else (addToLetter x c ls).map (l :: ·)

/-- One turn of the loop of `ALPHA.FOLD` (41_alphabet.md R141): the run's count is added to its symbol's letter, or a
new letter is made; a 257th letter raises `InvalidAlphabetSize`. -/
def foldRun (r : Run) : Op Unit := fun s =>
  match addToLetter r.sym r.count.toNat s.alpha with
  | some a => .ok () (s.setAlpha a)
  | none =>
    if s.alpha.length = alphaMax then .error .invalidAlphabetSize s
    else .ok () (s.setAlpha (s.alpha ++ [{ sym := r.sym, freq := r.count.toNat }]))

/-- `ALPHA.FOLD` (41_alphabet.md R141). -/
def alphaFold : Op Unit := do
  update (·.setAlpha [])
  let runs ← look (·.runs)
  forEach runs foldRun

/-- Inserts a letter behind every letter whose frequency is not smaller: "strict '<': equal entries are not passed"
(41_alphabet.md R142). -/
def insertLetter (e : Letter) : List Letter → List Letter
  | [] => [e]
  | l :: ls => if l.freq < e.freq then e :: l :: ls else l :: insertLetter e ls

/-- The stable sort by descending frequency of 41_alphabet.md R142, by insertion in table order. -/
def sortLetters (a : List Letter) : List Letter := a.foldl (fun done e => insertLetter e done) []

/-- `ALPHA.SORT` (41_alphabet.md R142). -/
def alphaSort : Op Unit := update fun s => s.setAlpha (sortLetters s.alpha)

/-- The meaning of `ALPHA.FOLD`. -/
def execAlphaFold (s : State) : Host.Outcome State Fault Refusal := opOutcome alphaFold s

/-- The meaning of `ALPHA.SORT`. -/
def execAlphaSort (s : State) : Host.Outcome State Fault Refusal := opOutcome alphaSort s

end Sys2Proof.Machine
end

