-- ==== Sys2Proof/Machine/BitStream.lean ====
section
/-! DEFINITION. The Bit Stream Writer and Reader (44_bitstream.md). -/

namespace Sys2Proof.Machine

/-- `BSW.INIT` (44_bitstream.md R180). -/
def bswInit : Op Unit := update (·.setWriter 0 0 0)

/-- `BSW.WRITEBIT b` (44_bitstream.md R181): it neither moves the cursor nor counts the bit. -/
def bswWritebit (b : Bool) : Op Unit := update fun s => s.setWriter (withBit s.wbyte s.wcur b) s.wcur s.tbits

/-- `BSW.ADVANCE` (44_bitstream.md R182). -/
def bswAdvance : Op Unit := do
  raiseIf (fun s => s.tbits.toNat = 2 ^ 32 - 1) .bitCountOverflow
  update fun s => s.setWriter s.wbyte s.wcur (s.tbits + 1)
  let cur ← look (·.wcur)
  if cur.toNat = 7 then
    let byte ← look (·.wbyte)
    outAppend 1 byte.toNat
    update fun s => s.setWriter 0 0 s.tbits
  else
    update fun s => s.setWriter s.wbyte (s.wcur + 1) s.tbits

/-- `BSW.FLUSH` (44_bitstream.md R183): a byte is appended only when it is partially filled. -/
def bswFlush : Op Unit := do
  let cur ← look (·.wcur)
  if cur.toNat ≠ 0 then
    let byte ← look (·.wbyte)
    outAppend 1 byte.toNat
    update fun s => s.setWriter 0 0 s.tbits
  else
    pure ()

/-- The pseudo-operation `BSW.PUT b` (44_bitstream.md R185). -/
def bswPut (b : Bool) : Op Unit := do
  bswWritebit b
  bswAdvance

/-- `BSR.INIT base` (44_bitstream.md R186): `RTOTAL` is not written. -/
def bsrInit (base : BitVec 32) : Op Unit := update fun s => (s.setRbase base).setReader 0 0 0

/-- `BSR.READBIT` (44_bitstream.md R187): "a call with `RBITS ≥ RTOTAL` cannot happen and a model that reaches one raises
`InternalInvariant`". -/
def bsrReadbit : Op Bool := do
  raiseIf (fun s => s.rtotal.toNat ≤ s.rbits.toNat) .internalInvariant
  let at' ← look fun s => s.rbase.toNat + s.ridx.toNat
  let byte ← memRead at' 1
  let cur ← look (·.rcur)
  update fun s =>
    if s.rcur.toNat = 7 then s.setReader (s.ridx + 1) 0 (s.rbits + 1)
    else s.setReader s.ridx (s.rcur + 1) (s.rbits + 1)
  pure (bitAt byte cur)

/-- The meaning of `BSW.INIT`. -/
def execBswInit (s : State) : Host.Outcome State Fault Refusal := opOutcome bswInit s

/-- The meaning of `BSW.WRITEBIT b`. -/
def execBswWritebit (b : Bool) (s : State) : Host.Outcome State Fault Refusal := opOutcome (bswWritebit b) s

/-- The meaning of `BSW.ADVANCE`. -/
def execBswAdvance (s : State) : Host.Outcome State Fault Refusal := opOutcome bswAdvance s

/-- The meaning of `BSW.FLUSH`. -/
def execBswFlush (s : State) : Host.Outcome State Fault Refusal := opOutcome bswFlush s

/-- The meaning of `BSR.INIT base`. -/
def execBsrInit (base : BitVec 32) (s : State) : Host.Outcome State Fault Refusal := opOutcome (bsrInit base) s

/-- The meaning of `BSR.READBIT`. -/
def execBsrReadbit (s : State) : Host.Outcome State Fault Refusal := retOutcome bsrReadbit .bit s

end Sys2Proof.Machine
end

