-- ==== Sys2Proof/Machine/PathCodec.lean ====
section
/-! DEFINITION. The Path Codec (43_path_codec.md). -/

namespace Sys2Proof.Machine

/-- What a search of the arena finds: a path, nothing, or that the arena is no tree (assumption 13). -/
inductive Found
  | at (path : List Bool)
  | nowhere
  | broken
deriving DecidableEq, Repr

/-- A path found below a child, with the direction taken to it. -/
def Found.below (dir : Bool) : Found → Found
  | .at p => .at (dir :: p)
  | .nowhere => .nowhere
  | .broken => .broken

/-- `Search(n, d)` of 43_path_codec.md R170: the node, then its left subtree, then its right subtree. The path below
`n`; a failed branch leaves nothing behind. The recursion is bounded by the number of nodes (assumption 19). -/
def searchOn (t : List Node) (x : Sym) : (fuel : Nat) → Nat → Found
  | 0, _ => .broken
  | fuel + 1, n =>
    match t[n]? with
    | none => .broken
    | some nd =>
      if nd.val = some x then .at []
      else
        match (match nd.left with
          | none => Found.nowhere
          | some l => (searchOn t x fuel l).below false) with
        | .at p => .at p
        | .broken => .broken
        | .nowhere =>
          match nd.right with
          | none => .nowhere
          | some r => (searchOn t x fuel r).below true

/-- The search from the root (43_path_codec.md R170). -/
def search (t : List Node) (x : Sym) : Found := searchOn t x t.length 0

/-- `TREE.PATHINFO x` (43_path_codec.md R170). When the symbol is absent: `PI_FOUND = 0`, `PI_DEPTH = 0`, `PI_PATH` all
zero. -/
def treePathinfo (x : Sym) : Op Unit := fun s =>
  match search s.nodes x with
  | .at p => .ok () ((s.setFound true).setPath p.length p)
  | .nowhere => .ok () ((s.setFound false).setPath 0 [])
  | .broken => .error .internalInvariant s

/-- The walk of `TREE.FINDVALUE` (43_path_codec.md R171) from node `n`, with `k` steps to go, the next of them bit `i` of
the path. -/
def walk (t : List Node) (p : List Bool) : (k i n : Nat) → Except FaultCode Sym
  | 0, _, n =>
    match t[n]? with
    | none => .error .internalInvariant
    | some nd =>
      match nd.val with
      | none => .error .treeLookupFailure
      | some v => .ok v
  | k + 1, i, n =>
    match t[n]? with
    | none => .error .internalInvariant
    | some nd =>
      match (if pathBit p i then nd.right else nd.left) with
      | none => .error .treeLookupFailure
      | some c => walk t p k (i + 1) c

/-- `TREE.FINDVALUE` (43_path_codec.md R171). -/
def treeFindvalue : Op Sym := fun s =>
  match walk s.nodes s.piPath s.piDepth 0 0 with
  | .ok v => .ok v s
  | .error f => .error f s

/-- The meaning of `TREE.PATHINFO x`. -/
def execTreePathinfo (x : Sym) (s : State) : Host.Outcome State Fault Refusal := opOutcome (treePathinfo x) s

/-- The meaning of `TREE.FINDVALUE`. -/
def execTreeFindvalue (s : State) : Host.Outcome State Fault Refusal := retOutcome treeFindvalue .sym s

end Sys2Proof.Machine
end

