-- ==== Sys2Proof/Machine/Driver.lean ====
section
/-! DEFINITION. The micro-operations of the Codec Driver (45_codec_driver.md R203 to R206, R213 to R216). -/

namespace Sys2Proof.Machine

/-- `DRV.DEPTHBITS` (45_codec_driver.md R203): `MDB <- max(1, bitlen(HEIGHT))`. -/
def drvDepthbits : Op Unit := update fun s => s.setMdb (BitVec.ofNat 8 (max 1 (bitlen s.height)))

/-- `DRV.HDREMIT` (45_codec_driver.md R204). `1 ≤ NALPHA ≤ 256` is the invariant under which `NALPHA − 1` is a byte;
outside it `InternalInvariant` (assumption 13). -/
def drvHdremit : Op Unit := do
  let mdb ← look (·.mdb)
  outAppend 1 mdb.toNat
  raiseIf (fun s => s.alpha.length = 0 ∨ alphaMax < s.alpha.length) .internalInvariant
  let letters ← look (·.alpha)
  outAppend 1 (letters.length - 1)
  forEach letters fun l => symAppend l.sym

/-- `DRV.RECEMIT` (45_codec_driver.md R205): the depth bits, least significant first, then the path bits. -/
def drvRecemit : Op Unit := do
  let mdb ← look (·.mdb)
  let depth ← look (·.piDepth)
  let path ← look (·.piPath)
  countUp mdb.toNat 0 fun i => bswPut (depthBit depth i)
  countUp depth 0 fun i => bswPut (pathBit path i)

/-- `DRV.TRAILEMIT` (45_codec_driver.md R206). -/
def drvTrailemit : Op Unit := do
  let total ← look (·.tbits)
  outAppend 4 total.toNat

/-- The alphabet entries of a header, from entry `k` on, `n` of them: entry `k` at `2 + k * W`, `freq` 0
(45_codec_driver.md R213). -/
def headerLetters (s : State) (k : Nat) : Nat → List Letter
  | 0 => []
  | n + 1 =>
    { sym := BitVec.ofNat 32 (s.inMem.load (2 + k * s.cfg.w) s.cfg.w), freq := 0 } :: headerLetters s (k + 1) n

/-- `DRV.HDRPARSE` (45_codec_driver.md R213). After the second length check every entry lies inside `IN`. -/
def drvHdrparse : Op Unit := do
  raiseIf (fun s => s.inLen.toNat < 2) .truncatedInput
  let mdb ← memRead 0 1
  update (·.setMdb (BitVec.ofNat 8 mdb))
  let size ← memRead 1 1
  update (·.setNsym (BitVec.ofNat 9 (size + 1)))
  raiseIf (fun s => s.inLen.toNat < 2 + s.nsym.toNat * s.cfg.w + 4) .truncatedInput
  update fun s => s.setAlpha (headerLetters s 0 s.nsym.toNat)

/-- `DRV.TRAILREAD` (45_codec_driver.md R214). With `IN_LEN < 4` there is no byte `IN_LEN − 4`, which is a read outside
`IN` (20_memory.md R63). -/
def drvTrailread : Op Unit := do
  raiseIf (fun s => s.inLen.toNat < 4) .internalInvariant
  let place ← look fun s => s.inLen.toNat - 4
  let total ← memRead place 4
  update (·.setRtotal (BitVec.ofNat 32 total))
  raiseIf (fun s => s.inLen.toNat < 2 + s.nsym.toNat * s.cfg.w + ceilDiv8 s.rtotal.toNat + 4) .truncatedInput

/-- The depth loop of `DRV.RECREAD` (45_codec_driver.md R216): `k` bits still to read, the next of them bit `i`, `d`
assembled so far. -/
def readDepth : (k i d : Nat) → Op Nat
  | 0, _, d => pure d
  | k + 1, i, d => do
    let b ← bsrReadbit
    readDepth k (i + 1) (withDepthBit d i b)

/-- One turn of the path loop of `DRV.RECREAD` (45_codec_driver.md R216): `PI_PATH[i] <- BSR.READBIT`, `i` being the
number of bits read so far. -/
def readPathBit : Op Unit := do
  let b ← bsrReadbit
  update fun s => s.setPath s.piDepth (s.piPath ++ [b])

/-- `DRV.RECREAD` (45_codec_driver.md R216). -/
def drvRecread : Op Unit := do
  raiseIf (fun s => s.rtotal.toNat < s.rbits.toNat + s.mdb.toNat) .bitCountMismatch
  let mdb ← look (·.mdb)
  let d ← readDepth mdb.toNat 0 0
  raiseIf (fun s => s.rtotal.toNat < s.rbits.toNat + d) .bitCountMismatch
  update (·.setPath d [])
  repeatOp d readPathBit
  let v ← treeFindvalue
  symAppend v

/-- The meaning of `DRV.DEPTHBITS`. -/
def execDrvDepthbits (s : State) : Host.Outcome State Fault Refusal := opOutcome drvDepthbits s

/-- The meaning of `DRV.HDREMIT`. -/
def execDrvHdremit (s : State) : Host.Outcome State Fault Refusal := opOutcome drvHdremit s

/-- The meaning of `DRV.RECEMIT`. -/
def execDrvRecemit (s : State) : Host.Outcome State Fault Refusal := opOutcome drvRecemit s

/-- The meaning of `DRV.TRAILEMIT`. -/
def execDrvTrailemit (s : State) : Host.Outcome State Fault Refusal := opOutcome drvTrailemit s

/-- The meaning of `DRV.HDRPARSE`. -/
def execDrvHdrparse (s : State) : Host.Outcome State Fault Refusal := opOutcome drvHdrparse s

/-- The meaning of `DRV.TRAILREAD`. -/
def execDrvTrailread (s : State) : Host.Outcome State Fault Refusal := opOutcome drvTrailread s

/-- The meaning of `DRV.RECREAD`. -/
def execDrvRecread (s : State) : Host.Outcome State Fault Refusal := opOutcome drvRecread s

end Sys2Proof.Machine
end

