-- ==== Sys2Proof/Machine/PathTree.lean ====
section
/-! DEFINITION. The Balanced Path Tree (42_path_tree.md). The tree is the arena `NODE`; each measure is a function of it
(10_state.md R23). The recursion is bounded by the number of nodes, which no tree exceeds
(46_arithmetic_and_sequencing.md R236); `none` says that the arena is no tree (assumptions 13 and 19). -/

namespace Sys2Proof.Machine

/-- The recursion of `TREE.COUNT` (42_path_tree.md R153). -/
def countOn (t : List Node) : (fuel : Nat) → Option Nat → Option Nat
  | _, none => some 0
  | 0, some _ => none
  | fuel + 1, some n =>
    match t[n]? with
    | none => none
    | some nd =>
      match countOn t fuel nd.left, countOn t fuel nd.right with
      | some a, some b => some (1 + a + b)
      | _, _ => none

/-- `COUNT(x)` (42_path_tree.md R153). -/
def countOf (t : List Node) (x : Option Nat) : Option Nat := countOn t t.length x

/-- The recursion of `TREE.HEIGHT` (42_path_tree.md R154): 0 without children, else one more than the greatest height of
a child that is present. -/
def heightOn (t : List Node) : (fuel : Nat) → Nat → Option Nat
  | 0, _ => none
  | fuel + 1, n =>
    match t[n]? with
    | none => none
    | some nd =>
      match nd.left, nd.right with
      | none, none => some 0
      | some l, none => (heightOn t fuel l).map (1 + ·)
      | none, some r => (heightOn t fuel r).map (1 + ·)
      | some l, some r =>
        match heightOn t fuel l, heightOn t fuel r with
        | some a, some b => some (1 + max a b)
        | _, _ => none

/-- `HEIGHT(n)` (42_path_tree.md R154). -/
def heightOf (t : List Node) (n : Nat) : Option Nat := heightOn t t.length n

/-- The recursion of `TREE.DEPTH` (42_path_tree.md R155), which follows parent references; the root's is not
followed. -/
def depthOn (t : List Node) : (fuel : Nat) → Nat → Option Nat
  | 0, _ => none
  | fuel + 1, n =>
    match t[n]? with
    | none => none
    | some nd => if n = 0 then some 0 else (depthOn t fuel nd.parent).map (1 + ·)

/-- `DEPTH(n)` (42_path_tree.md R155). -/
def depthOf (t : List Node) (n : Nat) : Option Nat := depthOn t t.length n

/-- The descent of `TREE.INSERT` from node `n` (42_path_tree.md R152): the node that gets the new child, and whether it
is its right child. An empty slot is taken, the left one first; else the descent goes into the child with the smaller
count, left on equal counts. -/
def descend (t : List Node) : (fuel : Nat) → Nat → Option (Nat × Bool)
  | 0, _ => none
  | fuel + 1, n =>
    match t[n]? with
    | none => none
    | some nd =>
      match nd.left, nd.right with
      | none, _ => some (n, false)
      | some _, none => some (n, true)
      | some l, some r =>
        match countOf t (some l), countOf t (some r) with
        | some a, some b => if a ≤ b then descend t fuel l else descend t fuel r
        | _, _ => none

/-- The node with its left or right slot filled. -/
def withChild (nd : Node) (right : Bool) (m : Nat) : Node :=
  if right then { nd with right := some m } else { nd with left := some m }

/-- `Alloc(p, x)` and the link to it (42_path_tree.md R152): the new node takes index `NNODES`; a 257th is not
allocated. -/
def attach (t : List Node) (p : Nat) (right : Bool) (x : Sym) : Option (List Node) :=
  if t.length = nodeMax then none
  else some (t.modify p (withChild · right t.length) ++
    [{ parent := p, val := some x, left := none, right := none }])

/-- The arena after `TREE.INSERT x` (42_path_tree.md R152): "First inserted symbol becomes the root's value"; a later
one gets a new leaf. `none` where the rule raises `InternalInvariant`. -/
def insertNode (t : List Node) (x : Sym) : Option (List Node) :=
  match t[0]? with
  | none => none
  | some root =>
    if root.val = none then some (t.set 0 { root with val := some x })
    else
      match descend t t.length 0 with
      | none => none
      | some (p, right) => attach t p right x

/-- `TREE.INIT` (42_path_tree.md R151). -/
def treeInit : Op Unit := update (·.setNodes [emptyRoot])

/-- `TREE.INSERT x` (42_path_tree.md R152). -/
def treeInsert (x : Sym) : Op Unit := fun s =>
  match insertNode s.nodes x with
  | some t => .ok () (s.setNodes t)
  | none => .error .internalInvariant s

/-- A measure of the arena as an operation: it writes no state. -/
def treeMeasure (f : List Node → Option Nat) : Op Nat := fun s =>
  match f s.nodes with
  | some v => .ok v s
  | none => .error .internalInvariant s

/-- `TREE.COUNT x` (42_path_tree.md R153). -/
def treeCount (x : Option Nat) : Op Nat := treeMeasure (countOf · x)

/-- `TREE.HEIGHT n` (42_path_tree.md R154). -/
def treeHeight (n : Nat) : Op Nat := treeMeasure (heightOf · n)

/-- `TREE.DEPTH n` (42_path_tree.md R155). -/
def treeDepth (n : Nat) : Op Nat := treeMeasure (depthOf · n)

/-- `TREE.INIT`, then `TREE.INSERT` once per letter (10_state.md R40, phases E_TREE and D_TREE). -/
def buildTree : Op Unit := do
  treeInit
  let letters ← look (·.alpha)
  forEach letters fun l => treeInsert l.sym

/-- The meaning of `TREE.INIT`. -/
def execTreeInit (s : State) : Host.Outcome State Fault Refusal := opOutcome treeInit s

/-- The meaning of `TREE.INSERT x`. -/
def execTreeInsert (x : Sym) (s : State) : Host.Outcome State Fault Refusal := opOutcome (treeInsert x) s

/-- The meaning of `TREE.COUNT x`. -/
def execTreeCount (x : Option Nat) (s : State) : Host.Outcome State Fault Refusal := retOutcome (treeCount x) .nat s

/-- The meaning of `TREE.HEIGHT n`. -/
def execTreeHeight (n : Nat) (s : State) : Host.Outcome State Fault Refusal := retOutcome (treeHeight n) .nat s

/-- The meaning of `TREE.DEPTH n`. -/
def execTreeDepth (n : Nat) (s : State) : Host.Outcome State Fault Refusal := retOutcome (treeDepth n) .nat s

end Sys2Proof.Machine
end

