-- ==== Sys2Proof/Machine/RunLength.lean ====
section
/-! DEFINITION. The Run-Length Collapser (40_run_length.md). -/

namespace Sys2Proof.Machine

/-- The runs of the symbols that follow while `cur` is open: "extend the run while the next symbol equals the run's
symbol AND the run's count has not reached 255; otherwise close the run and start a new one" (40_run_length.md R130). -/
def runsFrom (cur : Run) : List Sym → List Run
  | [] => [cur]
  | x :: xs =>
    if x = cur.sym ∧ cur.count.toNat < countCap then runsFrom { cur with count := cur.count + 1 } xs
    else cur :: runsFrom { sym := x, count := 1 } xs

/-- The run sequence of a symbol sequence; none for no symbols (40_run_length.md R131 a). -/
def runsOf : List Sym → List Run
  | [] => []
  | x :: xs => runsFrom { sym := x, count := 1 } xs

/-- `RLE.COLLAPSE` (40_run_length.md R130). -/
def rleCollapse : Op Unit := update fun s => s.setRuns (runsOf s.inSymbols)

/-- The meaning of `RLE.COLLAPSE`. -/
def execRleCollapse (s : State) : Host.Outcome State Fault Refusal := opOutcome rleCollapse s

end Sys2Proof.Machine
end

