-- ==== Sys2Proof/Machine/Commands.lean ====
section
/-! DEFINITION. The host commands ENCODE and DECODE as the sequences of 45_codec_driver.md R201 and R211. -/

namespace Sys2Proof.Machine

/-- Phase E_INIT (45_codec_driver.md R202). -/
def encodeInit : Op Unit := do
  update fun s => s.setOut s.outMem 0
  raiseIf (fun s => s.inLen.toNat = 0) .emptyInput
  raiseIf (fun s => s.inLen.toNat % s.cfg.w ≠ 0) .lengthNotMultiple

/-- Phase E_DEPTHBITS: `HEIGHT <- TREE.HEIGHT 0`, then `DRV.DEPTHBITS` (45_codec_driver.md R201). -/
def encodeDepthbits : Op Unit := do
  let h ← treeHeight 0
  update (·.setHeight h)
  drvDepthbits

/-- The records of one run (45_codec_driver.md R201): the path is searched once per run and written once per
occurrence; a symbol the search does not find raises `InternalInvariant`. -/
def encodeRun (r : Run) : Op Unit := do
  treePathinfo r.sym
  raiseIf (fun s => !s.piFound) .internalInvariant
  repeatOp r.count.toNat drvRecemit

/-- Phase E_RECORDS (45_codec_driver.md R201). -/
def encodeRecords : Op Unit := do
  bswInit
  let runs ← look (·.runs)
  forEach runs encodeRun

/-- The sequence of `ENCODE` (45_codec_driver.md R201). -/
def encodeSequence : Op Unit := do
  enter .eInit
  encodeInit
  enter .eRle
  rleCollapse
  enter .eFold
  alphaFold
  enter .eSort
  alphaSort
  enter .eTree
  buildTree
  enter .eDepthbits
  encodeDepthbits
  enter .eHeader
  drvHdremit
  enter .eRecords
  encodeRecords
  enter .eFlush
  bswFlush
  enter .eTrailer
  drvTrailemit

/-- Phase D_INIT (45_codec_driver.md R212). -/
def decodeInit : Op Unit := update fun s => s.setOut s.outMem 0

/-- Phase D_TRAILER: `DRV.TRAILREAD`, then the depth-width check (45_codec_driver.md R211, R215). -/
def decodeTrailer : Op Unit := do
  drvTrailread
  raiseIf (fun s => s.mdb.toNat = 0) .invalidDepthWidth

/-- Phase D_TREE: the letters `0 .. NSYM - 1` are inserted (45_codec_driver.md R211). `DRV.HDRPARSE` has set
`NALPHA <- NSYM`, so they are the whole table; otherwise `InternalInvariant` (assumption 13). -/
def decodeTree : Op Unit := do
  raiseIf (fun s => s.alpha.length ≠ s.nsym.toNat) .internalInvariant
  buildTree

/-- `while RBITS < RTOTAL: DRV.RECREAD` (45_codec_driver.md R211): "The loop ends after at most `RTOTAL` records", which
bounds the recursion (46_arithmetic_and_sequencing.md R235). -/
def readRecords : (bound : Nat) → Op Unit
  | 0 => raiseIf (fun s => s.rbits.toNat < s.rtotal.toNat) .internalInvariant
  | bound + 1 => fun s =>
    if s.rbits.toNat < s.rtotal.toNat then
      match drvRecread s with
      | .ok _ t => readRecords bound t
      | .error f t => .error f t
    else .ok () s

/-- Phase D_RECORDS (45_codec_driver.md R211). -/
def decodeRecords : Op Unit := do
  let base ← look fun s => BitVec.ofNat 32 (2 + s.nsym.toNat * s.cfg.w)
  bsrInit base
  let total ← look (·.rtotal)
  readRecords total.toNat

/-- The sequence of `DECODE` (45_codec_driver.md R211). It is the one sequence for every content of `IN`: a buffer written in
the alternative encoding "method2", which has no format, meets the same checks and ends as any buffer with its bytes does
(30_encoding.md R93). -/
def decodeSequence : Op Unit := do
  enter .dInit
  decodeInit
  enter .dHeader
  drvHdrparse
  enter .dTrailer
  decodeTrailer
  enter .dTree
  decodeTree
  enter .dRecords
  decodeRecords

/-- The meaning of `ENCODE` (45_codec_driver.md R200): the whole command. -/
def execEncode (s : State) : Host.Outcome State Fault Refusal := commandOutcome encodeSequence s

/-- The meaning of `DECODE` (45_codec_driver.md R210): the whole command. -/
def execDecode (s : State) : Host.Outcome State Fault Refusal := commandOutcome decodeSequence s

end Sys2Proof.Machine
end

