-- ==== Sys2Proof/Machine/Dispatch.lean ====
section
/-! DEFINITION. The one dispatcher: one arm for each constructor of Instr, in the order of spec/opcode_table.json. -/

namespace Sys2Proof.Machine

def exec (i : Instr) (s : State) : Host.Outcome State Fault Refusal :=
  match i with
  | .encode => Sys2Proof.Machine.execEncode s
  | .decode => Sys2Proof.Machine.execDecode s
  | .rleCollapse => Sys2Proof.Machine.execRleCollapse s
  | .alphaFold => Sys2Proof.Machine.execAlphaFold s
  | .alphaSort => Sys2Proof.Machine.execAlphaSort s
  | .treeInit => Sys2Proof.Machine.execTreeInit s
  | .treeInsert x => Sys2Proof.Machine.execTreeInsert x s
  | .treeCount x => Sys2Proof.Machine.execTreeCount x s
  | .treeHeight n => Sys2Proof.Machine.execTreeHeight n s
  | .treeDepth n => Sys2Proof.Machine.execTreeDepth n s
  | .treePathinfo x => Sys2Proof.Machine.execTreePathinfo x s
  | .treeFindvalue => Sys2Proof.Machine.execTreeFindvalue s
  | .bswInit => Sys2Proof.Machine.execBswInit s
  | .bswWritebit b => Sys2Proof.Machine.execBswWritebit b s
  | .bswAdvance => Sys2Proof.Machine.execBswAdvance s
  | .bswFlush => Sys2Proof.Machine.execBswFlush s
  | .bsrInit base => Sys2Proof.Machine.execBsrInit base s
  | .bsrReadbit => Sys2Proof.Machine.execBsrReadbit s
  | .drvDepthbits => Sys2Proof.Machine.execDrvDepthbits s
  | .drvHdremit => Sys2Proof.Machine.execDrvHdremit s
  | .drvRecemit => Sys2Proof.Machine.execDrvRecemit s
  | .drvTrailemit => Sys2Proof.Machine.execDrvTrailemit s
  | .drvHdrparse => Sys2Proof.Machine.execDrvHdrparse s
  | .drvTrailread => Sys2Proof.Machine.execDrvTrailread s
  | .drvRecread => Sys2Proof.Machine.execDrvRecread s

end Sys2Proof.Machine
end

