-- ==== Sys2Proof/Machine/HostPort.lean ====
section
/-! DEFINITION. The host's transactions (10_state.md R44 to R49) and the pseudo-operations of a host script
(30_encoding.md R111, R112). -/

namespace Sys2Proof.Machine

/-- `HostLoad(b)` (10_state.md R45): refused when `b` is longer than `IN_CAP`. -/
def hostLoad (b : List Byte) (s : State) : Host.Outcome State Fault Refusal :=
  if b.length ≤ s.cfg.inCap.toNat then .next (s.setIn (Memory.ofBytes b) (BitVec.ofNat 32 b.length))
  else .refused .loadOverCapacity

/-- `HostCmd(c)` (10_state.md R46): the core decodes `c` and performs the whole command; a value that is no command
raises `IllegalCommand` (30_encoding.md R92, 60_exceptions.md R251). `CMD` holds nothing afterwards (10_state.md R42). -/
def hostCmd (c : Byte) (s : State) : Host.Outcome State Fault Refusal :=
  match decodeCommand c with
  | some i => exec i (s.setCmd none)
  | none => .next (faultEntry .illegalCommand (s.setCmd none))

/-- `HostStatus()` (10_state.md R47): it changes nothing of the block. -/
def hostStatus (s : State) : Host.Outcome State Fault Refusal :=
  .next (s.setReplies (.status (statusState s.status) (statusErrcode s.status) :: s.replies))

/-- `OUT[0..OUT_LEN)` (10_state.md R48). -/
def State.result (s : State) : List Byte := s.outMem.bytes 0 s.outLen

/-- `HostResult()` (10_state.md R48): it changes nothing of the block. -/
def hostResult (s : State) : Host.Outcome State Fault Refusal :=
  .next (s.setReplies (.result s.result :: s.replies))

/-- The state after the event `Reset()` (10_state.md R50, 70_reset_and_hazards.md R280). The parameters stay, and so do
the host's script and what it has been told, which are not the block's (assumption 17). -/
def State.afterReset (s : State) : State :=
  ({ State.reset with cfg := s.cfg }.setScript s.script).setReplies s.replies

/-- `Reset()` (10_state.md R49). -/
def hostReset (s : State) : Host.Outcome State Fault Refusal := .next s.afterReset

/-- The byte sequence the last `RESULT` returned. -/
def lastResult : List Reply → Option (List Byte)
  | [] => none
  | .result b :: _ => some b
  | .status _ _ :: rest => lastResult rest

/-- `LOADRESULT` (30_encoding.md R112 d). -/
def hostLoadResult (s : State) : Host.Outcome State Fault Refusal :=
  match lastResult s.replies with
  | some b => hostLoad b s
  | none => .refused .noResultToLoad

/-- An operation of XKC-OPS performed on its own (assumption 15): decoded, its operands checked, then run. -/
def performWord (w : OpWord) (s : State) : Host.Outcome State Fault Refusal :=
  match decodeWord w with
  | .error c => .refused (.noSuchOperation c)
  | .ok i => if i.wf s.cfg then exec i s else .refused .operandTooWide

/-- One line of the script. -/
def performLine (l : Line) (s : State) : Host.Outcome State Fault Refusal :=
  match l with
  | .load b => hostLoad b s
  | .cmd c => hostCmd c s
  | .status => hostStatus s
  | .result => hostResult s
  | .reset => hostReset s
  | .loadResult => hostLoadResult s
  | .op w => performWord w s

/-- The pseudo-operation `encode(buffer)` (30_encoding.md R112 a). -/
def encodeScript (buffer : List Byte) : List Line := [.load buffer, .cmd 0x01, .result]

/-- The pseudo-operation `encode(buffer, length)`: `buffer[0..length)` is loaded (30_encoding.md R112 a). For a `length`
above `len(buffer)` the spec gives no effect and says the transaction cannot express it (45_codec_driver.md R223); that the
whole buffer is then loaded is the model's: DESIGN CHOICE, unsafe (assumption 26). -/
def encodeScriptLength (buffer : List Byte) (length : Nat) : List Line := encodeScript (buffer.take length)

/-- The pseudo-operation `decode(buffer)` (30_encoding.md R112 b). -/
def decodeScript (buffer : List Byte) : List Line := [.load buffer, .cmd 0x02, .result]

/-- The pseudo-operation `decode(buffer, length)`: `buffer[0..length)` is loaded (30_encoding.md R112 b). For a `length`
above `len(buffer)` the spec gives no effect and says the transaction cannot express it (45_codec_driver.md R223); that the
whole buffer is then loaded is the model's: DESIGN CHOICE, unsafe (assumption 26). -/
def decodeScriptLength (buffer : List Byte) (length : Nat) : List Line := decodeScript (buffer.take length)

/-- The pseudo-operation `BSW.PUT b` as lines (30_encoding.md R112 c). -/
def putScript (b : Bool) : List Line := [.op (encode (.bswWritebit b)), .op (encode .bswAdvance)]

end Sys2Proof.Machine
end

