-- ==== Sys2Proof/Machine/Sequencer.lean ====
section
/-! DEFINITION. The sequencer phase by phase (10_state.md R40): the small-step machine beside the commands of
Machine/Commands.lean, which perform all their phases in one step. -/

namespace Sys2Proof.Machine

/-- The operations performed in a phase (10_state.md R40). -/
def phaseBody : Phase → Op Unit
  | .idle => pure ()
  | .eInit => encodeInit
  | .eRle => rleCollapse
  | .eFold => alphaFold
  | .eSort => alphaSort
  | .eTree => buildTree
  | .eDepthbits => encodeDepthbits
  | .eHeader => drvHdremit
  | .eRecords => encodeRecords
  | .eFlush => bswFlush
  | .eTrailer => drvTrailemit
  | .dInit => decodeInit
  | .dHeader => drvHdrparse
  | .dTrailer => decodeTrailer
  | .dTree => decodeTree
  | .dRecords => decodeRecords

/-- The phase that follows; after the last phase of a command comes IDLE (10_state.md R40). -/
def Phase.succ : Phase → Phase
  | .idle => .idle
  | .eInit => .eRle
  | .eRle => .eFold
  | .eFold => .eSort
  | .eSort => .eTree
  | .eTree => .eDepthbits
  | .eDepthbits => .eHeader
  | .eHeader => .eRecords
  | .eRecords => .eFlush
  | .eFlush => .eTrailer
  | .eTrailer => .idle
  | .dInit => .dHeader
  | .dHeader => .dTrailer
  | .dTrailer => .dTree
  | .dTree => .dRecords
  | .dRecords => .idle

/-- One phase of a running command: its operations, then the next phase; at the end of the last phase the end of the
command; on a fault the fault entry (10_state.md R40, 60_exceptions.md R250). -/
def phaseStep (s : State) : State :=
  match phaseBody s.phase s with
  | .error f t => faultEntry f t
  | .ok _ t => if s.phase.succ = .idle then commandDone t else t.setPhase s.phase.succ

end Sys2Proof.Machine
end

