-- ==== Sys2Proof/Machine/Step.lean ====
section
/-! DEFINITION. One step of the machine, and the placing of an operation where the step finds it. -/

namespace Sys2Proof.Machine

/-- One step. A block whose `PHASE` is not IDLE is inside a command and performs that phase (10_state.md R40,
assumption 14). An idle block takes the command `CMD` holds, else the next line of the script; with neither it waits:
"after reset the block is idle and waits for a host transaction" (70_reset_and_hazards.md R281, assumption 18). -/
def step (s : State) : Host.Outcome State Fault Refusal :=
  if s.phase = .idle then
    match s.cmd with
    | some c => hostCmd c s
    | none =>
      match s.script with
      | [] => .next s
      | l :: rest => performLine l (s.setScript rest)
  else .next (phaseStep s)

/-- `s` with the operation of bits `w` placed where the next step takes it (assumption 3): a command's word in `CMD`
(10_state.md R42), a micro-operation's code, its operand lines zero, as the next line of the script. -/
def State.withFetchWord (s : State) (nbits w : Nat) : State :=
  let c := BitVec.ofNat 8 (w % 2 ^ nbits)
  match decodeCommand c with
  | some _ => (s.setPhase .idle).setCmd (some c)
  | none => ((s.setPhase .idle).setCmd none).setScript (.op (OpWord.ofCode c) :: s.script)

end Sys2Proof.Machine
end

