-- ==== Sys2Proof/Safety.lean ====
section
/-! DEFINITION. The words the claims use: the invariants of 10_state.md, and the closed forms of the wire format and of
the tree, written from the rules that state them and not from the meanings. -/

namespace Sys2Proof.Machine

/-! ### Running operations one after the other -/

/-- Operations performed one after the other, as in Programs 4 and 5 of 95_test_vectors.md. -/
def runOps : List Instr → State → Host.Outcome State Fault Refusal
  | [], s => .next s
  | i :: is, s =>
    match exec i s with
    | .next t => runOps is t
    | .fault r => .fault r
    | .refused r => .refused r

/-- `BSW.PUT b` for each bit in turn (44_bitstream.md R185). -/
def putOps (bits : List Bool) : List Instr := bits.flatMap fun b => [.bswWritebit b, .bswAdvance]

/-- `BSR.READBIT` so many times: the bits returned, in order, and the state after them. -/
def readOps : Nat → State → Option (List Bool × State)
  | 0, s => some ([], s)
  | n + 1, s =>
    match exec .bsrReadbit s with
    | .next t =>
      match t.ret with
      | .bit b => (readOps n t).map fun p => (b :: p.1, p.2)
      | _ => none
    | _ => none

/-- The operation ends with the fault `f`: its code in `STATUS`, an empty result, `IN` and `IN_LEN` as they were
(60_exceptions.md R250). -/
abbrev EndsWithFault (i : Instr) (s : State) (f : FaultCode) : Prop :=
  ∃ t, exec i s = .next t ∧ t.status = statusErr f ∧ t.result = [] ∧ t.inMem = s.inMem ∧ t.inLen = s.inLen

/-- The step is `HostLoad(b)`, the lines `rest` being left: with `len(b) ≤ IN_CAP` the bytes of `IN` become `b`, `IN_LEN`
its length, and nothing else changes; otherwise the transaction is refused (10_state.md R45). -/
abbrev StepLoads (s : State) (rest : List Line) (b : List Byte) : Prop :=
  (b.length ≤ s.cfg.inCap.toNat →
    ∃ m : Memory, step s = .next ((s.setScript rest).setIn m (BitVec.ofNat 32 b.length)) ∧
      (BitVec.ofNat 32 b.length).toNat = b.length ∧ m.bytes 0 b.length = b ∧ m.wf = true) ∧
  (s.cfg.inCap.toNat < b.length → step s = .refused .loadOverCapacity)

/-! ### Invariants -/

/-- Both address spaces are in canonical form. -/
abbrev MemoryCanonical (s : State) : Prop := s.inMem.wf = true ∧ s.outMem.wf = true

/-- `n` entries fit the run table (10_state.md R24). -/
def runFits (c : Config) (n : Nat) : Bool :=
  match c.runCap with
  | none => true
  | some cap => decide (n ≤ cap)

/-- The parameters are ones 00_scope.md R8 admits and the contents keep to them (10_state.md R21, R22, R24). -/
abbrev WithinCapacities (s : State) : Prop :=
  s.cfg.wf = true ∧ s.inLen.toNat ≤ s.cfg.inCap.toNat ∧ s.cfg.outFits s.outLen = true ∧
    runFits s.cfg s.runs.length = true

/-- The entries of the tables have the widths of 10_state.md R24, R26 and R28, every run has a count of at least 1
(R24), and the alphabet has at most 256 letters (R26). -/
abbrev TablesFit (s : State) : Prop :=
  (∀ r ∈ s.runs, r.sym.fits s.cfg = true ∧ 1 ≤ r.count.toNat) ∧ s.alpha.length ≤ alphaMax ∧
    (∀ l ∈ s.alpha, l.sym.fits s.cfg = true) ∧ ∀ n ∈ s.nodes, n.val.all (·.fits s.cfg) = true

/-- A child slot of node `n` is empty or holds a later node whose parent is `n` (10_state.md R29, R30 b). -/
def childOk (t : List Node) (n : Nat) (c : Option Nat) : Bool :=
  match c with
  | none => true
  | some c => decide (n < c) && ((t[c]?).map (·.parent) == some n)

/-- Node `p` has `n` in a slot. -/
def hasChild (t : List Node) (p n : Nat) : Bool :=
  match t[p]? with
  | none => false
  | some nd => nd.left == some n || nd.right == some n

/-- Node `n` obeys the tree invariants of 10_state.md R28 and R30 a, b, d. -/
def nodeOk (t : List Node) (n : Nat) (nd : Node) : Bool :=
  (nd.left.isSome || nd.right.isNone) && childOk t n nd.left && childOk t n nd.right &&
    (nd.left.isNone || nd.left != nd.right) &&
    (if n = 0 then nd.parent == 0 else hasChild t nd.parent n) && (nd.val.isSome || t.length == 1)

/-- The arena is a tree (10_state.md R28, R30 a, b, d). -/
abbrev TreeOk (t : List Node) : Prop :=
  0 < t.length ∧ t.length ≤ nodeMax ∧ ∀ n, (h : n < t.length) → nodeOk t n t[n] = true

/-- At every node the left subtree has as many nodes as the right one or one more, an empty slot counting 0. At a node
with two children this is 10_state.md R30 c and 42_path_tree.md R158; that a node with a left child only has a leaf there
follows from the order of 42_path_tree.md R152 and is what makes the property survive the next insert. -/
abbrev TreeBalanced (t : List Node) : Prop :=
  ∀ nd ∈ t, (countOf t nd.left).getD 0 = (countOf t nd.right).getD 0 ∨
    (countOf t nd.left).getD 0 = (countOf t nd.right).getD 0 + 1

/-- The reader's count of bits agrees with its place (10_state.md R38). -/
abbrev ReaderPlaced (s : State) : Prop := s.rbits.toNat = 8 * s.ridx.toNat + s.rcur.toNat

/-- No bit of the working byte above the cursor is set (10_state.md R36, 44_bitstream.md R184). The bit at the cursor
may be, between a `BSW.WRITEBIT` and its `BSW.ADVANCE`. -/
abbrev WriterClean (s : State) : Prop := ∀ j < 8, s.wcur.toNat < j → s.wbyte.getLsbD j = false

/-- `STATUS` holds what 10_state.md R43 allows: no reserved state, reserved bits 0, an error code exactly with
DONE_ERR. -/
abbrev StatusLegal (s : State) : Prop :=
  statusReserved s.status = 0 ∧ statusState s.status ≠ 3 ∧
    (statusState s.status ≠ stateDoneErr → statusErrcode s.status = 0) ∧
    (statusState s.status = stateDoneErr → 1 ≤ (statusErrcode s.status).toNat ∧
      (statusErrcode s.status).toNat ≤ 0x0B)

/-- No command is running or waiting (10_state.md R40, R42). -/
abbrev AtRest (s : State) : Prop := s.phase = .idle ∧ s.cmd = none

/-! ### The tree as the rules describe it -/

/-- The node a path leads to from node `n`: 0 is left, 1 is right (10_state.md R33). -/
def follow (t : List Node) : Nat → List Bool → Option Nat
  | n, [] => some n
  | n, b :: bs =>
    match t[n]? with
    | none => none
    | some nd =>
      match (if b then nd.right else nd.left) with
      | none => none
      | some c => follow t c bs

/-- Path `p` is met no later than path `q` in the order of the search of 43_path_codec.md R170: a node, then its left
subtree, then its right one. -/
def noLater : List Bool → List Bool → Bool
  | [], _ => true
  | _ :: _, [] => false
  | b :: p, c :: q => if b = c then noLater p q else !b

/-- Every two nodes hold different symbols (43_path_codec.md R173). -/
abbrev DistinctSymbols (t : List Node) : Prop := (t.filterMap (·.val)).Nodup

/-- Where `TREE.INSERT` puts a new leaf (42_path_tree.md R152): the first empty slot, the left one before the right one;
with both filled, down into the child whose count is smaller, left on equal counts. -/
inductive Descends (t : List Node) : Nat → Nat → Bool → Prop
  | leftEmpty (n : Nat) (nd : Node) (h : t[n]? = some nd) (hl : nd.left = none) : Descends t n n false
  | rightEmpty (n : Nat) (nd : Node) (h : t[n]? = some nd) (hl : nd.left ≠ none) (hr : nd.right = none) :
      Descends t n n true
  | goLeft (n : Nat) (nd : Node) (l r a b : Nat) (h : t[n]? = some nd) (hl : nd.left = some l)
      (hr : nd.right = some r) (ha : countOf t (some l) = some a) (hb : countOf t (some r) = some b) (hab : a ≤ b)
      (p : Nat) (right : Bool) (hp : Descends t l p right) : Descends t n p right
  | goRight (n : Nat) (nd : Node) (l r a b : Nat) (h : t[n]? = some nd) (hl : nd.left = some l)
      (hr : nd.right = some r) (ha : countOf t (some l) = some a) (hb : countOf t (some r) = some b) (hab : b < a)
      (p : Nat) (right : Bool) (hp : Descends t r p right) : Descends t n p right

/-- The depth of the symbol inserted `k`-th: `floor(log2(k+1))` (42_path_tree.md R156). -/
def rankDepth (k : Nat) : Nat := Nat.log2 (k + 1)

/-- The path of the symbol inserted `k`-th: the binary digits of `k + 1 − 2^d`, least significant first
(42_path_tree.md R156). -/
def rankPath (k : Nat) : List Bool := (List.range (rankDepth k)).map fun i => (k + 1 - 2 ^ rankDepth k).testBit i

/-! ### The wire format as the rules describe it -/

/-- The `n`-byte little-endian image of `v` (20_memory.md R65, R68). -/
def leBytes (n v : Nat) : List Byte := (List.range n).map fun k => BitVec.ofNat 8 (v / 256 ^ k)

/-- The integer of the `n` bytes from index `a` on: `sum over k in [0,n) of m[a+k] * 256^k` (20_memory.md R63). -/
def leValue (m : Memory) (a n : Nat) : Nat := ∑ k ∈ Finset.range n, (m.read (a + k)).toNat * 256 ^ k

/-- A depth field of `mdb` bits: bit `i` of the field is bit `i` of the depth (30_encoding.md R106). -/
def depthField (mdb d : Nat) : List Bool := (List.range mdb).map fun i => d.testBit i

/-- The first `d` bits of a path register (10_state.md R33). -/
def pathField (p : List Bool) (d : Nat) : List Bool := (List.range d).map fun i => p.getD i false

/-- The record of the letter of rank `k` (30_encoding.md R106, R108). -/
def rankRecord (mdb k : Nat) : List Bool := depthField mdb (rankDepth k) ++ rankPath k

/-- The number whose bits, least significant first, are the given ones. -/
def bitsToNat : List Bool → Nat
  | [] => 0
  | b :: bs => b.toNat + 2 * bitsToNat bs

/-- Bits packed into bytes, the first-written bit least significant, padding bits 0 (20_memory.md R69, 30_encoding.md
R99, 44_bitstream.md R184). -/
def packBits (bits : List Bool) : List Byte :=
  (List.range (ceilDiv8 bits.length)).map fun j => BitVec.ofNat 8 (bitsToNat ((bits.drop (8 * j)).take 8))

/-- Bit `j` of the bit stream whose first byte is at `base`: bit `j mod 8` of stream byte `floor(j / 8)`
(20_memory.md R69). -/
def streamBit (m : Memory) (base j : Nat) : Bool := (m.read (base + j / 8)).getLsbD (j % 8)

/-- `n` bits of the bit stream from bit `j` on. -/
def streamBits (m : Memory) (base j n : Nat) : List Bool := (List.range n).map fun i => streamBit m base (j + i)

/-- The order of the alphabet of a symbol sequence (41_alphabet.md R143): each distinct symbol once, by descending number
of occurrences, equal numbers in the order of first occurrence. -/
def IsAlphabet (xs a : List Sym) : Prop :=
  a.Perm xs.eraseDups ∧
    a.Pairwise fun x y => xs.count y < xs.count x ∨ (xs.count x = xs.count y ∧ xs.idxOf x < xs.idxOf y)

/-- `max_depth_bits` of an alphabet of `n` letters: `max(1, bitlen(floor(log2(n))))` (45_codec_driver.md R207). -/
def depthWidth (n : Nat) : Nat := max 1 (bitlen (Nat.log2 n))

/-- The bit string of a symbol sequence: one record per occurrence, in input order (45_codec_driver.md R207). -/
def streamOf (a xs : List Sym) : List Bool := xs.flatMap fun x => rankRecord (depthWidth a.length) (a.idxOf x)

/-- The encoded buffer of the symbols `xs` with the alphabet order `a` at width `w` (45_codec_driver.md R207). -/
def encodedBuffer (w : Nat) (a xs : List Sym) : List Byte :=
  [BitVec.ofNat 8 (depthWidth a.length), BitVec.ofNat 8 (a.length - 1)] ++ a.flatMap (fun x => leBytes w x.toNat) ++
    packBits (streamOf a xs) ++ leBytes 4 (streamOf a xs).length

/-- `ENCODE` or `DECODE`, the host's commands (30_encoding.md R90). -/
abbrev IsCommand (i : Instr) : Prop := i = .encode ∨ i = .decode

end Sys2Proof.Machine
end

