-- ==== Sys2Proof/Certificates/Slice0/Obligations.lean ====
section
/-! DEFINITION. The statements for the provers. Each docstring names the rules of spec/ it comes from; where a clause is
the model's own choice, it names the log entry. -/

open Sys2Proof Sys2Proof.Machine

/-! ### The step, the words and the host's transactions -/

/-- When the next line gives an operation whose word decodes to a well-formed operation, the step is that operation's
meaning, the line taken off the script (30_encoding.md R91; the script is the model's, log entries 3 and 15). -/
def Obligations.StepRunsTheDecodedOperation : Prop :=
  ∀ (s : State) (w : OpWord) (i : Instr) (rest : List Line),
    s.phase = .idle → s.cmd = none → s.script = .op w :: rest → decodeWord w = .ok i → i.wf s.cfg = true →
      step s = exec i (s.setScript rest)

/-- `HostCmd(c)` decodes `c` and performs the whole command: ENCODE for 0x01, DECODE for 0x02, the illegal-command fault
for every other word; a word that stands in `CMD` is performed the same way and `CMD` holds nothing afterwards
(10_state.md R42, R46, 30_encoding.md R90, R92, 60_exceptions.md R251; that a word can stand in `CMD` before a step is
the model's, log entries 3 and 22). -/
def Obligations.HostCmdPerformsTheWholeCommand : Prop :=
  ∀ (s : State) (c : Byte), s.phase = .idle →
    (∀ rest : List Line, s.cmd = none → s.script = .cmd c :: rest →
      (c = 0x01 → step s = exec .encode (s.setScript rest)) ∧
      (c = 0x02 → step s = exec .decode (s.setScript rest)) ∧
      (c ≠ 0x01 → c ≠ 0x02 → step s = .next (faultEntry .illegalCommand (s.setScript rest)))) ∧
    (s.cmd = some c →
      (c = 0x01 → step s = exec .encode (s.setCmd none)) ∧
      (c = 0x02 → step s = exec .decode (s.setCmd none)) ∧
      (c ≠ 0x01 → c ≠ 0x02 → step s = .next (faultEntry .illegalCommand (s.setCmd none))))

/-- Decoding the word of an operation gives the operation, with every operand at every value (30_encoding.md R91; the
operand lines are the model's, log entry 4). -/
def Obligations.DecodingTheWordOfAnOperationGivesIt : Prop := ∀ i : Instr, decodeWord (encode i) = .ok i

/-- Words written out from the table of 30_encoding.md R91 decode to the operations they stand for. -/
def Obligations.WordsOfTheTableDecode : Prop :=
  decodeTableWord 8 0b00000001 = some .encode ∧ decodeTableWord 8 0b00000010 = some .decode ∧
  decodeTableWord 8 0b00010000 = some .rleCollapse ∧ decodeTableWord 8 0b00011001 = some .alphaSort ∧
  decodeTableWord 8 0b00100001 = some (.treeInsert 0) ∧ decodeTableWord 8 0b00101001 = some .treeFindvalue ∧
  decodeTableWord 8 0b00110001 = some (.bswWritebit false) ∧ decodeTableWord 8 0b00111001 = some .bsrReadbit ∧
  decodeTableWord 8 0b01001010 = some .drvRecread ∧ decodeTableWord 8 0b00000000 = none ∧
  decodeCommand 0x10 = none

/-- `HostLoad(b)`: with `len(b) ≤ IN_CAP` the bytes of `IN` become `b`, `IN_LEN` its length, and nothing else changes;
otherwise the transaction is refused (10_state.md R45). The line `LOADRESULT` is the load of the byte sequence the last
`RESULT` returned (30_encoding.md R112 d); that replies are kept, newest first, and that a `LOADRESULT` before any `RESULT`
is refused is the model's (log entries 6 and 16). -/
def Obligations.HostLoadReplacesInAndItsLength : Prop :=
  ∀ (s : State) (rest : List Line), s.phase = .idle → s.cmd = none →
    (∀ b : List Byte, s.script = .load b :: rest → StepLoads s rest b) ∧
    (s.script = .loadResult :: rest →
      (∀ (newer older : List Reply) (b : List Byte), s.replies = newer ++ .result b :: older →
        (∀ r ∈ newer, ∀ c, r ≠ .result c) → StepLoads s rest b) ∧
      ((∀ r ∈ s.replies, ∀ c, r ≠ .result c) → step s = .refused .noResultToLoad))

/-- `HostStatus()` returns `(STATUS.STATE, STATUS.ERRCODE)`, `HostResult()` returns the bytes `OUT[0..OUT_LEN)`; both
change nothing of the block (10_state.md R47, R48; where the replies are kept is the model's, log entry 6). -/
def Obligations.StatusAndResultAreReadOut : Prop :=
  ∀ (s : State) (rest : List Line), s.phase = .idle → s.cmd = none →
    (s.script = .status :: rest →
      step s = .next ((s.setScript rest).setReplies
        (.status (statusState s.status) (statusErrcode s.status) :: s.replies))) ∧
    (s.script = .result :: rest →
      ∃ b : List Byte, step s = .next ((s.setScript rest).setReplies (.result b :: s.replies)) ∧
        b.length = s.outLen ∧ ∀ i < s.outLen, b[i]? = some (s.outMem.read i))

/-- `Reset()` empties both buffers, clears `STATUS`, `CMD` and `PHASE` (10_state.md R50, 70_reset_and_hazards.md R280)
and keeps the elaboration parameters (00_scope.md R6, R19); right after it, before any load, ENCODE ends with
`EmptyInput` and DECODE with `TruncatedInput` (70_reset_and_hazards.md R283). That the host's script and replies stay is
the model's (log entry 17). -/
def Obligations.ResetEmptiesTheBlock : Prop :=
  ∀ (s : State) (rest : List Line), s.phase = .idle → s.cmd = none → s.script = .reset :: rest →
    ∃ t, step s = .next t ∧ t.inMem = [] ∧ t.inLen = 0 ∧ t.outMem = [] ∧ t.outLen = 0 ∧ t.status = 0x0000 ∧
      t.cmd = none ∧ t.phase = .idle ∧ t.cfg = s.cfg ∧ t.script = rest ∧ t.replies = s.replies ∧
      (∃ u, exec .encode t = .next u ∧ u.status = 0x0402 ∧ u.outLen = 0) ∧
      ∃ u, exec .decode t = .next u ∧ u.status = 0x0102 ∧ u.outLen = 0

/-- An idle block with no transaction before it waits (70_reset_and_hazards.md R281; that waiting is a step that changes
nothing is the model's, log entry 18). -/
def Obligations.IdleBlockWaits : Prop :=
  ∀ s : State, s.phase = .idle → s.cmd = none → s.script = [] → step s = .next s

/-- Fault entry: `OUT_LEN` 0, `STATE` DONE_ERR, `ERRCODE` the fault's code, `PHASE` IDLE, and nothing else; the result is
then the empty sequence (60_exceptions.md R250). The codes are those of the table of 60_exceptions.md R240. -/
def Obligations.FaultEntryDoesExactlyThis : Prop :=
  (∀ (f : FaultCode) (s : State),
    faultEntry f s = { s with outLen := 0, status := (faultEntry f s).status, phase := .idle } ∧
      statusState (faultEntry f s).status = 2 ∧ statusErrcode (faultEntry f s).status = f.code ∧
      statusReserved (faultEntry f s).status = 0 ∧ (faultEntry f s).result = []) ∧
  FaultCode.truncatedInput.code = 0x01 ∧ FaultCode.invalidAlphabetSize.code = 0x02 ∧
  FaultCode.treeLookupFailure.code = 0x03 ∧ FaultCode.emptyInput.code = 0x04 ∧
  FaultCode.lengthNotMultiple.code = 0x05 ∧ FaultCode.bitCountOverflow.code = 0x06 ∧
  FaultCode.bitCountMismatch.code = 0x07 ∧ FaultCode.invalidDepthWidth.code = 0x08 ∧
  FaultCode.outputOverflow.code = 0x09 ∧ FaultCode.illegalCommand.code = 0x0A ∧
  FaultCode.internalInvariant.code = 0x0B

/-! ### Memory and symbols -/

/-- `MemRead(IN, a, n)` is the little-endian integer of the `n` bytes when they lie inside `IN`, raises
`InternalInvariant` otherwise, and changes nothing (20_memory.md R63). -/
def Obligations.MemReadIsLittleEndianInsideIn : Prop :=
  ∀ (s : State) (a n : Nat),
    (a + n ≤ s.inLen.toNat → memRead a n s = .ok (leValue s.inMem a n) s) ∧
      (s.inLen.toNat < a + n → memRead a n s = .error .internalInvariant s)

/-- `OutAppend(n, v)` stores the little-endian image of `v` at `OUT_LEN .. OUT_LEN + n - 1`, moves `OUT_LEN` behind it,
and leaves every other byte alone; without room it raises `OutputOverflow` (20_memory.md R65). -/
def Obligations.OutAppendStoresLittleEndian : Prop :=
  ∀ (s : State) (n v : Nat),
    (s.cfg.outFits (s.outLen + n) = true →
      ∃ m : Memory, outAppend n v s = .ok () (s.setOut m (s.outLen + n)) ∧
        (s.outMem.wf = true → ∀ k < n, m.read (s.outLen + k) = BitVec.ofNat 8 (v >>> (8 * k))) ∧
        ∀ a, a < s.outLen ∨ s.outLen + n ≤ a → m.read a = s.outMem.read a) ∧
      (s.cfg.outFits (s.outLen + n) = false → outAppend n v s = .error .outputOverflow s)

/-- The symbols of the raw buffer: `IN_LEN / W` of them, symbol `i` the little-endian integer at `i * W`, below
`2^(8W)` (20_memory.md R64, R68, 30_encoding.md R105). -/
def Obligations.RawBufferSymbolsAreLittleEndian : Prop :=
  ∀ s : State, s.inSymbols.length = s.inLen.toNat / s.cfg.w ∧
    ∀ i < s.inSymbols.length, ∃ x : Sym, s.inSymbols[i]? = some x ∧ x.toNat = leValue s.inMem (i * s.cfg.w) s.cfg.w ∧
      x.toNat < 2 ^ (8 * s.cfg.w)

/-! ### Run-Length Collapser and Alphabet Builder -/

/-- `RLE.COLLAPSE` writes `RUNS` and nothing else: the runs spell the input symbols, every count is in [1,255], and two
neighbouring runs of one symbol occur only where the first has count 255 (10_state.md R25, 40_run_length.md R130). -/
def Obligations.RleCollapseMakesMinimalRuns : Prop :=
  ∀ s : State, ∃ r : List Run, exec .rleCollapse s = .next (s.setRuns r) ∧
    (r.flatMap fun x => List.replicate x.count.toNat x.sym) = s.inSymbols ∧
    (∀ x ∈ r, 1 ≤ x.count.toNat ∧ x.count.toNat ≤ 255) ∧
    ∀ i a b, r[i]? = some a → r[i + 1]? = some b → a.sym = b.sym → a.count.toNat = 255

/-- An input of `m` equal symbols gives `floor(m / 255)` runs of 255 and, when `m mod 255 ≠ 0`, one of `m mod 255`
(40_run_length.md R131 b). -/
def Obligations.EqualSymbolsSplitAtTheCountCap : Prop :=
  ∀ (s : State) (m : Nat) (x : Sym), s.inSymbols = List.replicate m x →
    exec .rleCollapse s = .next (s.setRuns (List.replicate (m / 255) { sym := x, count := 255 } ++
      if m % 255 = 0 then [] else [{ sym := x, count := BitVec.ofNat 8 (m % 255) }]))

/-- `ALPHA.FOLD` with at most 256 distinct symbols writes `ALPHA` and nothing else: one letter per distinct symbol in
order of first occurrence, its frequency the sum of the counts of its runs; with more it raises `InvalidAlphabetSize`
(41_alphabet.md R141, 60_exceptions.md R242). -/
def Obligations.AlphaFoldSumsTheCounts : Prop :=
  ∀ s : State,
    ((s.runs.map (·.sym)).eraseDups.length ≤ 256 →
      ∃ a : List Letter, exec .alphaFold s = .next (s.setAlpha a) ∧
        a.map (·.sym) = (s.runs.map (·.sym)).eraseDups ∧
        ∀ l ∈ a, l.freq = ((s.runs.filter fun r => r.sym = l.sym).map fun r => r.count.toNat).sum) ∧
    (256 < (s.runs.map (·.sym)).eraseDups.length →
      ∃ a : List Letter, exec .alphaFold s = .next (faultEntry .invalidAlphabetSize (s.setAlpha a)))

/-- `ALPHA.SORT` writes `ALPHA` and nothing else: the same letters, by non-increasing frequency, letters of equal
frequency in the order they had (41_alphabet.md R142, 90_conflicts.md C1). -/
def Obligations.AlphaSortIsStableAndDescending : Prop :=
  ∀ s : State, ∃ a : List Letter, exec .alphaSort s = .next (s.setAlpha a) ∧ a.Perm s.alpha ∧
    a.Pairwise (fun x y => y.freq ≤ x.freq) ∧
    ∀ f : Nat, (a.filter fun l => l.freq = f) = s.alpha.filter fun l => l.freq = f

/-! ### Balanced Path Tree -/

/-- `TREE.INIT` leaves one empty root and changes nothing else; the first `TREE.INSERT` then gives the root its value and
changes nothing else (42_path_tree.md R151, R152). -/
def Obligations.InitAndFirstInsertFillTheRoot : Prop :=
  ∀ s : State, exec .treeInit s = .next (s.setNodes [{ parent := 0, val := none, left := none, right := none }]) ∧
    ∀ (x : Sym) (root : Node) (rest : List Node), s.nodes = root :: rest → root.val = none →
      exec (.treeInsert x) s = .next (s.setNodes ({ root with val := some x } :: rest))

/-- A later `TREE.INSERT` adds node `NNODES` below the node the descent of 42_path_tree.md R152 leads to, in the slot it
leads to, and changes nothing else; with 256 nodes it raises `InternalInvariant` (10_state.md R32). -/
def Obligations.LaterInsertAddsALeafWhereItDescends : Prop :=
  ∀ (s : State) (x : Sym), TreeOk s.nodes → (∀ root, s.nodes[0]? = some root → root.val ≠ none) →
    (s.nodes.length < 256 →
      ∃ (p : Nat) (right : Bool) (t : List Node), Descends s.nodes 0 p right ∧
        exec (.treeInsert x) s = .next (s.setNodes t) ∧ t.length = s.nodes.length + 1 ∧
        t[s.nodes.length]? = some { parent := p, val := some x, left := none, right := none } ∧
        (∀ nd, s.nodes[p]? = some nd → t[p]? = some (if right then { nd with right := some s.nodes.length }
          else { nd with left := some s.nodes.length })) ∧
        ∀ n < s.nodes.length, n ≠ p → t[n]? = s.nodes[n]?) ∧
    (s.nodes.length = 256 → exec (.treeInsert x) s = .next (faultEntry .internalInvariant s))

/-- `TREE.COUNT`: 0 for `none`; for a node one more than the counts of its two slots. It changes no state of the block
(42_path_tree.md R153; the result field is the model's, log entry 5). -/
def Obligations.TreeCountCountsTheSubtree : Prop :=
  ∀ s : State, exec (.treeCount none) s = .next (s.setRet (.nat 0)) ∧
    ∀ (n : Nat) (nd : Node), TreeOk s.nodes → s.nodes[n]? = some nd →
      ∃ a b : Nat, exec (.treeCount nd.left) s = .next (s.setRet (.nat a)) ∧
        exec (.treeCount nd.right) s = .next (s.setRet (.nat b)) ∧
        exec (.treeCount (some n)) s = .next (s.setRet (.nat (1 + a + b)))

/-- `TREE.HEIGHT`: 0 for a leaf, else one more than the greatest height of a child that is present. It changes no state
of the block (42_path_tree.md R154; the result field is the model's, log entry 5). -/
def Obligations.TreeHeightIsTheLongestWayDown : Prop :=
  ∀ (s : State) (n : Nat) (nd : Node), TreeOk s.nodes → s.nodes[n]? = some nd →
    ∃ h : Nat, exec (.treeHeight n) s = .next (s.setRet (.nat h)) ∧
      (nd.left = none → h = 0) ∧
      (∀ l, nd.left = some l → nd.right = none →
        ∃ a, exec (.treeHeight l) s = .next (s.setRet (.nat a)) ∧ h = 1 + a) ∧
      ∀ l r, nd.left = some l → nd.right = some r →
        ∃ a b, exec (.treeHeight l) s = .next (s.setRet (.nat a)) ∧
          exec (.treeHeight r) s = .next (s.setRet (.nat b)) ∧ h = 1 + max a b

/-- `TREE.DEPTH`: 0 for the root, else one more than the depth of the parent. It changes no state of the block
(42_path_tree.md R155; the result field is the model's, log entry 5). -/
def Obligations.TreeDepthCountsParents : Prop :=
  ∀ (s : State) (n : Nat) (nd : Node), TreeOk s.nodes → s.nodes[n]? = some nd →
    (n = 0 → exec (.treeDepth n) s = .next (s.setRet (.nat 0))) ∧
    (n ≠ 0 → ∃ a, exec (.treeDepth nd.parent) s = .next (s.setRet (.nat a)) ∧
      exec (.treeDepth n) s = .next (s.setRet (.nat (1 + a))))

/-- Position of the k-th inserted symbol: after `TREE.INIT` and the inserts of at most 256 symbols, symbol `k` is in node
`k`, at depth `floor(log2(k+1))`, and its path is the binary digits of `k + 1 − 2^d`, least significant first; nothing
but the arena has changed (10_state.md R29, 42_path_tree.md R156). -/
def Obligations.InsertedSymbolsHaveTheirClosedFormPositions : Prop :=
  ∀ (s : State) (xs : List Sym), 1 ≤ xs.length → xs.length ≤ 256 →
    ∃ t : List Node, runOps (.treeInit :: xs.map .treeInsert) s = .next (s.setNodes t) ∧ t.length = xs.length ∧
      ∀ k < xs.length, (t[k]?).bind (·.val) = xs[k]? ∧ (rankPath k).length = Nat.log2 (k + 1) ∧
        follow t 0 (rankPath k) = some k ∧
        exec (.treeDepth k) (s.setNodes t) = .next ((s.setNodes t).setRet (.nat (Nat.log2 (k + 1))))

/-- A tree of `m` inserted symbols, `1 ≤ m ≤ 256`, has height `floor(log2(m))`, at most 8, and at every node with two
children `TREE.COUNT` of the left one is `TREE.COUNT` of the right one or one more (42_path_tree.md R157, R158). -/
def Obligations.BuiltTreesAreBalanced : Prop :=
  ∀ (s : State) (xs : List Sym), 1 ≤ xs.length → xs.length ≤ 256 →
    ∃ t : List Node, runOps (.treeInit :: xs.map .treeInsert) s = .next (s.setNodes t) ∧ TreeOk t ∧
      exec (.treeHeight 0) (s.setNodes t) = .next ((s.setNodes t).setRet (.nat (Nat.log2 xs.length))) ∧
      Nat.log2 xs.length ≤ 8 ∧
      ∀ nd ∈ t, nd.left ≠ none → nd.right ≠ none →
        ∃ a b, exec (.treeCount nd.left) (s.setNodes t) = .next ((s.setNodes t).setRet (.nat a)) ∧
          exec (.treeCount nd.right) (s.setNodes t) = .next ((s.setNodes t).setRet (.nat b)) ∧ (a = b ∨ a = b + 1)

/-! ### Path Codec -/

/-- `TREE.PATHINFO x` when some node holds `x`: `PI_FOUND` 1, the path leads to a node that holds `x`, the first such
node in the order node, left subtree, right subtree, the register holds the depth and exactly the path bits, and nothing
else changes (43_path_codec.md R170, R172 b). -/
def Obligations.PathinfoFindsAHeldSymbol : Prop :=
  ∀ (s : State) (x : Sym) (n : Nat) (nd : Node), TreeOk s.nodes → s.nodes[n]? = some nd → nd.val = some x →
    ∃ (p : List Bool) (k : Nat), exec (.treePathinfo x) s = .next ((s.setFound true).setPath p.length p) ∧
      follow s.nodes 0 p = some k ∧ (s.nodes[k]?).bind (·.val) = some x ∧
      ∀ (q : List Bool) (j : Nat), follow s.nodes 0 q = some j → (s.nodes[j]?).bind (·.val) = some x →
        noLater p q = true

/-- `TREE.PATHINFO x` when no node holds `x`: `PI_FOUND = 0`, `PI_DEPTH = 0`, `PI_PATH` all zero, nothing else changes
(43_path_codec.md R170, R172 a). -/
def Obligations.PathinfoReportsAnAbsentSymbol : Prop :=
  ∀ (s : State) (x : Sym), TreeOk s.nodes → (∀ nd ∈ s.nodes, nd.val ≠ some x) →
    exec (.treePathinfo x) s = .next ((s.setFound false).setPath 0 [])

/-- `TREE.FINDVALUE` walks the first `PI_DEPTH` bits from the root: it returns the symbol of the node reached; it raises
`TreeLookupFailure` at an absent child or an empty node (43_path_codec.md R171; the result field is the model's, log
entry 5). -/
def Obligations.FindvalueWalksThePath : Prop :=
  ∀ s : State,
    (∀ (n : Nat) (x : Sym), follow s.nodes 0 (pathField s.piPath s.piDepth) = some n →
      (s.nodes[n]?).bind (·.val) = some x → exec .treeFindvalue s = .next (s.setRet (.sym x))) ∧
    (TreeOk s.nodes → follow s.nodes 0 (pathField s.piPath s.piDepth) = none →
      exec .treeFindvalue s = .next (faultEntry .treeLookupFailure s)) ∧
    (∀ (n : Nat) (nd : Node), follow s.nodes 0 (pathField s.piPath s.piDepth) = some n → s.nodes[n]? = some nd →
      nd.val = none → exec .treeFindvalue s = .next (faultEntry .treeLookupFailure s))

/-- Inverse law, encode side: in a tree of pairwise distinct symbols, for every inserted symbol, after `TREE.PATHINFO`
`PI_FOUND = 1` and `TREE.FINDVALUE` on the register returns the symbol without fault (43_path_codec.md R173). -/
def Obligations.FindvalueInvertsPathinfo : Prop :=
  ∀ (s : State) (x : Sym) (n : Nat) (nd : Node), TreeOk s.nodes → DistinctSymbols s.nodes →
    s.nodes[n]? = some nd → nd.val = some x →
      ∃ t, exec (.treePathinfo x) s = .next t ∧ t.piFound = true ∧
        exec .treeFindvalue t = .next (t.setRet (.sym x))

/-- Inverse law, decode side: where the path register leads to a node that holds `x` in a tree of pairwise distinct
symbols, `TREE.FINDVALUE` returns `x`, and `TREE.PATHINFO x` yields the same depth and the same first `depth` path bits
(43_path_codec.md R174). -/
def Obligations.PathinfoInvertsFindvalue : Prop :=
  ∀ (s : State) (x : Sym) (n : Nat), TreeOk s.nodes → DistinctSymbols s.nodes →
    follow s.nodes 0 (pathField s.piPath s.piDepth) = some n → (s.nodes[n]?).bind (·.val) = some x →
      exec .treeFindvalue s = .next (s.setRet (.sym x)) ∧
      ∃ t, exec (.treePathinfo x) s = .next t ∧ t.piFound = true ∧ t.piDepth = s.piDepth ∧
        ∀ i < s.piDepth, t.piPath.getD i false = s.piPath.getD i false

/-! ### Bit Stream Writer and Reader -/

/-- `BSW.INIT` and `BSR.INIT base` write their registers and nothing else; `RTOTAL` is not written (44_bitstream.md
R180, R186). -/
def Obligations.StreamInitsClearTheirRegisters : Prop :=
  ∀ (s : State) (base : BitVec 32),
    exec .bswInit s = .next { s with wbyte := 0x00, wcur := 0, tbits := 0 } ∧
    exec (.bsrInit base) s = .next { s with rbase := base, ridx := 0, rcur := 0, rbits := 0 }

/-- `BSW.WRITEBIT b`: bit `WCUR` of `WBYTE` becomes `b`, the other seven bits keep their values, nothing else changes
(44_bitstream.md R181). -/
def Obligations.WritebitSetsTheBitAtTheCursor : Prop :=
  ∀ (s : State) (b : Bool), ∃ byte : BitVec 8, exec (.bswWritebit b) s = .next { s with wbyte := byte } ∧
    byte.getLsbD s.wcur.toNat = b ∧ ∀ j < 8, j ≠ s.wcur.toNat → byte.getLsbD j = s.wbyte.getLsbD j

/-- `BSW.ADVANCE`: it counts the bit and moves the cursor; at cursor 7 it appends the working byte at `OUT_LEN` and clears
byte and cursor; `BitCountOverflow` when the count is full; `OutputOverflow` without room for the byte
(44_bitstream.md R182). -/
def Obligations.AdvanceCountsAndFlushesFullBytes : Prop :=
  ∀ s : State,
    (s.tbits.toNat = 2 ^ 32 - 1 → exec .bswAdvance s = .next (faultEntry .bitCountOverflow s)) ∧
    (s.tbits.toNat ≠ 2 ^ 32 - 1 → s.wcur.toNat ≠ 7 →
      ∃ t, exec .bswAdvance s = .next t ∧ t = { s with wcur := t.wcur, tbits := t.tbits } ∧
        t.wcur.toNat = s.wcur.toNat + 1 ∧ t.tbits.toNat = s.tbits.toNat + 1) ∧
    (s.tbits.toNat ≠ 2 ^ 32 - 1 → s.wcur.toNat = 7 → s.cfg.outFits (s.outLen + 1) = true →
      ∃ t, exec .bswAdvance s = .next t ∧
        t = { s with wbyte := 0, wcur := 0, tbits := t.tbits, outMem := t.outMem, outLen := s.outLen + 1 } ∧
        t.tbits.toNat = s.tbits.toNat + 1 ∧ (s.outMem.wf = true → t.outMem.read s.outLen = s.wbyte) ∧
        ∀ a, a ≠ s.outLen → t.outMem.read a = s.outMem.read a) ∧
    (s.tbits.toNat ≠ 2 ^ 32 - 1 → s.wcur.toNat = 7 → s.cfg.outFits (s.outLen + 1) = false →
      ∃ t, exec .bswAdvance s = .next (faultEntry .outputOverflow { s with tbits := t }))

/-- `BSW.FLUSH`: a partially filled byte is appended at `OUT_LEN` and byte and cursor cleared; with the cursor at 0
nothing is appended; the count is unchanged; `OutputOverflow` without room (44_bitstream.md R183). -/
def Obligations.FlushAppendsAPartialByte : Prop :=
  ∀ s : State,
    (s.wcur = 0 → exec .bswFlush s = .next s) ∧
    (s.wcur ≠ 0 → s.cfg.outFits (s.outLen + 1) = true →
      ∃ t, exec .bswFlush s = .next t ∧
        t = { s with wbyte := 0, wcur := 0, outMem := t.outMem, outLen := s.outLen + 1 } ∧
        (s.outMem.wf = true → t.outMem.read s.outLen = s.wbyte) ∧
        ∀ a, a ≠ s.outLen → t.outMem.read a = s.outMem.read a) ∧
    (s.wcur ≠ 0 → s.cfg.outFits (s.outLen + 1) = false →
      exec .bswFlush s = .next (faultEntry .outputOverflow s))

/-- After `n` `BSW.PUT` following `BSW.INIT`: `TBITS = n`, `floor(n/8)` bytes have been appended, byte `j` made of bits
`8j .. 8j+7` least significant first, `WCUR = n mod 8`, and `WBYTE` made of the bits left over; nothing else has changed
(44_bitstream.md R185). -/
def Obligations.PutsPackBitsLeastSignificantFirst : Prop :=
  ∀ (s : State) (bits : List Bool), bits.length < 2 ^ 32 → s.outMem.wf = true →
    s.cfg.outFits (s.outLen + bits.length / 8) = true →
      ∃ m : Memory,
        runOps (.bswInit :: putOps bits) s =
          .next ((s.setOut m (s.outLen + bits.length / 8)).setWriter
            (BitVec.ofNat 8 (bitsToNat (bits.drop (8 * (bits.length / 8))))) (BitVec.ofNat 3 (bits.length % 8))
            (BitVec.ofNat 32 bits.length)) ∧
        (∀ j < bits.length / 8,
          m.read (s.outLen + j) = BitVec.ofNat 8 (bitsToNat ((bits.drop (8 * j)).take 8))) ∧
        ∀ a, a < s.outLen ∨ s.outLen + bits.length / 8 ≤ a → m.read a = s.outMem.read a

/-- `BSR.READBIT` with bits left and the byte inside `IN`: it returns bit `RBITS` of the bit stream at `RBASE`, advances
the reader by one bit and changes nothing else; with `RBITS ≥ RTOTAL` it raises `InternalInvariant` (44_bitstream.md
R187, 20_memory.md R69; the result field is the model's, log entry 5). -/
def Obligations.ReadbitReturnsTheNextStreamBit : Prop :=
  ∀ s : State,
    (s.rbits.toNat < s.rtotal.toNat → ReaderPlaced s → s.rbase.toNat + s.rbits.toNat / 8 < s.inLen.toNat →
      ∃ t, exec .bsrReadbit s = .next t ∧
        t = { s with ridx := t.ridx, rcur := t.rcur, rbits := t.rbits,
                     ret := .bit (streamBit s.inMem s.rbase.toNat s.rbits.toNat) } ∧
        t.rbits.toNat = s.rbits.toNat + 1 ∧ ReaderPlaced t) ∧
    (s.rtotal.toNat ≤ s.rbits.toNat → exec .bsrReadbit s = .next (faultEntry .internalInvariant s))

/-- Mirror law: the bits written by `n` `BSW.PUT` after `BSW.INIT` and then `BSW.FLUSH`, the `ceil(n/8)` bytes so appended
placed at `IN[base ..]`, come back in order from `n` `BSR.READBIT` after `BSR.INIT base` (44_bitstream.md R188). -/
def Obligations.ReaderMirrorsWriter : Prop :=
  ∀ (s : State) (bits : List Bool), bits.length < 2 ^ 32 → s.outMem.wf = true →
    s.cfg.outFits (s.outLen + ceilDiv8 bits.length) = true →
      ∃ t, runOps (.bswInit :: putOps bits ++ [.bswFlush]) s = .next t ∧
        t.outLen = s.outLen + ceilDiv8 bits.length ∧
        ∀ (u : State) (base : BitVec 32),
          (∀ k < ceilDiv8 bits.length, u.inMem.read (base.toNat + k) = t.outMem.read (s.outLen + k)) →
          base.toNat + ceilDiv8 bits.length ≤ u.inLen.toNat → bits.length ≤ u.rtotal.toNat →
            ∃ v w, exec (.bsrInit base) u = .next v ∧ readOps bits.length v = some (bits, w)

/-! ### Codec Driver micro-operations -/

/-- `DRV.DEPTHBITS` writes `MDB` and nothing else: at least 1, wide enough for `HEIGHT` (`2^MDB − 1 ≥ HEIGHT`), and the
least such width (45_codec_driver.md R203, 00_scope.md R11). -/
def Obligations.DepthbitsIsTheLeastWidth : Prop :=
  ∀ s : State, s.height < 2 ^ 255 →
    ∃ b : BitVec 8, exec .drvDepthbits s = .next (s.setMdb b) ∧ 1 ≤ b.toNat ∧ s.height ≤ 2 ^ b.toNat - 1 ∧
      ∀ w : Nat, 1 ≤ w → s.height ≤ 2 ^ w - 1 → b.toNat ≤ w

/-- `DRV.HDREMIT` with `1 ≤ NALPHA ≤ 256`: with room, the bytes from `OUT_LEN` on are `MDB`, `NALPHA − 1` and the symbols
of the alphabet, `W` bytes each, little-endian, and nothing else changes; without room it raises `OutputOverflow`
(45_codec_driver.md R204, 30_encoding.md R96 to R98, 60_exceptions.md R249). -/
def Obligations.HdremitWritesTheHeader : Prop :=
  ∀ s : State, 1 ≤ s.alpha.length → s.alpha.length ≤ 256 →
    (s.outMem.wf = true → s.cfg.outFits (s.outLen + 2 + s.alpha.length * s.cfg.w) = true →
      ∃ m : Memory, exec .drvHdremit s = .next (s.setOut m (s.outLen + 2 + s.alpha.length * s.cfg.w)) ∧
        m.bytes s.outLen (2 + s.alpha.length * s.cfg.w) =
          [s.mdb, BitVec.ofNat 8 (s.alpha.length - 1)] ++ s.alpha.flatMap (fun l => leBytes s.cfg.w l.sym.toNat) ∧
        ∀ a, a < s.outLen ∨ s.outLen + 2 + s.alpha.length * s.cfg.w ≤ a → m.read a = s.outMem.read a) ∧
    (s.cfg.outFits (s.outLen + 2 + s.alpha.length * s.cfg.w) = false →
      ∃ (m : Memory) (n : Nat), exec .drvHdremit s = .next (faultEntry .outputOverflow (s.setOut m n)))

/-- `DRV.RECEMIT` with room and without reaching the largest count: it is `BSW.PUT` of the `MDB` depth bits, least
significant first, and then of the `PI_DEPTH` path bits, and it completes (45_codec_driver.md R205). -/
def Obligations.RecemitPutsOneRecord : Prop :=
  ∀ s : State, s.tbits.toNat + s.mdb.toNat + s.piDepth < 2 ^ 32 →
    s.cfg.outFits (s.outLen + (s.wcur.toNat + s.mdb.toNat + s.piDepth) / 8) = true →
      ∃ t, exec .drvRecemit s = .next t ∧
        runOps (putOps (depthField s.mdb.toNat s.piDepth ++ pathField s.piPath s.piDepth)) s = .next t ∧
        t.tbits.toNat = s.tbits.toNat + s.mdb.toNat + s.piDepth ∧
        t = { s with wbyte := t.wbyte, wcur := t.wcur, tbits := t.tbits, outMem := t.outMem, outLen := t.outLen } ∧
        t.outLen = s.outLen + (s.wcur.toNat + s.mdb.toNat + s.piDepth) / 8 ∧
        ∀ a, a < s.outLen ∨ t.outLen ≤ a → t.outMem.read a = s.outMem.read a

/-- `DRV.TRAILEMIT` with room appends `TBITS` as four bytes, little-endian, and changes nothing else; without room it
raises `OutputOverflow` (45_codec_driver.md R206, 30_encoding.md R101). -/
def Obligations.TrailemitAppendsTheCount : Prop :=
  ∀ s : State,
    (s.outMem.wf = true → s.cfg.outFits (s.outLen + 4) = true →
      ∃ m : Memory, exec .drvTrailemit s = .next (s.setOut m (s.outLen + 4)) ∧
        leValue m s.outLen 4 = s.tbits.toNat ∧
        ∀ a, a < s.outLen ∨ s.outLen + 4 ≤ a → m.read a = s.outMem.read a) ∧
    (s.cfg.outFits (s.outLen + 4) = false → exec .drvTrailemit s = .next (faultEntry .outputOverflow s))

/-- `DRV.HDRPARSE` on a buffer that can hold its header and trailer: `MDB` is byte 0, `NSYM` byte 1 plus 1, `ALPHA` the
`NSYM` entries at `2 + k * W` with frequency 0, nothing else changes; shorter buffers raise `TruncatedInput` at the test
they fail (45_codec_driver.md R213). -/
def Obligations.HdrparseReadsTheHeader : Prop :=
  ∀ s : State,
    (s.inLen.toNat < 2 → exec .drvHdrparse s = .next (faultEntry .truncatedInput s)) ∧
    (2 ≤ s.inLen.toNat → s.inLen.toNat < 2 + ((s.inMem.read 1).toNat + 1) * s.cfg.w + 4 →
      exec .drvHdrparse s = .next (faultEntry .truncatedInput
        { s with mdb := s.inMem.read 0, nsym := BitVec.ofNat 9 ((s.inMem.read 1).toNat + 1) })) ∧
    (2 + ((s.inMem.read 1).toNat + 1) * s.cfg.w + 4 ≤ s.inLen.toNat →
      ∃ t, exec .drvHdrparse s = .next t ∧ t = { s with mdb := s.inMem.read 0, nsym := t.nsym, alpha := t.alpha } ∧
        t.nsym.toNat = (s.inMem.read 1).toNat + 1 ∧ t.alpha.length = (s.inMem.read 1).toNat + 1 ∧
        ∀ k < t.alpha.length, ∃ l : Letter, t.alpha[k]? = some l ∧
          l.sym.toNat = leValue s.inMem (2 + k * s.cfg.w) s.cfg.w ∧ l.freq = 0)

/-- `DRV.TRAILREAD` on a buffer of at least four bytes: `RTOTAL` is the last four bytes, little-endian, and nothing else
changes; when the buffer cannot hold header, bit stream and trailer it raises `TruncatedInput` (45_codec_driver.md
R214, 30_encoding.md R101). -/
def Obligations.TrailreadReadsTheCountFromTheTail : Prop :=
  ∀ s : State, 4 ≤ s.inLen.toNat →
    ∃ total : BitVec 32, total.toNat = leValue s.inMem (s.inLen.toNat - 4) 4 ∧
      (2 + s.nsym.toNat * s.cfg.w + (total.toNat + 7) / 8 + 4 ≤ s.inLen.toNat →
        exec .drvTrailread s = .next { s with rtotal := total }) ∧
      (s.inLen.toNat < 2 + s.nsym.toNat * s.cfg.w + (total.toNat + 7) / 8 + 4 →
        exec .drvTrailread s = .next (faultEntry .truncatedInput { s with rtotal := total }))

/-- `DRV.RECREAD` on a record that ends inside the total and leads to a node: the depth is the next `MDB` bits, the path
the bits after them, the node's symbol is appended, the reader stands behind the record, and nothing else changes
(45_codec_driver.md R216, 30_encoding.md R107). -/
def Obligations.RecreadReadsOneRecord : Prop :=
  ∀ (s : State) (d n : Nat) (p : List Bool) (x : Sym),
    ReaderPlaced s → s.rbase.toNat + ceilDiv8 s.rtotal.toNat ≤ s.inLen.toNat →
    d = bitsToNat (streamBits s.inMem s.rbase.toNat s.rbits.toNat s.mdb.toNat) →
    s.rbits.toNat + s.mdb.toNat + d ≤ s.rtotal.toNat →
    p = streamBits s.inMem s.rbase.toNat (s.rbits.toNat + s.mdb.toNat) d →
    follow s.nodes 0 p = some n → (s.nodes[n]?).bind (·.val) = some x →
    s.outMem.wf = true → s.cfg.outFits (s.outLen + s.cfg.w) = true →
      ∃ t, exec .drvRecread s = .next t ∧
        t = { s with piDepth := d, piPath := p, ridx := t.ridx, rcur := t.rcur, rbits := t.rbits,
                     outMem := t.outMem, outLen := s.outLen + s.cfg.w } ∧
        t.rbits.toNat = s.rbits.toNat + s.mdb.toNat + d ∧ ReaderPlaced t ∧
        t.outMem.bytes s.outLen s.cfg.w = leBytes s.cfg.w x.toNat ∧
        ∀ a, a < s.outLen ∨ s.outLen + s.cfg.w ≤ a → t.outMem.read a = s.outMem.read a

/-- The faults of `DRV.RECREAD`, in their order of testing: a depth field or a path field that would cross the total
raises `BitCountMismatch`; a path that leads to no node, or to a node that holds no symbol, `TreeLookupFailure`; a symbol
without room in `OUT`, `OutputOverflow` (45_codec_driver.md R216, 43_path_codec.md R171, 60_exceptions.md R243, R247, R249,
R253). -/
def Obligations.RecreadFaultsInOrder : Prop :=
  ∀ (s : State) (d : Nat), d = bitsToNat (streamBits s.inMem s.rbase.toNat s.rbits.toNat s.mdb.toNat) →
    (s.rtotal.toNat < s.rbits.toNat + s.mdb.toNat →
      exec .drvRecread s = .next (faultEntry .bitCountMismatch s)) ∧
    (ReaderPlaced s → s.rbase.toNat + ceilDiv8 s.rtotal.toNat ≤ s.inLen.toNat →
      s.rbits.toNat + s.mdb.toNat ≤ s.rtotal.toNat →
      (s.rtotal.toNat < s.rbits.toNat + s.mdb.toNat + d →
        ∃ t, exec .drvRecread s = .next (faultEntry .bitCountMismatch t) ∧
          t = { s with ridx := t.ridx, rcur := t.rcur, rbits := t.rbits }) ∧
      ∀ p : List Bool, p = streamBits s.inMem s.rbase.toNat (s.rbits.toNat + s.mdb.toNat) d →
        s.rbits.toNat + s.mdb.toNat + d ≤ s.rtotal.toNat → TreeOk s.nodes →
        ((follow s.nodes 0 p = none ∨ ∃ n, follow s.nodes 0 p = some n ∧ (s.nodes[n]?).bind (·.val) = none) →
          ∃ t, exec .drvRecread s = .next (faultEntry .treeLookupFailure t) ∧
            t = { s with piDepth := d, piPath := p, ridx := t.ridx, rcur := t.rcur, rbits := t.rbits }) ∧
        (∀ (n : Nat) (x : Sym), follow s.nodes 0 p = some n → (s.nodes[n]?).bind (·.val) = some x →
          s.cfg.outFits (s.outLen + s.cfg.w) = false →
          ∃ t, exec .drvRecread s = .next (faultEntry .outputOverflow t) ∧
            t = { s with piDepth := d, piPath := p, ridx := t.ridx, rcur := t.rcur, rbits := t.rbits }))

/-! ### The commands -/

/-- The result of a fault-free ENCODE in closed form: on a non-empty input of whole symbols, with at most 256 distinct
ones, a bit count below `2^32` and room in `OUT`, ENCODE ends DONE_OK and `OUT` is the encoded buffer of
45_codec_driver.md R207, of length `2 + N·W + ceil(T/8) + 4`; `IN` and what ENCODE does not use are unchanged, and so is
every byte of `OUT` from `OUT_LEN` on. -/
def Obligations.EncodeProducesTheWireFormat : Prop :=
  ∀ (s : State) (a : List Sym), s.inLen.toNat ≠ 0 → s.inLen.toNat % s.cfg.w = 0 → IsAlphabet s.inSymbols a →
    a.length ≤ 256 → (streamOf a s.inSymbols).length < 2 ^ 32 →
    s.cfg.outFits (encodedBuffer s.cfg.w a s.inSymbols).length = true → s.outMem.wf = true →
      ∃ t, exec .encode s = .next t ∧ statusState t.status = 1 ∧ statusErrcode t.status = 0 ∧
        t.result = encodedBuffer s.cfg.w a s.inSymbols ∧
        t.outLen = 2 + a.length * s.cfg.w + ceilDiv8 (streamOf a s.inSymbols).length + 4 ∧
        (∀ x, t.outLen ≤ x → t.outMem.read x = s.outMem.read x) ∧
        t = { s with outMem := t.outMem, outLen := t.outLen, status := t.status, runs := t.runs, alpha := t.alpha,
                     nodes := t.nodes, piDepth := t.piDepth, piPath := t.piPath, piFound := t.piFound,
                     wbyte := t.wbyte, wcur := t.wcur, tbits := t.tbits, mdb := t.mdb, height := t.height,
                     phase := .idle }

/-- The faults of ENCODE that an input causes: `EmptyInput`, then `LengthNotMultiple`, then `InvalidAlphabetSize`
(45_codec_driver.md R202, R208 e, 60_exceptions.md R242, R244, R245, R253); each leaves an empty result, `IN` as it
was. -/
def Obligations.EncodeRejectsBadInput : Prop :=
  ∀ s : State,
    (s.inLen.toNat = 0 → ∃ t, exec .encode s = .next t ∧ t.status = statusErr .emptyInput ∧ t.outLen = 0 ∧
      t.inMem = s.inMem ∧ t.inLen = s.inLen) ∧
    (s.inLen.toNat ≠ 0 → s.inLen.toNat % s.cfg.w ≠ 0 →
      ∃ t, exec .encode s = .next t ∧ t.status = statusErr .lengthNotMultiple ∧ t.outLen = 0 ∧
        t.inMem = s.inMem ∧ t.inLen = s.inLen) ∧
    (s.inLen.toNat ≠ 0 → s.inLen.toNat % s.cfg.w = 0 → 256 < s.inSymbols.eraseDups.length →
      ∃ t, exec .encode s = .next t ∧ t.status = statusErr .invalidAlphabetSize ∧ t.outLen = 0 ∧
        t.inMem = s.inMem ∧ t.inLen = s.inLen)

/-- The faults ENCODE meets while it writes. With fewer than `2^32` record bits, `OutputOverflow` where the encoded buffer
of 45_codec_driver.md R207 does not fit `OUT`. With `2^32` record bits or more, `BitCountOverflow` where `OUT` has room for
the header and the full bytes of the `2^32 − 1` bits that can be counted, `OutputOverflow` where it has not: the first the
writer meets (45_codec_driver.md R208 h, R220, 20_memory.md R65, 44_bitstream.md R182, 60_exceptions.md R246, R249, R250,
R253). -/
def Obligations.EncodeOverflowsASmallBuffer : Prop :=
  ∀ (s : State) (a : List Sym), s.inLen.toNat ≠ 0 → s.inLen.toNat % s.cfg.w = 0 → IsAlphabet s.inSymbols a →
    a.length ≤ 256 →
      ((streamOf a s.inSymbols).length < 2 ^ 32 →
        s.cfg.outFits (encodedBuffer s.cfg.w a s.inSymbols).length = false →
          EndsWithFault .encode s .outputOverflow) ∧
      (2 ^ 32 ≤ (streamOf a s.inSymbols).length →
        (s.cfg.outFits (2 + a.length * s.cfg.w + (2 ^ 32 - 1) / 8) = true →
          EndsWithFault .encode s .bitCountOverflow) ∧
        (s.cfg.outFits (2 + a.length * s.cfg.w + (2 ^ 32 - 1) / 8) = false →
          EndsWithFault .encode s .outputOverflow))

/-- At one byte per symbol ENCODE never raises `InvalidAlphabetSize` (41_alphabet.md R144). -/
def Obligations.OneByteAlphabetsNeverOverflow : Prop :=
  ∀ s t : State, s.cfg.width = .one → exec .encode s = .next t → t.status ≠ statusErr .invalidAlphabetSize

/-- The result of DECODE in closed form: on a buffer of a depth width in [1,255], an alphabet of 1 to 256 entries
(repeats allowed), a bit stream that begins with the records of the letters `ks` and may go on with padding and slack,
and the count of the record bits, with room in `OUT`, DECODE ends DONE_OK with the letters `ks` as symbols, `W` bytes
each (45_codec_driver.md R211, R217, 30_encoding.md R95, R104, R106, R108, R110); `IN`, what DECODE does not use, and
every byte of `OUT` from `OUT_LEN` on are unchanged. Without that room it ends with `OutputOverflow` and an empty result
(20_memory.md R65, R66, 60_exceptions.md R249, R250). -/
def Obligations.DecodeRecoversTheRecords : Prop :=
  ∀ (s : State) (mdb : Nat) (a : List Sym) (ks : List Nat) (stream : List Byte),
    1 ≤ mdb → mdb ≤ 255 → 1 ≤ a.length → a.length ≤ 256 → (∀ x ∈ a, x.fits s.cfg = true) →
    (∀ k ∈ ks, k < a.length ∧ rankDepth k < 2 ^ mdb) →
    (ks.flatMap (rankRecord mdb)).length < 2 ^ 32 →
    ceilDiv8 (ks.flatMap (rankRecord mdb)).length ≤ stream.length →
    (∀ j < (ks.flatMap (rankRecord mdb)).length,
      (stream.getD (j / 8) 0).getLsbD (j % 8) = (ks.flatMap (rankRecord mdb)).getD j false) →
    s.inMem.bytes 0 s.inLen.toNat = [BitVec.ofNat 8 mdb, BitVec.ofNat 8 (a.length - 1)] ++
      a.flatMap (fun x => leBytes s.cfg.w x.toNat) ++ stream ++ leBytes 4 (ks.flatMap (rankRecord mdb)).length →
    (s.cfg.outFits (ks.length * s.cfg.w) = true → s.outMem.wf = true →
      ∃ t, exec .decode s = .next t ∧ statusState t.status = 1 ∧ statusErrcode t.status = 0 ∧
        t.result = ks.flatMap (fun k => leBytes s.cfg.w (a.getD k 0).toNat) ∧ t.outLen = ks.length * s.cfg.w ∧
        (∀ x, t.outLen ≤ x → t.outMem.read x = s.outMem.read x) ∧
        t = { s with outMem := t.outMem, outLen := t.outLen, status := t.status, alpha := t.alpha, nodes := t.nodes,
                     piDepth := t.piDepth, piPath := t.piPath, rbase := t.rbase, ridx := t.ridx, rcur := t.rcur,
                     rbits := t.rbits, rtotal := t.rtotal, mdb := t.mdb, nsym := t.nsym, phase := .idle }) ∧
    (s.cfg.outFits (ks.length * s.cfg.w) = false → EndsWithFault .decode s .outputOverflow)

/-- The faults of DECODE that come before its tree: the three length tests raise `TruncatedInput`, then a depth width of
0 raises `InvalidDepthWidth` (45_codec_driver.md R213 to R215, 60_exceptions.md R241, R248, R253); each leaves an empty
result, `IN` as it was. -/
def Obligations.DecodeRejectsMalformedHeaders : Prop :=
  ∀ s : State,
    (s.inLen.toNat < 2 ∨ s.inLen.toNat < 2 + ((s.inMem.read 1).toNat + 1) * s.cfg.w + 4 ∨
        s.inLen.toNat < 2 + ((s.inMem.read 1).toNat + 1) * s.cfg.w +
          (leValue s.inMem (s.inLen.toNat - 4) 4 + 7) / 8 + 4 →
      ∃ t, exec .decode s = .next t ∧ t.status = statusErr .truncatedInput ∧ t.outLen = 0 ∧
        t.inMem = s.inMem ∧ t.inLen = s.inLen) ∧
    (2 + ((s.inMem.read 1).toNat + 1) * s.cfg.w + (leValue s.inMem (s.inLen.toNat - 4) 4 + 7) / 8 + 4 ≤
        s.inLen.toNat → s.inMem.read 0 = 0 →
      ∃ t, exec .decode s = .next t ∧ t.status = statusErr .invalidDepthWidth ∧ t.outLen = 0 ∧
        t.inMem = s.inMem ∧ t.inLen = s.inLen)

/-- Round trip: when ENCODE ends DONE_OK, DECODE at the same parameters on its result, with room for the input, ends
DONE_OK with the input (45_codec_driver.md R220). -/
def Obligations.DecodeUndoesEncode : Prop :=
  ∀ s t u : State, exec .encode s = .next t → t.status = statusOk → s.outMem.wf = true →
    s.cfg.outFits s.inLen.toNat = true → u.cfg = s.cfg → u.outMem.wf = true →
    u.inMem.bytes 0 u.inLen.toNat = t.result →
      ∃ v, exec .decode u = .next v ∧ v.status = statusOk ∧ v.result = s.inMem.bytes 0 s.inLen.toNat

/-- What the commands read: from two states that agree on `IN`, `IN_LEN`, the symbol width `W` and the capacity `OUT_CAP`,
whatever else they hold, a command ends with the same `STATUS`, the same `OUT_LEN` and the same result. 45_codec_driver.md
R221 says "Neither reads anything but `IN`, `IN_LEN` and W"; that the test of 20_memory.md R65 reads `OUT_CAP` too is
why the statement asks for it (10_state.md R20, 00_scope.md R8). -/
def Obligations.CommandsReadOnlyTheInput : Prop :=
  ∀ (i : Instr) (s s' t t' : State), IsCommand i → s.cfg.width = s'.cfg.width → s.cfg.outCap = s'.cfg.outCap →
    s.inMem = s'.inMem → s.inLen = s'.inLen → s.outMem.wf = true → s'.outMem.wf = true →
    exec i s = .next t → exec i s' = .next t' →
      t.status = t'.status ∧ t.outLen = t'.outLen ∧ t.result = t'.result

/-- Each command ends, at rest, either DONE_OK or DONE_ERR with one of its faults and an empty result; `IN`, `IN_LEN`,
the parameters, `CMD` and the model's own fields are unchanged (45_codec_driver.md R200, R210, 60_exceptions.md R250,
70_reset_and_hazards.md R292). -/
def Obligations.CommandsEndOkOrWithTheirFaults : Prop :=
  ∀ s : State,
    (∃ t, exec .encode s = .next t ∧ t.phase = .idle ∧
      (t.status = statusOk ∨ (t.outLen = 0 ∧ ∃ f ∈ ([.emptyInput, .lengthNotMultiple, .invalidAlphabetSize,
        .bitCountOverflow, .outputOverflow, .internalInvariant] : List FaultCode), t.status = statusErr f)) ∧
      t.inMem = s.inMem ∧ t.inLen = s.inLen ∧ t.cfg = s.cfg ∧ t.cmd = s.cmd ∧ t.ret = s.ret ∧
      t.script = s.script ∧ t.replies = s.replies) ∧
    (∃ t, exec .decode s = .next t ∧ t.phase = .idle ∧
      (t.status = statusOk ∨ (t.outLen = 0 ∧ ∃ f ∈ ([.truncatedInput, .invalidDepthWidth, .bitCountMismatch,
        .treeLookupFailure, .outputOverflow, .internalInvariant] : List FaultCode), t.status = statusErr f)) ∧
      t.inMem = s.inMem ∧ t.inLen = s.inLen ∧ t.cfg = s.cfg ∧ t.cmd = s.cmd ∧ t.ret = s.ret ∧
      t.script = s.script ∧ t.replies = s.replies)

/-- `InternalInvariant` is reachable from no content of `IN`: no command ends with it, whatever the state it starts in
(60_exceptions.md R252). -/
def Obligations.CommandsNeverBreakAnInvariant : Prop :=
  ∀ (i : Instr) (s t : State), IsCommand i → exec i s = .next t → t.status ≠ statusErr .internalInvariant

/-- The small-step machine and the big-step one agree: from the first phase of a command, ten steps of ENCODE and five of
DECODE, one per phase of 10_state.md R40, end in the state the whole command gives (10_state.md R40, R46; the step
through phases is the model's, log entry 14). -/
def Obligations.PhaseByPhaseIsTheWholeCommand : Prop :=
  ∀ s : State, s.cmd = none → s.script = [] →
    Host.Core.run Sys2Proof.core 10 (s.setPhase .eInit) = exec .encode s ∧
    Host.Core.run Sys2Proof.core 5 (s.setPhase .dInit) = exec .decode s

/-! ### Invariants of every step -/

/-- The state after reset meets every invariant stated below; the values of the internal tables and registers and of the
parameters are the model's choice (log entries 1 and 7). -/
def Obligations.InvariantsHoldAfterReset : Prop :=
  MemoryCanonical State.reset ∧ WithinCapacities State.reset ∧ TablesFit State.reset ∧ TreeOk State.reset.nodes ∧
    TreeBalanced State.reset.nodes ∧ ReaderPlaced State.reset ∧ WriterClean State.reset ∧ StatusLegal State.reset ∧
    AtRest State.reset

/-- Every step keeps both address spaces in canonical form. -/
def Obligations.StepKeepsMemoryCanonical : Prop :=
  ∀ s t : State, MemoryCanonical s → step s = .next t → MemoryCanonical t

/-- Every step keeps the contents within the capacities and the tables within their widths (10_state.md R21, R22, R24,
R26, R28), and never changes a parameter (00_scope.md R6). -/
def Obligations.StepKeepsTablesWithinBounds : Prop :=
  ∀ s t : State, WithinCapacities s → TablesFit s → step s = .next t →
    WithinCapacities t ∧ TablesFit t ∧ t.cfg = s.cfg

/-- Every step keeps the arena a balanced tree (10_state.md R30). -/
def Obligations.StepKeepsTheTreeBalanced : Prop :=
  ∀ s t : State, TreeOk s.nodes → TreeBalanced s.nodes → step s = .next t → TreeOk t.nodes ∧ TreeBalanced t.nodes

/-- Every step keeps the reader's count and place in agreement (10_state.md R38), the working byte clean above the cursor
(10_state.md R36) and `STATUS` legal (10_state.md R43). -/
def Obligations.StepKeepsStreamRegistersAndStatus : Prop :=
  ∀ s t : State, ReaderPlaced s → WriterClean s → StatusLegal s → step s = .next t →
    ReaderPlaced t ∧ WriterClean t ∧ StatusLegal t

/-- From a block at rest every step leaves it at rest: a command is never seen running (10_state.md R40, R42, R46). -/
def Obligations.StepLeavesTheBlockAtRest : Prop := ∀ s t : State, AtRest s → step s = .next t → AtRest t
end

