-- ==== Sys2Proof/Laws/Memory.lean ====
section
/-! SUPPORT. The laws of memory: the canonical form is kept, a read after a write, a write leaves every other index alone,
and the same of multi-byte accesses. -/

namespace Sys2Proof.Machine

/-! ### One byte -/

@[simp] theorem read_nil (a : Nat) : Memory.read [] a = unlisted := rfl

theorem read_cons (b : Nat) (v : Byte) (m : Memory) (a : Nat) :
    Memory.read ((b, v) :: m) a = if b = a then v else Memory.read m a := rfl

/-- Below the first index of a canonical list nothing is listed. -/
theorem read_below {lo a : Nat} {m : Memory} (h : Memory.wfFrom lo m = true) (ha : a < lo) :
    m.read a = unlisted := by
  induction m generalizing lo with
  | nil => rfl
  | cons c m ih =>
    obtain ⟨b, v⟩ := c
    simp only [Memory.wfFrom, Bool.and_eq_true, decide_eq_true_eq] at h
    rw [read_cons, if_neg (by omega)]
    exact ih h.2 (by omega)

theorem wfFrom_mono {lo lo' : Nat} {m : Memory} (h : Memory.wfFrom lo m = true) (hl : lo' ≤ lo) :
    Memory.wfFrom lo' m = true := by
  cases m with
  | nil => rfl
  | cons c m =>
    obtain ⟨b, v⟩ := c
    simp only [Memory.wfFrom, Bool.and_eq_true, decide_eq_true_eq] at h ⊢
    exact ⟨⟨by omega, h.1.2⟩, h.2⟩

theorem wfFrom_write {lo a : Nat} {m : Memory} {v : Byte} (h : Memory.wfFrom lo m = true) (ha : lo ≤ a) :
    Memory.wfFrom lo (m.write a v) = true := by
  induction m generalizing lo with
  | nil =>
    simp only [Memory.write]
    split
    · rfl
    · simp_all [Memory.wfFrom]
  | cons c m ih =>
    obtain ⟨b, w⟩ := c
    simp only [Memory.wfFrom, Bool.and_eq_true, decide_eq_true_eq] at h
    obtain ⟨⟨h1, h2⟩, h3⟩ := h
    simp only [Memory.write]
    split
    · split
      · simp only [Memory.wfFrom, Bool.and_eq_true, decide_eq_true_eq]
        exact ⟨⟨h1, h2⟩, h3⟩
      · simp only [Memory.wfFrom, Bool.and_eq_true, decide_eq_true_eq]
        exact ⟨⟨ha, by assumption⟩, ⟨by omega, h2⟩, h3⟩
    · split
      · split
        · exact wfFrom_mono h3 (by omega)
        · simp only [Memory.wfFrom, Bool.and_eq_true, decide_eq_true_eq]
          refine ⟨⟨ha, by assumption⟩, ?_⟩
          have : a = b := by assumption
          rwa [this]
      · simp only [Memory.wfFrom, Bool.and_eq_true, decide_eq_true_eq]
        exact ⟨⟨h1, h2⟩, ih h3 (by omega)⟩

/-- A write keeps the canonical form. -/
theorem wf_write {m : Memory} (h : m.wf = true) (a : Nat) (v : Byte) : (m.write a v).wf = true :=
  wfFrom_write h (Nat.zero_le a)

theorem read_write_same_from {lo : Nat} {m : Memory} (h : Memory.wfFrom lo m = true) (a : Nat) (v : Byte) :
    (m.write a v).read a = v := by
  induction m generalizing lo with
  | nil =>
    simp only [Memory.write]
    split
    · simp_all
    · simp [read_cons]
  | cons c m ih =>
    obtain ⟨b, w⟩ := c
    simp only [Memory.wfFrom, Bool.and_eq_true, decide_eq_true_eq] at h
    obtain ⟨⟨h1, h2⟩, h3⟩ := h
    simp only [Memory.write]
    split
    · split
      · rw [read_cons, if_neg (by omega), read_below h3 (by omega)]
        exact Eq.symm (by assumption)
      · simp [read_cons]
    · split
      · split
        · rw [read_below h3 (by omega)]
          exact Eq.symm (by assumption)
        · simp [read_cons]
      · rw [read_cons, if_neg (by omega)]
        exact ih h3

/-- A read of the byte just written gives it. -/
theorem read_write_same {m : Memory} (h : m.wf = true) (a : Nat) (v : Byte) : (m.write a v).read a = v :=
  read_write_same_from h a v

/-- A write leaves every other index alone. -/
theorem read_write_other (m : Memory) {a x : Nat} (v : Byte) (hx : x ≠ a) : (m.write a v).read x = m.read x := by
  induction m with
  | nil =>
    simp only [Memory.write]
    split
    · rfl
    · rw [read_cons, if_neg (by omega)]
  | cons c m ih =>
    obtain ⟨b, w⟩ := c
    simp only [Memory.write]
    split
    · split
      · rfl
      · rw [read_cons, if_neg (by omega)]
    · split
      · split
        · rw [read_cons, if_neg (by omega)]
        · rw [read_cons, if_neg (by omega), read_cons, if_neg (by omega)]
      · rw [read_cons, read_cons, ih]

/-! ### Several bytes -/

theorem wf_store {m : Memory} (h : m.wf = true) (a n v : Nat) : (m.store a n v).wf = true := by
  induction n generalizing m a v with
  | zero => exact h
  | succ n ih => exact ih (wf_write h _ _) _ _

/-- A store leaves every index outside its bytes alone. -/
theorem read_store_other (m : Memory) {a n x : Nat} (v : Nat) (hx : x < a ∨ a + n ≤ x) :
    (m.store a n v).read x = m.read x := by
  induction n generalizing m a v with
  | zero => rfl
  | succ n ih =>
    simp only [Memory.store]
    rw [ih _ _ (by omega), read_write_other _ _ (by omega)]

/-- Byte `k` of a store is byte `k` of the little-endian image of the value (20_memory.md R65). -/
theorem read_store_same {m : Memory} (h : m.wf = true) {a n k : Nat} (v : Nat) (hk : k < n) :
    (m.store a n v).read (a + k) = BitVec.ofNat 8 (v / 256 ^ k) := by
  induction n generalizing m a v k with
  | zero => omega
  | succ n ih =>
    simp only [Memory.store]
    cases k with
    | zero =>
      rw [read_store_other _ _ (by omega), Nat.add_zero, read_write_same h]
      simp
    | succ k =>
      rw [show a + (k + 1) = a + 1 + k by omega, ih (wf_write h _ _) _ (by omega), Nat.div_div_eq_div_mul,
        Nat.pow_succ, Nat.mul_comm]

theorem load_lt (m : Memory) (a n : Nat) : m.load a n < 256 ^ n := by
  induction n generalizing a with
  | zero => simp [Memory.load]
  | succ n ih =>
    have h1 := ih (a + 1)
    have h2 := (m.read a).isLt
    simp only [Memory.load, Nat.pow_succ]
    omega

/-- A load after a store to the same place gives the value, when it fits (20_memory.md R63, R65). -/
theorem load_store_same {m : Memory} (h : m.wf = true) {a n v : Nat} (hv : v < 256 ^ n) :
    (m.store a n v).load a n = v := by
  induction n generalizing m a v with
  | zero => simp at hv; simp [Memory.load, hv]
  | succ n ih =>
    simp only [Memory.load, Memory.store]
    rw [read_store_other _ _ (by omega), read_write_same h, ih (wf_write h _ _)
      (by rw [Nat.pow_succ] at hv; omega)]
    simp only [BitVec.toNat_ofNat]
    omega

/-- Reading depends only on the bytes read. -/
theorem load_congr {m m' : Memory} {a n : Nat} (h : ∀ x, a ≤ x → x < a + n → m.read x = m'.read x) :
    m.load a n = m'.load a n := by
  induction n generalizing a with
  | zero => rfl
  | succ n ih =>
    simp only [Memory.load]
    rw [h a (by omega) (by omega), ih fun x h1 h2 => h x (by omega) (by omega)]

@[simp] theorem bytes_length (m : Memory) (a n : Nat) : (m.bytes a n).length = n := by
  induction n generalizing a with
  | zero => rfl
  | succ n ih => simp [Memory.bytes, ih]

theorem bytes_getElem? (m : Memory) {a n k : Nat} (hk : k < n) : (m.bytes a n)[k]? = some (m.read (a + k)) := by
  induction n generalizing a k with
  | zero => omega
  | succ n ih =>
    cases k with
    | zero => rfl
    | succ k =>
      simp only [Memory.bytes, List.getElem?_cons_succ]
      rw [ih (by omega), show a + 1 + k = a + (k + 1) by omega]

theorem bytes_append (m : Memory) (a n k : Nat) : m.bytes a (n + k) = m.bytes a n ++ m.bytes (a + n) k := by
  induction n generalizing a with
  | zero => simp [Memory.bytes]
  | succ n ih =>
    rw [show n + 1 + k = (n + k) + 1 by omega]
    simp only [Memory.bytes, List.cons_append, ih]
    rw [show a + 1 + n = a + (n + 1) by omega]

theorem bytes_congr {m m' : Memory} {a n : Nat} (h : ∀ x, a ≤ x → x < a + n → m.read x = m'.read x) :
    m.bytes a n = m'.bytes a n := by
  induction n generalizing a with
  | zero => rfl
  | succ n ih =>
    simp only [Memory.bytes]
    rw [h a (by omega) (by omega), ih fun x h1 h2 => h x (by omega) (by omega)]

/-! ### Loading a byte sequence -/

theorem wf_putBytes {m : Memory} (h : m.wf = true) (a : Nat) (bs : List Byte) : (m.putBytes a bs).wf = true := by
  induction bs generalizing m a with
  | nil => exact h
  | cons b bs ih => exact ih (wf_write h _ _) _

theorem read_putBytes_other (m : Memory) {a x : Nat} (bs : List Byte) (hx : x < a ∨ a + bs.length ≤ x) :
    (m.putBytes a bs).read x = m.read x := by
  induction bs generalizing m a with
  | nil => rfl
  | cons b bs ih =>
    simp only [Memory.putBytes, List.length_cons] at hx ⊢
    rw [ih _ (by omega), read_write_other _ _ (by omega)]

theorem bytes_putBytes {m : Memory} (h : m.wf = true) (a : Nat) (bs : List Byte) :
    (m.putBytes a bs).bytes a bs.length = bs := by
  induction bs generalizing m a with
  | nil => rfl
  | cons b bs ih =>
    simp only [Memory.putBytes, List.length_cons, Memory.bytes]
    rw [read_putBytes_other _ _ (by omega), read_write_same h, ih (wf_write h _ _)]

theorem wf_ofBytes (bs : List Byte) : (Memory.ofBytes bs).wf = true := wf_putBytes rfl 0 bs

/-- `IN <- b` (10_state.md R45): the bytes at indices `0 .. len(b) - 1` are `b`. -/
theorem bytes_ofBytes (bs : List Byte) : (Memory.ofBytes bs).bytes 0 bs.length = bs := bytes_putBytes rfl 0 bs

/-- Two canonical memories that read alike are the same list. -/
theorem ext_of_read {m m' : Memory} (h : m.wf = true) (h' : m'.wf = true) (he : ∀ a, m.read a = m'.read a) :
    m = m' := by
  suffices key : ∀ (m m' : Memory) (lo lo' : Nat), Memory.wfFrom lo m = true → Memory.wfFrom lo' m' = true →
      (∀ a, m.read a = m'.read a) → m = m' from key m m' 0 0 h h' he
  intro m
  induction m with
  | nil =>
    intro m' lo lo' _ h' he
    cases m' with
    | nil => rfl
    | cons c m' =>
      obtain ⟨b, v⟩ := c
      simp only [Memory.wfFrom, Bool.and_eq_true, decide_eq_true_eq] at h'
      have := he b
      simp only [read_nil, read_cons, if_true] at this
      exact absurd this.symm h'.1.2
  | cons c m ih =>
    obtain ⟨b, v⟩ := c
    intro m' lo lo' h h' he
    simp only [Memory.wfFrom, Bool.and_eq_true, decide_eq_true_eq] at h
    cases m' with
    | nil =>
      have := he b
      simp only [read_nil, read_cons, if_true] at this
      exact absurd this h.1.2
    | cons c' m' =>
      obtain ⟨b', v'⟩ := c'
      simp only [Memory.wfFrom, Bool.and_eq_true, decide_eq_true_eq] at h'
      have hb : b = b' := by
        rcases Nat.lt_trichotomy b b' with hlt | heq | hgt
        · have := he b
          rw [read_cons, if_pos rfl, read_cons, if_neg (by omega), read_below h'.2 (by omega)] at this
          exact absurd this h.1.2
        · exact heq
        · have := he b'
          rw [read_cons, if_neg (by omega), read_cons, if_pos rfl, read_below h.2 (by omega)] at this
          exact absurd this.symm h'.1.2
      subst hb
      have hv : v = v' := by simpa [read_cons] using he b
      subst hv
      congr 1
      refine ih m' (b + 1) (b + 1) h.2 h'.2 fun a => ?_
      by_cases hab : b = a
      · subst hab
        rw [read_below h.2 (by omega), read_below h'.2 (by omega)]
      · simpa [read_cons, hab] using he a

end Sys2Proof.Machine
end

