-- ==== Sys2Proof/Laws/State.lean ====
section
/-! SUPPORT. Each field of State after each register update of Machine/Ops.lean: one lemma per field per update, all
true by rfl, so that no proof unfolds an update. -/

namespace Sys2Proof.Machine

section
variable (s : State) (m : Memory) (n : BitVec 32)

@[simp] theorem setIn_cfg : (s.setIn m n).cfg = s.cfg := rfl
@[simp] theorem setIn_inMem : (s.setIn m n).inMem = m := rfl
@[simp] theorem setIn_inLen : (s.setIn m n).inLen = n := rfl
@[simp] theorem setIn_outMem : (s.setIn m n).outMem = s.outMem := rfl
@[simp] theorem setIn_outLen : (s.setIn m n).outLen = s.outLen := rfl
@[simp] theorem setIn_cmd : (s.setIn m n).cmd = s.cmd := rfl
@[simp] theorem setIn_status : (s.setIn m n).status = s.status := rfl
@[simp] theorem setIn_runs : (s.setIn m n).runs = s.runs := rfl
@[simp] theorem setIn_alpha : (s.setIn m n).alpha = s.alpha := rfl
@[simp] theorem setIn_nodes : (s.setIn m n).nodes = s.nodes := rfl
@[simp] theorem setIn_piDepth : (s.setIn m n).piDepth = s.piDepth := rfl
@[simp] theorem setIn_piPath : (s.setIn m n).piPath = s.piPath := rfl
@[simp] theorem setIn_piFound : (s.setIn m n).piFound = s.piFound := rfl
@[simp] theorem setIn_wbyte : (s.setIn m n).wbyte = s.wbyte := rfl
@[simp] theorem setIn_wcur : (s.setIn m n).wcur = s.wcur := rfl
@[simp] theorem setIn_tbits : (s.setIn m n).tbits = s.tbits := rfl
@[simp] theorem setIn_rbase : (s.setIn m n).rbase = s.rbase := rfl
@[simp] theorem setIn_ridx : (s.setIn m n).ridx = s.ridx := rfl
@[simp] theorem setIn_rcur : (s.setIn m n).rcur = s.rcur := rfl
@[simp] theorem setIn_rbits : (s.setIn m n).rbits = s.rbits := rfl
@[simp] theorem setIn_rtotal : (s.setIn m n).rtotal = s.rtotal := rfl
@[simp] theorem setIn_mdb : (s.setIn m n).mdb = s.mdb := rfl
@[simp] theorem setIn_height : (s.setIn m n).height = s.height := rfl
@[simp] theorem setIn_nsym : (s.setIn m n).nsym = s.nsym := rfl
@[simp] theorem setIn_phase : (s.setIn m n).phase = s.phase := rfl
@[simp] theorem setIn_ret : (s.setIn m n).ret = s.ret := rfl
@[simp] theorem setIn_script : (s.setIn m n).script = s.script := rfl
@[simp] theorem setIn_replies : (s.setIn m n).replies = s.replies := rfl

end

section
variable (s : State) (m : Memory) (n : Nat)

@[simp] theorem setOut_cfg : (s.setOut m n).cfg = s.cfg := rfl
@[simp] theorem setOut_inMem : (s.setOut m n).inMem = s.inMem := rfl
@[simp] theorem setOut_inLen : (s.setOut m n).inLen = s.inLen := rfl
@[simp] theorem setOut_outMem : (s.setOut m n).outMem = m := rfl
@[simp] theorem setOut_outLen : (s.setOut m n).outLen = n := rfl
@[simp] theorem setOut_cmd : (s.setOut m n).cmd = s.cmd := rfl
@[simp] theorem setOut_status : (s.setOut m n).status = s.status := rfl
@[simp] theorem setOut_runs : (s.setOut m n).runs = s.runs := rfl
@[simp] theorem setOut_alpha : (s.setOut m n).alpha = s.alpha := rfl
@[simp] theorem setOut_nodes : (s.setOut m n).nodes = s.nodes := rfl
@[simp] theorem setOut_piDepth : (s.setOut m n).piDepth = s.piDepth := rfl
@[simp] theorem setOut_piPath : (s.setOut m n).piPath = s.piPath := rfl
@[simp] theorem setOut_piFound : (s.setOut m n).piFound = s.piFound := rfl
@[simp] theorem setOut_wbyte : (s.setOut m n).wbyte = s.wbyte := rfl
@[simp] theorem setOut_wcur : (s.setOut m n).wcur = s.wcur := rfl
@[simp] theorem setOut_tbits : (s.setOut m n).tbits = s.tbits := rfl
@[simp] theorem setOut_rbase : (s.setOut m n).rbase = s.rbase := rfl
@[simp] theorem setOut_ridx : (s.setOut m n).ridx = s.ridx := rfl
@[simp] theorem setOut_rcur : (s.setOut m n).rcur = s.rcur := rfl
@[simp] theorem setOut_rbits : (s.setOut m n).rbits = s.rbits := rfl
@[simp] theorem setOut_rtotal : (s.setOut m n).rtotal = s.rtotal := rfl
@[simp] theorem setOut_mdb : (s.setOut m n).mdb = s.mdb := rfl
@[simp] theorem setOut_height : (s.setOut m n).height = s.height := rfl
@[simp] theorem setOut_nsym : (s.setOut m n).nsym = s.nsym := rfl
@[simp] theorem setOut_phase : (s.setOut m n).phase = s.phase := rfl
@[simp] theorem setOut_ret : (s.setOut m n).ret = s.ret := rfl
@[simp] theorem setOut_script : (s.setOut m n).script = s.script := rfl
@[simp] theorem setOut_replies : (s.setOut m n).replies = s.replies := rfl

end

section
variable (s : State) (c : Option (BitVec 8))

@[simp] theorem setCmd_cfg : (s.setCmd c).cfg = s.cfg := rfl
@[simp] theorem setCmd_inMem : (s.setCmd c).inMem = s.inMem := rfl
@[simp] theorem setCmd_inLen : (s.setCmd c).inLen = s.inLen := rfl
@[simp] theorem setCmd_outMem : (s.setCmd c).outMem = s.outMem := rfl
@[simp] theorem setCmd_outLen : (s.setCmd c).outLen = s.outLen := rfl
@[simp] theorem setCmd_cmd : (s.setCmd c).cmd = c := rfl
@[simp] theorem setCmd_status : (s.setCmd c).status = s.status := rfl
@[simp] theorem setCmd_runs : (s.setCmd c).runs = s.runs := rfl
@[simp] theorem setCmd_alpha : (s.setCmd c).alpha = s.alpha := rfl
@[simp] theorem setCmd_nodes : (s.setCmd c).nodes = s.nodes := rfl
@[simp] theorem setCmd_piDepth : (s.setCmd c).piDepth = s.piDepth := rfl
@[simp] theorem setCmd_piPath : (s.setCmd c).piPath = s.piPath := rfl
@[simp] theorem setCmd_piFound : (s.setCmd c).piFound = s.piFound := rfl
@[simp] theorem setCmd_wbyte : (s.setCmd c).wbyte = s.wbyte := rfl
@[simp] theorem setCmd_wcur : (s.setCmd c).wcur = s.wcur := rfl
@[simp] theorem setCmd_tbits : (s.setCmd c).tbits = s.tbits := rfl
@[simp] theorem setCmd_rbase : (s.setCmd c).rbase = s.rbase := rfl
@[simp] theorem setCmd_ridx : (s.setCmd c).ridx = s.ridx := rfl
@[simp] theorem setCmd_rcur : (s.setCmd c).rcur = s.rcur := rfl
@[simp] theorem setCmd_rbits : (s.setCmd c).rbits = s.rbits := rfl
@[simp] theorem setCmd_rtotal : (s.setCmd c).rtotal = s.rtotal := rfl
@[simp] theorem setCmd_mdb : (s.setCmd c).mdb = s.mdb := rfl
@[simp] theorem setCmd_height : (s.setCmd c).height = s.height := rfl
@[simp] theorem setCmd_nsym : (s.setCmd c).nsym = s.nsym := rfl
@[simp] theorem setCmd_phase : (s.setCmd c).phase = s.phase := rfl
@[simp] theorem setCmd_ret : (s.setCmd c).ret = s.ret := rfl
@[simp] theorem setCmd_script : (s.setCmd c).script = s.script := rfl
@[simp] theorem setCmd_replies : (s.setCmd c).replies = s.replies := rfl

end

section
variable (s : State) (w : BitVec 16)

@[simp] theorem setStatus_cfg : (s.setStatus w).cfg = s.cfg := rfl
@[simp] theorem setStatus_inMem : (s.setStatus w).inMem = s.inMem := rfl
@[simp] theorem setStatus_inLen : (s.setStatus w).inLen = s.inLen := rfl
@[simp] theorem setStatus_outMem : (s.setStatus w).outMem = s.outMem := rfl
@[simp] theorem setStatus_outLen : (s.setStatus w).outLen = s.outLen := rfl
@[simp] theorem setStatus_cmd : (s.setStatus w).cmd = s.cmd := rfl
@[simp] theorem setStatus_status : (s.setStatus w).status = w := rfl
@[simp] theorem setStatus_runs : (s.setStatus w).runs = s.runs := rfl
@[simp] theorem setStatus_alpha : (s.setStatus w).alpha = s.alpha := rfl
@[simp] theorem setStatus_nodes : (s.setStatus w).nodes = s.nodes := rfl
@[simp] theorem setStatus_piDepth : (s.setStatus w).piDepth = s.piDepth := rfl
@[simp] theorem setStatus_piPath : (s.setStatus w).piPath = s.piPath := rfl
@[simp] theorem setStatus_piFound : (s.setStatus w).piFound = s.piFound := rfl
@[simp] theorem setStatus_wbyte : (s.setStatus w).wbyte = s.wbyte := rfl
@[simp] theorem setStatus_wcur : (s.setStatus w).wcur = s.wcur := rfl
@[simp] theorem setStatus_tbits : (s.setStatus w).tbits = s.tbits := rfl
@[simp] theorem setStatus_rbase : (s.setStatus w).rbase = s.rbase := rfl
@[simp] theorem setStatus_ridx : (s.setStatus w).ridx = s.ridx := rfl
@[simp] theorem setStatus_rcur : (s.setStatus w).rcur = s.rcur := rfl
@[simp] theorem setStatus_rbits : (s.setStatus w).rbits = s.rbits := rfl
@[simp] theorem setStatus_rtotal : (s.setStatus w).rtotal = s.rtotal := rfl
@[simp] theorem setStatus_mdb : (s.setStatus w).mdb = s.mdb := rfl
@[simp] theorem setStatus_height : (s.setStatus w).height = s.height := rfl
@[simp] theorem setStatus_nsym : (s.setStatus w).nsym = s.nsym := rfl
@[simp] theorem setStatus_phase : (s.setStatus w).phase = s.phase := rfl
@[simp] theorem setStatus_ret : (s.setStatus w).ret = s.ret := rfl
@[simp] theorem setStatus_script : (s.setStatus w).script = s.script := rfl
@[simp] theorem setStatus_replies : (s.setStatus w).replies = s.replies := rfl

end

section
variable (s : State) (r : List Run)

@[simp] theorem setRuns_cfg : (s.setRuns r).cfg = s.cfg := rfl
@[simp] theorem setRuns_inMem : (s.setRuns r).inMem = s.inMem := rfl
@[simp] theorem setRuns_inLen : (s.setRuns r).inLen = s.inLen := rfl
@[simp] theorem setRuns_outMem : (s.setRuns r).outMem = s.outMem := rfl
@[simp] theorem setRuns_outLen : (s.setRuns r).outLen = s.outLen := rfl
@[simp] theorem setRuns_cmd : (s.setRuns r).cmd = s.cmd := rfl
@[simp] theorem setRuns_status : (s.setRuns r).status = s.status := rfl
@[simp] theorem setRuns_runs : (s.setRuns r).runs = r := rfl
@[simp] theorem setRuns_alpha : (s.setRuns r).alpha = s.alpha := rfl
@[simp] theorem setRuns_nodes : (s.setRuns r).nodes = s.nodes := rfl
@[simp] theorem setRuns_piDepth : (s.setRuns r).piDepth = s.piDepth := rfl
@[simp] theorem setRuns_piPath : (s.setRuns r).piPath = s.piPath := rfl
@[simp] theorem setRuns_piFound : (s.setRuns r).piFound = s.piFound := rfl
@[simp] theorem setRuns_wbyte : (s.setRuns r).wbyte = s.wbyte := rfl
@[simp] theorem setRuns_wcur : (s.setRuns r).wcur = s.wcur := rfl
@[simp] theorem setRuns_tbits : (s.setRuns r).tbits = s.tbits := rfl
@[simp] theorem setRuns_rbase : (s.setRuns r).rbase = s.rbase := rfl
@[simp] theorem setRuns_ridx : (s.setRuns r).ridx = s.ridx := rfl
@[simp] theorem setRuns_rcur : (s.setRuns r).rcur = s.rcur := rfl
@[simp] theorem setRuns_rbits : (s.setRuns r).rbits = s.rbits := rfl
@[simp] theorem setRuns_rtotal : (s.setRuns r).rtotal = s.rtotal := rfl
@[simp] theorem setRuns_mdb : (s.setRuns r).mdb = s.mdb := rfl
@[simp] theorem setRuns_height : (s.setRuns r).height = s.height := rfl
@[simp] theorem setRuns_nsym : (s.setRuns r).nsym = s.nsym := rfl
@[simp] theorem setRuns_phase : (s.setRuns r).phase = s.phase := rfl
@[simp] theorem setRuns_ret : (s.setRuns r).ret = s.ret := rfl
@[simp] theorem setRuns_script : (s.setRuns r).script = s.script := rfl
@[simp] theorem setRuns_replies : (s.setRuns r).replies = s.replies := rfl

end

section
variable (s : State) (a : List Letter)

@[simp] theorem setAlpha_cfg : (s.setAlpha a).cfg = s.cfg := rfl
@[simp] theorem setAlpha_inMem : (s.setAlpha a).inMem = s.inMem := rfl
@[simp] theorem setAlpha_inLen : (s.setAlpha a).inLen = s.inLen := rfl
@[simp] theorem setAlpha_outMem : (s.setAlpha a).outMem = s.outMem := rfl
@[simp] theorem setAlpha_outLen : (s.setAlpha a).outLen = s.outLen := rfl
@[simp] theorem setAlpha_cmd : (s.setAlpha a).cmd = s.cmd := rfl
@[simp] theorem setAlpha_status : (s.setAlpha a).status = s.status := rfl
@[simp] theorem setAlpha_runs : (s.setAlpha a).runs = s.runs := rfl
@[simp] theorem setAlpha_alpha : (s.setAlpha a).alpha = a := rfl
@[simp] theorem setAlpha_nodes : (s.setAlpha a).nodes = s.nodes := rfl
@[simp] theorem setAlpha_piDepth : (s.setAlpha a).piDepth = s.piDepth := rfl
@[simp] theorem setAlpha_piPath : (s.setAlpha a).piPath = s.piPath := rfl
@[simp] theorem setAlpha_piFound : (s.setAlpha a).piFound = s.piFound := rfl
@[simp] theorem setAlpha_wbyte : (s.setAlpha a).wbyte = s.wbyte := rfl
@[simp] theorem setAlpha_wcur : (s.setAlpha a).wcur = s.wcur := rfl
@[simp] theorem setAlpha_tbits : (s.setAlpha a).tbits = s.tbits := rfl
@[simp] theorem setAlpha_rbase : (s.setAlpha a).rbase = s.rbase := rfl
@[simp] theorem setAlpha_ridx : (s.setAlpha a).ridx = s.ridx := rfl
@[simp] theorem setAlpha_rcur : (s.setAlpha a).rcur = s.rcur := rfl
@[simp] theorem setAlpha_rbits : (s.setAlpha a).rbits = s.rbits := rfl
@[simp] theorem setAlpha_rtotal : (s.setAlpha a).rtotal = s.rtotal := rfl
@[simp] theorem setAlpha_mdb : (s.setAlpha a).mdb = s.mdb := rfl
@[simp] theorem setAlpha_height : (s.setAlpha a).height = s.height := rfl
@[simp] theorem setAlpha_nsym : (s.setAlpha a).nsym = s.nsym := rfl
@[simp] theorem setAlpha_phase : (s.setAlpha a).phase = s.phase := rfl
@[simp] theorem setAlpha_ret : (s.setAlpha a).ret = s.ret := rfl
@[simp] theorem setAlpha_script : (s.setAlpha a).script = s.script := rfl
@[simp] theorem setAlpha_replies : (s.setAlpha a).replies = s.replies := rfl

end

section
variable (s : State) (t : List Node)

@[simp] theorem setNodes_cfg : (s.setNodes t).cfg = s.cfg := rfl
@[simp] theorem setNodes_inMem : (s.setNodes t).inMem = s.inMem := rfl
@[simp] theorem setNodes_inLen : (s.setNodes t).inLen = s.inLen := rfl
@[simp] theorem setNodes_outMem : (s.setNodes t).outMem = s.outMem := rfl
@[simp] theorem setNodes_outLen : (s.setNodes t).outLen = s.outLen := rfl
@[simp] theorem setNodes_cmd : (s.setNodes t).cmd = s.cmd := rfl
@[simp] theorem setNodes_status : (s.setNodes t).status = s.status := rfl
@[simp] theorem setNodes_runs : (s.setNodes t).runs = s.runs := rfl
@[simp] theorem setNodes_alpha : (s.setNodes t).alpha = s.alpha := rfl
@[simp] theorem setNodes_nodes : (s.setNodes t).nodes = t := rfl
@[simp] theorem setNodes_piDepth : (s.setNodes t).piDepth = s.piDepth := rfl
@[simp] theorem setNodes_piPath : (s.setNodes t).piPath = s.piPath := rfl
@[simp] theorem setNodes_piFound : (s.setNodes t).piFound = s.piFound := rfl
@[simp] theorem setNodes_wbyte : (s.setNodes t).wbyte = s.wbyte := rfl
@[simp] theorem setNodes_wcur : (s.setNodes t).wcur = s.wcur := rfl
@[simp] theorem setNodes_tbits : (s.setNodes t).tbits = s.tbits := rfl
@[simp] theorem setNodes_rbase : (s.setNodes t).rbase = s.rbase := rfl
@[simp] theorem setNodes_ridx : (s.setNodes t).ridx = s.ridx := rfl
@[simp] theorem setNodes_rcur : (s.setNodes t).rcur = s.rcur := rfl
@[simp] theorem setNodes_rbits : (s.setNodes t).rbits = s.rbits := rfl
@[simp] theorem setNodes_rtotal : (s.setNodes t).rtotal = s.rtotal := rfl
@[simp] theorem setNodes_mdb : (s.setNodes t).mdb = s.mdb := rfl
@[simp] theorem setNodes_height : (s.setNodes t).height = s.height := rfl
@[simp] theorem setNodes_nsym : (s.setNodes t).nsym = s.nsym := rfl
@[simp] theorem setNodes_phase : (s.setNodes t).phase = s.phase := rfl
@[simp] theorem setNodes_ret : (s.setNodes t).ret = s.ret := rfl
@[simp] theorem setNodes_script : (s.setNodes t).script = s.script := rfl
@[simp] theorem setNodes_replies : (s.setNodes t).replies = s.replies := rfl

end

section
variable (s : State) (d : Nat) (p : List Bool)

@[simp] theorem setPath_cfg : (s.setPath d p).cfg = s.cfg := rfl
@[simp] theorem setPath_inMem : (s.setPath d p).inMem = s.inMem := rfl
@[simp] theorem setPath_inLen : (s.setPath d p).inLen = s.inLen := rfl
@[simp] theorem setPath_outMem : (s.setPath d p).outMem = s.outMem := rfl
@[simp] theorem setPath_outLen : (s.setPath d p).outLen = s.outLen := rfl
@[simp] theorem setPath_cmd : (s.setPath d p).cmd = s.cmd := rfl
@[simp] theorem setPath_status : (s.setPath d p).status = s.status := rfl
@[simp] theorem setPath_runs : (s.setPath d p).runs = s.runs := rfl
@[simp] theorem setPath_alpha : (s.setPath d p).alpha = s.alpha := rfl
@[simp] theorem setPath_nodes : (s.setPath d p).nodes = s.nodes := rfl
@[simp] theorem setPath_piDepth : (s.setPath d p).piDepth = d := rfl
@[simp] theorem setPath_piPath : (s.setPath d p).piPath = p := rfl
@[simp] theorem setPath_piFound : (s.setPath d p).piFound = s.piFound := rfl
@[simp] theorem setPath_wbyte : (s.setPath d p).wbyte = s.wbyte := rfl
@[simp] theorem setPath_wcur : (s.setPath d p).wcur = s.wcur := rfl
@[simp] theorem setPath_tbits : (s.setPath d p).tbits = s.tbits := rfl
@[simp] theorem setPath_rbase : (s.setPath d p).rbase = s.rbase := rfl
@[simp] theorem setPath_ridx : (s.setPath d p).ridx = s.ridx := rfl
@[simp] theorem setPath_rcur : (s.setPath d p).rcur = s.rcur := rfl
@[simp] theorem setPath_rbits : (s.setPath d p).rbits = s.rbits := rfl
@[simp] theorem setPath_rtotal : (s.setPath d p).rtotal = s.rtotal := rfl
@[simp] theorem setPath_mdb : (s.setPath d p).mdb = s.mdb := rfl
@[simp] theorem setPath_height : (s.setPath d p).height = s.height := rfl
@[simp] theorem setPath_nsym : (s.setPath d p).nsym = s.nsym := rfl
@[simp] theorem setPath_phase : (s.setPath d p).phase = s.phase := rfl
@[simp] theorem setPath_ret : (s.setPath d p).ret = s.ret := rfl
@[simp] theorem setPath_script : (s.setPath d p).script = s.script := rfl
@[simp] theorem setPath_replies : (s.setPath d p).replies = s.replies := rfl

end

section
variable (s : State) (b : Bool)

@[simp] theorem setFound_cfg : (s.setFound b).cfg = s.cfg := rfl
@[simp] theorem setFound_inMem : (s.setFound b).inMem = s.inMem := rfl
@[simp] theorem setFound_inLen : (s.setFound b).inLen = s.inLen := rfl
@[simp] theorem setFound_outMem : (s.setFound b).outMem = s.outMem := rfl
@[simp] theorem setFound_outLen : (s.setFound b).outLen = s.outLen := rfl
@[simp] theorem setFound_cmd : (s.setFound b).cmd = s.cmd := rfl
@[simp] theorem setFound_status : (s.setFound b).status = s.status := rfl
@[simp] theorem setFound_runs : (s.setFound b).runs = s.runs := rfl
@[simp] theorem setFound_alpha : (s.setFound b).alpha = s.alpha := rfl
@[simp] theorem setFound_nodes : (s.setFound b).nodes = s.nodes := rfl
@[simp] theorem setFound_piDepth : (s.setFound b).piDepth = s.piDepth := rfl
@[simp] theorem setFound_piPath : (s.setFound b).piPath = s.piPath := rfl
@[simp] theorem setFound_piFound : (s.setFound b).piFound = b := rfl
@[simp] theorem setFound_wbyte : (s.setFound b).wbyte = s.wbyte := rfl
@[simp] theorem setFound_wcur : (s.setFound b).wcur = s.wcur := rfl
@[simp] theorem setFound_tbits : (s.setFound b).tbits = s.tbits := rfl
@[simp] theorem setFound_rbase : (s.setFound b).rbase = s.rbase := rfl
@[simp] theorem setFound_ridx : (s.setFound b).ridx = s.ridx := rfl
@[simp] theorem setFound_rcur : (s.setFound b).rcur = s.rcur := rfl
@[simp] theorem setFound_rbits : (s.setFound b).rbits = s.rbits := rfl
@[simp] theorem setFound_rtotal : (s.setFound b).rtotal = s.rtotal := rfl
@[simp] theorem setFound_mdb : (s.setFound b).mdb = s.mdb := rfl
@[simp] theorem setFound_height : (s.setFound b).height = s.height := rfl
@[simp] theorem setFound_nsym : (s.setFound b).nsym = s.nsym := rfl
@[simp] theorem setFound_phase : (s.setFound b).phase = s.phase := rfl
@[simp] theorem setFound_ret : (s.setFound b).ret = s.ret := rfl
@[simp] theorem setFound_script : (s.setFound b).script = s.script := rfl
@[simp] theorem setFound_replies : (s.setFound b).replies = s.replies := rfl

end

section
variable (s : State) (b : BitVec 8) (c : BitVec 3) (t : BitVec 32)

@[simp] theorem setWriter_cfg : (s.setWriter b c t).cfg = s.cfg := rfl
@[simp] theorem setWriter_inMem : (s.setWriter b c t).inMem = s.inMem := rfl
@[simp] theorem setWriter_inLen : (s.setWriter b c t).inLen = s.inLen := rfl
@[simp] theorem setWriter_outMem : (s.setWriter b c t).outMem = s.outMem := rfl
@[simp] theorem setWriter_outLen : (s.setWriter b c t).outLen = s.outLen := rfl
@[simp] theorem setWriter_cmd : (s.setWriter b c t).cmd = s.cmd := rfl
@[simp] theorem setWriter_status : (s.setWriter b c t).status = s.status := rfl
@[simp] theorem setWriter_runs : (s.setWriter b c t).runs = s.runs := rfl
@[simp] theorem setWriter_alpha : (s.setWriter b c t).alpha = s.alpha := rfl
@[simp] theorem setWriter_nodes : (s.setWriter b c t).nodes = s.nodes := rfl
@[simp] theorem setWriter_piDepth : (s.setWriter b c t).piDepth = s.piDepth := rfl
@[simp] theorem setWriter_piPath : (s.setWriter b c t).piPath = s.piPath := rfl
@[simp] theorem setWriter_piFound : (s.setWriter b c t).piFound = s.piFound := rfl
@[simp] theorem setWriter_wbyte : (s.setWriter b c t).wbyte = b := rfl
@[simp] theorem setWriter_wcur : (s.setWriter b c t).wcur = c := rfl
@[simp] theorem setWriter_tbits : (s.setWriter b c t).tbits = t := rfl
@[simp] theorem setWriter_rbase : (s.setWriter b c t).rbase = s.rbase := rfl
@[simp] theorem setWriter_ridx : (s.setWriter b c t).ridx = s.ridx := rfl
@[simp] theorem setWriter_rcur : (s.setWriter b c t).rcur = s.rcur := rfl
@[simp] theorem setWriter_rbits : (s.setWriter b c t).rbits = s.rbits := rfl
@[simp] theorem setWriter_rtotal : (s.setWriter b c t).rtotal = s.rtotal := rfl
@[simp] theorem setWriter_mdb : (s.setWriter b c t).mdb = s.mdb := rfl
@[simp] theorem setWriter_height : (s.setWriter b c t).height = s.height := rfl
@[simp] theorem setWriter_nsym : (s.setWriter b c t).nsym = s.nsym := rfl
@[simp] theorem setWriter_phase : (s.setWriter b c t).phase = s.phase := rfl
@[simp] theorem setWriter_ret : (s.setWriter b c t).ret = s.ret := rfl
@[simp] theorem setWriter_script : (s.setWriter b c t).script = s.script := rfl
@[simp] theorem setWriter_replies : (s.setWriter b c t).replies = s.replies := rfl

end

section
variable (s : State) (b : BitVec 32)

@[simp] theorem setRbase_cfg : (s.setRbase b).cfg = s.cfg := rfl
@[simp] theorem setRbase_inMem : (s.setRbase b).inMem = s.inMem := rfl
@[simp] theorem setRbase_inLen : (s.setRbase b).inLen = s.inLen := rfl
@[simp] theorem setRbase_outMem : (s.setRbase b).outMem = s.outMem := rfl
@[simp] theorem setRbase_outLen : (s.setRbase b).outLen = s.outLen := rfl
@[simp] theorem setRbase_cmd : (s.setRbase b).cmd = s.cmd := rfl
@[simp] theorem setRbase_status : (s.setRbase b).status = s.status := rfl
@[simp] theorem setRbase_runs : (s.setRbase b).runs = s.runs := rfl
@[simp] theorem setRbase_alpha : (s.setRbase b).alpha = s.alpha := rfl
@[simp] theorem setRbase_nodes : (s.setRbase b).nodes = s.nodes := rfl
@[simp] theorem setRbase_piDepth : (s.setRbase b).piDepth = s.piDepth := rfl
@[simp] theorem setRbase_piPath : (s.setRbase b).piPath = s.piPath := rfl
@[simp] theorem setRbase_piFound : (s.setRbase b).piFound = s.piFound := rfl
@[simp] theorem setRbase_wbyte : (s.setRbase b).wbyte = s.wbyte := rfl
@[simp] theorem setRbase_wcur : (s.setRbase b).wcur = s.wcur := rfl
@[simp] theorem setRbase_tbits : (s.setRbase b).tbits = s.tbits := rfl
@[simp] theorem setRbase_rbase : (s.setRbase b).rbase = b := rfl
@[simp] theorem setRbase_ridx : (s.setRbase b).ridx = s.ridx := rfl
@[simp] theorem setRbase_rcur : (s.setRbase b).rcur = s.rcur := rfl
@[simp] theorem setRbase_rbits : (s.setRbase b).rbits = s.rbits := rfl
@[simp] theorem setRbase_rtotal : (s.setRbase b).rtotal = s.rtotal := rfl
@[simp] theorem setRbase_mdb : (s.setRbase b).mdb = s.mdb := rfl
@[simp] theorem setRbase_height : (s.setRbase b).height = s.height := rfl
@[simp] theorem setRbase_nsym : (s.setRbase b).nsym = s.nsym := rfl
@[simp] theorem setRbase_phase : (s.setRbase b).phase = s.phase := rfl
@[simp] theorem setRbase_ret : (s.setRbase b).ret = s.ret := rfl
@[simp] theorem setRbase_script : (s.setRbase b).script = s.script := rfl
@[simp] theorem setRbase_replies : (s.setRbase b).replies = s.replies := rfl

end

section
variable (s : State) (i : BitVec 32) (c : BitVec 3) (n : BitVec 32)

@[simp] theorem setReader_cfg : (s.setReader i c n).cfg = s.cfg := rfl
@[simp] theorem setReader_inMem : (s.setReader i c n).inMem = s.inMem := rfl
@[simp] theorem setReader_inLen : (s.setReader i c n).inLen = s.inLen := rfl
@[simp] theorem setReader_outMem : (s.setReader i c n).outMem = s.outMem := rfl
@[simp] theorem setReader_outLen : (s.setReader i c n).outLen = s.outLen := rfl
@[simp] theorem setReader_cmd : (s.setReader i c n).cmd = s.cmd := rfl
@[simp] theorem setReader_status : (s.setReader i c n).status = s.status := rfl
@[simp] theorem setReader_runs : (s.setReader i c n).runs = s.runs := rfl
@[simp] theorem setReader_alpha : (s.setReader i c n).alpha = s.alpha := rfl
@[simp] theorem setReader_nodes : (s.setReader i c n).nodes = s.nodes := rfl
@[simp] theorem setReader_piDepth : (s.setReader i c n).piDepth = s.piDepth := rfl
@[simp] theorem setReader_piPath : (s.setReader i c n).piPath = s.piPath := rfl
@[simp] theorem setReader_piFound : (s.setReader i c n).piFound = s.piFound := rfl
@[simp] theorem setReader_wbyte : (s.setReader i c n).wbyte = s.wbyte := rfl
@[simp] theorem setReader_wcur : (s.setReader i c n).wcur = s.wcur := rfl
@[simp] theorem setReader_tbits : (s.setReader i c n).tbits = s.tbits := rfl
@[simp] theorem setReader_rbase : (s.setReader i c n).rbase = s.rbase := rfl
@[simp] theorem setReader_ridx : (s.setReader i c n).ridx = i := rfl
@[simp] theorem setReader_rcur : (s.setReader i c n).rcur = c := rfl
@[simp] theorem setReader_rbits : (s.setReader i c n).rbits = n := rfl
@[simp] theorem setReader_rtotal : (s.setReader i c n).rtotal = s.rtotal := rfl
@[simp] theorem setReader_mdb : (s.setReader i c n).mdb = s.mdb := rfl
@[simp] theorem setReader_height : (s.setReader i c n).height = s.height := rfl
@[simp] theorem setReader_nsym : (s.setReader i c n).nsym = s.nsym := rfl
@[simp] theorem setReader_phase : (s.setReader i c n).phase = s.phase := rfl
@[simp] theorem setReader_ret : (s.setReader i c n).ret = s.ret := rfl
@[simp] theorem setReader_script : (s.setReader i c n).script = s.script := rfl
@[simp] theorem setReader_replies : (s.setReader i c n).replies = s.replies := rfl

end

section
variable (s : State) (t : BitVec 32)

@[simp] theorem setRtotal_cfg : (s.setRtotal t).cfg = s.cfg := rfl
@[simp] theorem setRtotal_inMem : (s.setRtotal t).inMem = s.inMem := rfl
@[simp] theorem setRtotal_inLen : (s.setRtotal t).inLen = s.inLen := rfl
@[simp] theorem setRtotal_outMem : (s.setRtotal t).outMem = s.outMem := rfl
@[simp] theorem setRtotal_outLen : (s.setRtotal t).outLen = s.outLen := rfl
@[simp] theorem setRtotal_cmd : (s.setRtotal t).cmd = s.cmd := rfl
@[simp] theorem setRtotal_status : (s.setRtotal t).status = s.status := rfl
@[simp] theorem setRtotal_runs : (s.setRtotal t).runs = s.runs := rfl
@[simp] theorem setRtotal_alpha : (s.setRtotal t).alpha = s.alpha := rfl
@[simp] theorem setRtotal_nodes : (s.setRtotal t).nodes = s.nodes := rfl
@[simp] theorem setRtotal_piDepth : (s.setRtotal t).piDepth = s.piDepth := rfl
@[simp] theorem setRtotal_piPath : (s.setRtotal t).piPath = s.piPath := rfl
@[simp] theorem setRtotal_piFound : (s.setRtotal t).piFound = s.piFound := rfl
@[simp] theorem setRtotal_wbyte : (s.setRtotal t).wbyte = s.wbyte := rfl
@[simp] theorem setRtotal_wcur : (s.setRtotal t).wcur = s.wcur := rfl
@[simp] theorem setRtotal_tbits : (s.setRtotal t).tbits = s.tbits := rfl
@[simp] theorem setRtotal_rbase : (s.setRtotal t).rbase = s.rbase := rfl
@[simp] theorem setRtotal_ridx : (s.setRtotal t).ridx = s.ridx := rfl
@[simp] theorem setRtotal_rcur : (s.setRtotal t).rcur = s.rcur := rfl
@[simp] theorem setRtotal_rbits : (s.setRtotal t).rbits = s.rbits := rfl
@[simp] theorem setRtotal_rtotal : (s.setRtotal t).rtotal = t := rfl
@[simp] theorem setRtotal_mdb : (s.setRtotal t).mdb = s.mdb := rfl
@[simp] theorem setRtotal_height : (s.setRtotal t).height = s.height := rfl
@[simp] theorem setRtotal_nsym : (s.setRtotal t).nsym = s.nsym := rfl
@[simp] theorem setRtotal_phase : (s.setRtotal t).phase = s.phase := rfl
@[simp] theorem setRtotal_ret : (s.setRtotal t).ret = s.ret := rfl
@[simp] theorem setRtotal_script : (s.setRtotal t).script = s.script := rfl
@[simp] theorem setRtotal_replies : (s.setRtotal t).replies = s.replies := rfl

end

section
variable (s : State) (b : BitVec 8)

@[simp] theorem setMdb_cfg : (s.setMdb b).cfg = s.cfg := rfl
@[simp] theorem setMdb_inMem : (s.setMdb b).inMem = s.inMem := rfl
@[simp] theorem setMdb_inLen : (s.setMdb b).inLen = s.inLen := rfl
@[simp] theorem setMdb_outMem : (s.setMdb b).outMem = s.outMem := rfl
@[simp] theorem setMdb_outLen : (s.setMdb b).outLen = s.outLen := rfl
@[simp] theorem setMdb_cmd : (s.setMdb b).cmd = s.cmd := rfl
@[simp] theorem setMdb_status : (s.setMdb b).status = s.status := rfl
@[simp] theorem setMdb_runs : (s.setMdb b).runs = s.runs := rfl
@[simp] theorem setMdb_alpha : (s.setMdb b).alpha = s.alpha := rfl
@[simp] theorem setMdb_nodes : (s.setMdb b).nodes = s.nodes := rfl
@[simp] theorem setMdb_piDepth : (s.setMdb b).piDepth = s.piDepth := rfl
@[simp] theorem setMdb_piPath : (s.setMdb b).piPath = s.piPath := rfl
@[simp] theorem setMdb_piFound : (s.setMdb b).piFound = s.piFound := rfl
@[simp] theorem setMdb_wbyte : (s.setMdb b).wbyte = s.wbyte := rfl
@[simp] theorem setMdb_wcur : (s.setMdb b).wcur = s.wcur := rfl
@[simp] theorem setMdb_tbits : (s.setMdb b).tbits = s.tbits := rfl
@[simp] theorem setMdb_rbase : (s.setMdb b).rbase = s.rbase := rfl
@[simp] theorem setMdb_ridx : (s.setMdb b).ridx = s.ridx := rfl
@[simp] theorem setMdb_rcur : (s.setMdb b).rcur = s.rcur := rfl
@[simp] theorem setMdb_rbits : (s.setMdb b).rbits = s.rbits := rfl
@[simp] theorem setMdb_rtotal : (s.setMdb b).rtotal = s.rtotal := rfl
@[simp] theorem setMdb_mdb : (s.setMdb b).mdb = b := rfl
@[simp] theorem setMdb_height : (s.setMdb b).height = s.height := rfl
@[simp] theorem setMdb_nsym : (s.setMdb b).nsym = s.nsym := rfl
@[simp] theorem setMdb_phase : (s.setMdb b).phase = s.phase := rfl
@[simp] theorem setMdb_ret : (s.setMdb b).ret = s.ret := rfl
@[simp] theorem setMdb_script : (s.setMdb b).script = s.script := rfl
@[simp] theorem setMdb_replies : (s.setMdb b).replies = s.replies := rfl

end

section
variable (s : State) (h : Nat)

@[simp] theorem setHeight_cfg : (s.setHeight h).cfg = s.cfg := rfl
@[simp] theorem setHeight_inMem : (s.setHeight h).inMem = s.inMem := rfl
@[simp] theorem setHeight_inLen : (s.setHeight h).inLen = s.inLen := rfl
@[simp] theorem setHeight_outMem : (s.setHeight h).outMem = s.outMem := rfl
@[simp] theorem setHeight_outLen : (s.setHeight h).outLen = s.outLen := rfl
@[simp] theorem setHeight_cmd : (s.setHeight h).cmd = s.cmd := rfl
@[simp] theorem setHeight_status : (s.setHeight h).status = s.status := rfl
@[simp] theorem setHeight_runs : (s.setHeight h).runs = s.runs := rfl
@[simp] theorem setHeight_alpha : (s.setHeight h).alpha = s.alpha := rfl
@[simp] theorem setHeight_nodes : (s.setHeight h).nodes = s.nodes := rfl
@[simp] theorem setHeight_piDepth : (s.setHeight h).piDepth = s.piDepth := rfl
@[simp] theorem setHeight_piPath : (s.setHeight h).piPath = s.piPath := rfl
@[simp] theorem setHeight_piFound : (s.setHeight h).piFound = s.piFound := rfl
@[simp] theorem setHeight_wbyte : (s.setHeight h).wbyte = s.wbyte := rfl
@[simp] theorem setHeight_wcur : (s.setHeight h).wcur = s.wcur := rfl
@[simp] theorem setHeight_tbits : (s.setHeight h).tbits = s.tbits := rfl
@[simp] theorem setHeight_rbase : (s.setHeight h).rbase = s.rbase := rfl
@[simp] theorem setHeight_ridx : (s.setHeight h).ridx = s.ridx := rfl
@[simp] theorem setHeight_rcur : (s.setHeight h).rcur = s.rcur := rfl
@[simp] theorem setHeight_rbits : (s.setHeight h).rbits = s.rbits := rfl
@[simp] theorem setHeight_rtotal : (s.setHeight h).rtotal = s.rtotal := rfl
@[simp] theorem setHeight_mdb : (s.setHeight h).mdb = s.mdb := rfl
@[simp] theorem setHeight_height : (s.setHeight h).height = h := rfl
@[simp] theorem setHeight_nsym : (s.setHeight h).nsym = s.nsym := rfl
@[simp] theorem setHeight_phase : (s.setHeight h).phase = s.phase := rfl
@[simp] theorem setHeight_ret : (s.setHeight h).ret = s.ret := rfl
@[simp] theorem setHeight_script : (s.setHeight h).script = s.script := rfl
@[simp] theorem setHeight_replies : (s.setHeight h).replies = s.replies := rfl

end

section
variable (s : State) (n : BitVec 9)

@[simp] theorem setNsym_cfg : (s.setNsym n).cfg = s.cfg := rfl
@[simp] theorem setNsym_inMem : (s.setNsym n).inMem = s.inMem := rfl
@[simp] theorem setNsym_inLen : (s.setNsym n).inLen = s.inLen := rfl
@[simp] theorem setNsym_outMem : (s.setNsym n).outMem = s.outMem := rfl
@[simp] theorem setNsym_outLen : (s.setNsym n).outLen = s.outLen := rfl
@[simp] theorem setNsym_cmd : (s.setNsym n).cmd = s.cmd := rfl
@[simp] theorem setNsym_status : (s.setNsym n).status = s.status := rfl
@[simp] theorem setNsym_runs : (s.setNsym n).runs = s.runs := rfl
@[simp] theorem setNsym_alpha : (s.setNsym n).alpha = s.alpha := rfl
@[simp] theorem setNsym_nodes : (s.setNsym n).nodes = s.nodes := rfl
@[simp] theorem setNsym_piDepth : (s.setNsym n).piDepth = s.piDepth := rfl
@[simp] theorem setNsym_piPath : (s.setNsym n).piPath = s.piPath := rfl
@[simp] theorem setNsym_piFound : (s.setNsym n).piFound = s.piFound := rfl
@[simp] theorem setNsym_wbyte : (s.setNsym n).wbyte = s.wbyte := rfl
@[simp] theorem setNsym_wcur : (s.setNsym n).wcur = s.wcur := rfl
@[simp] theorem setNsym_tbits : (s.setNsym n).tbits = s.tbits := rfl
@[simp] theorem setNsym_rbase : (s.setNsym n).rbase = s.rbase := rfl
@[simp] theorem setNsym_ridx : (s.setNsym n).ridx = s.ridx := rfl
@[simp] theorem setNsym_rcur : (s.setNsym n).rcur = s.rcur := rfl
@[simp] theorem setNsym_rbits : (s.setNsym n).rbits = s.rbits := rfl
@[simp] theorem setNsym_rtotal : (s.setNsym n).rtotal = s.rtotal := rfl
@[simp] theorem setNsym_mdb : (s.setNsym n).mdb = s.mdb := rfl
@[simp] theorem setNsym_height : (s.setNsym n).height = s.height := rfl
@[simp] theorem setNsym_nsym : (s.setNsym n).nsym = n := rfl
@[simp] theorem setNsym_phase : (s.setNsym n).phase = s.phase := rfl
@[simp] theorem setNsym_ret : (s.setNsym n).ret = s.ret := rfl
@[simp] theorem setNsym_script : (s.setNsym n).script = s.script := rfl
@[simp] theorem setNsym_replies : (s.setNsym n).replies = s.replies := rfl

end

section
variable (s : State) (p : Phase)

@[simp] theorem setPhase_cfg : (s.setPhase p).cfg = s.cfg := rfl
@[simp] theorem setPhase_inMem : (s.setPhase p).inMem = s.inMem := rfl
@[simp] theorem setPhase_inLen : (s.setPhase p).inLen = s.inLen := rfl
@[simp] theorem setPhase_outMem : (s.setPhase p).outMem = s.outMem := rfl
@[simp] theorem setPhase_outLen : (s.setPhase p).outLen = s.outLen := rfl
@[simp] theorem setPhase_cmd : (s.setPhase p).cmd = s.cmd := rfl
@[simp] theorem setPhase_status : (s.setPhase p).status = s.status := rfl
@[simp] theorem setPhase_runs : (s.setPhase p).runs = s.runs := rfl
@[simp] theorem setPhase_alpha : (s.setPhase p).alpha = s.alpha := rfl
@[simp] theorem setPhase_nodes : (s.setPhase p).nodes = s.nodes := rfl
@[simp] theorem setPhase_piDepth : (s.setPhase p).piDepth = s.piDepth := rfl
@[simp] theorem setPhase_piPath : (s.setPhase p).piPath = s.piPath := rfl
@[simp] theorem setPhase_piFound : (s.setPhase p).piFound = s.piFound := rfl
@[simp] theorem setPhase_wbyte : (s.setPhase p).wbyte = s.wbyte := rfl
@[simp] theorem setPhase_wcur : (s.setPhase p).wcur = s.wcur := rfl
@[simp] theorem setPhase_tbits : (s.setPhase p).tbits = s.tbits := rfl
@[simp] theorem setPhase_rbase : (s.setPhase p).rbase = s.rbase := rfl
@[simp] theorem setPhase_ridx : (s.setPhase p).ridx = s.ridx := rfl
@[simp] theorem setPhase_rcur : (s.setPhase p).rcur = s.rcur := rfl
@[simp] theorem setPhase_rbits : (s.setPhase p).rbits = s.rbits := rfl
@[simp] theorem setPhase_rtotal : (s.setPhase p).rtotal = s.rtotal := rfl
@[simp] theorem setPhase_mdb : (s.setPhase p).mdb = s.mdb := rfl
@[simp] theorem setPhase_height : (s.setPhase p).height = s.height := rfl
@[simp] theorem setPhase_nsym : (s.setPhase p).nsym = s.nsym := rfl
@[simp] theorem setPhase_phase : (s.setPhase p).phase = p := rfl
@[simp] theorem setPhase_ret : (s.setPhase p).ret = s.ret := rfl
@[simp] theorem setPhase_script : (s.setPhase p).script = s.script := rfl
@[simp] theorem setPhase_replies : (s.setPhase p).replies = s.replies := rfl

end

section
variable (s : State) (r : Ret)

@[simp] theorem setRet_cfg : (s.setRet r).cfg = s.cfg := rfl
@[simp] theorem setRet_inMem : (s.setRet r).inMem = s.inMem := rfl
@[simp] theorem setRet_inLen : (s.setRet r).inLen = s.inLen := rfl
@[simp] theorem setRet_outMem : (s.setRet r).outMem = s.outMem := rfl
@[simp] theorem setRet_outLen : (s.setRet r).outLen = s.outLen := rfl
@[simp] theorem setRet_cmd : (s.setRet r).cmd = s.cmd := rfl
@[simp] theorem setRet_status : (s.setRet r).status = s.status := rfl
@[simp] theorem setRet_runs : (s.setRet r).runs = s.runs := rfl
@[simp] theorem setRet_alpha : (s.setRet r).alpha = s.alpha := rfl
@[simp] theorem setRet_nodes : (s.setRet r).nodes = s.nodes := rfl
@[simp] theorem setRet_piDepth : (s.setRet r).piDepth = s.piDepth := rfl
@[simp] theorem setRet_piPath : (s.setRet r).piPath = s.piPath := rfl
@[simp] theorem setRet_piFound : (s.setRet r).piFound = s.piFound := rfl
@[simp] theorem setRet_wbyte : (s.setRet r).wbyte = s.wbyte := rfl
@[simp] theorem setRet_wcur : (s.setRet r).wcur = s.wcur := rfl
@[simp] theorem setRet_tbits : (s.setRet r).tbits = s.tbits := rfl
@[simp] theorem setRet_rbase : (s.setRet r).rbase = s.rbase := rfl
@[simp] theorem setRet_ridx : (s.setRet r).ridx = s.ridx := rfl
@[simp] theorem setRet_rcur : (s.setRet r).rcur = s.rcur := rfl
@[simp] theorem setRet_rbits : (s.setRet r).rbits = s.rbits := rfl
@[simp] theorem setRet_rtotal : (s.setRet r).rtotal = s.rtotal := rfl
@[simp] theorem setRet_mdb : (s.setRet r).mdb = s.mdb := rfl
@[simp] theorem setRet_height : (s.setRet r).height = s.height := rfl
@[simp] theorem setRet_nsym : (s.setRet r).nsym = s.nsym := rfl
@[simp] theorem setRet_phase : (s.setRet r).phase = s.phase := rfl
@[simp] theorem setRet_ret : (s.setRet r).ret = r := rfl
@[simp] theorem setRet_script : (s.setRet r).script = s.script := rfl
@[simp] theorem setRet_replies : (s.setRet r).replies = s.replies := rfl

end

section
variable (s : State) (l : List Line)

@[simp] theorem setScript_cfg : (s.setScript l).cfg = s.cfg := rfl
@[simp] theorem setScript_inMem : (s.setScript l).inMem = s.inMem := rfl
@[simp] theorem setScript_inLen : (s.setScript l).inLen = s.inLen := rfl
@[simp] theorem setScript_outMem : (s.setScript l).outMem = s.outMem := rfl
@[simp] theorem setScript_outLen : (s.setScript l).outLen = s.outLen := rfl
@[simp] theorem setScript_cmd : (s.setScript l).cmd = s.cmd := rfl
@[simp] theorem setScript_status : (s.setScript l).status = s.status := rfl
@[simp] theorem setScript_runs : (s.setScript l).runs = s.runs := rfl
@[simp] theorem setScript_alpha : (s.setScript l).alpha = s.alpha := rfl
@[simp] theorem setScript_nodes : (s.setScript l).nodes = s.nodes := rfl
@[simp] theorem setScript_piDepth : (s.setScript l).piDepth = s.piDepth := rfl
@[simp] theorem setScript_piPath : (s.setScript l).piPath = s.piPath := rfl
@[simp] theorem setScript_piFound : (s.setScript l).piFound = s.piFound := rfl
@[simp] theorem setScript_wbyte : (s.setScript l).wbyte = s.wbyte := rfl
@[simp] theorem setScript_wcur : (s.setScript l).wcur = s.wcur := rfl
@[simp] theorem setScript_tbits : (s.setScript l).tbits = s.tbits := rfl
@[simp] theorem setScript_rbase : (s.setScript l).rbase = s.rbase := rfl
@[simp] theorem setScript_ridx : (s.setScript l).ridx = s.ridx := rfl
@[simp] theorem setScript_rcur : (s.setScript l).rcur = s.rcur := rfl
@[simp] theorem setScript_rbits : (s.setScript l).rbits = s.rbits := rfl
@[simp] theorem setScript_rtotal : (s.setScript l).rtotal = s.rtotal := rfl
@[simp] theorem setScript_mdb : (s.setScript l).mdb = s.mdb := rfl
@[simp] theorem setScript_height : (s.setScript l).height = s.height := rfl
@[simp] theorem setScript_nsym : (s.setScript l).nsym = s.nsym := rfl
@[simp] theorem setScript_phase : (s.setScript l).phase = s.phase := rfl
@[simp] theorem setScript_ret : (s.setScript l).ret = s.ret := rfl
@[simp] theorem setScript_script : (s.setScript l).script = l := rfl
@[simp] theorem setScript_replies : (s.setScript l).replies = s.replies := rfl

end

section
variable (s : State) (l : List Reply)

@[simp] theorem setReplies_cfg : (s.setReplies l).cfg = s.cfg := rfl
@[simp] theorem setReplies_inMem : (s.setReplies l).inMem = s.inMem := rfl
@[simp] theorem setReplies_inLen : (s.setReplies l).inLen = s.inLen := rfl
@[simp] theorem setReplies_outMem : (s.setReplies l).outMem = s.outMem := rfl
@[simp] theorem setReplies_outLen : (s.setReplies l).outLen = s.outLen := rfl
@[simp] theorem setReplies_cmd : (s.setReplies l).cmd = s.cmd := rfl
@[simp] theorem setReplies_status : (s.setReplies l).status = s.status := rfl
@[simp] theorem setReplies_runs : (s.setReplies l).runs = s.runs := rfl
@[simp] theorem setReplies_alpha : (s.setReplies l).alpha = s.alpha := rfl
@[simp] theorem setReplies_nodes : (s.setReplies l).nodes = s.nodes := rfl
@[simp] theorem setReplies_piDepth : (s.setReplies l).piDepth = s.piDepth := rfl
@[simp] theorem setReplies_piPath : (s.setReplies l).piPath = s.piPath := rfl
@[simp] theorem setReplies_piFound : (s.setReplies l).piFound = s.piFound := rfl
@[simp] theorem setReplies_wbyte : (s.setReplies l).wbyte = s.wbyte := rfl
@[simp] theorem setReplies_wcur : (s.setReplies l).wcur = s.wcur := rfl
@[simp] theorem setReplies_tbits : (s.setReplies l).tbits = s.tbits := rfl
@[simp] theorem setReplies_rbase : (s.setReplies l).rbase = s.rbase := rfl
@[simp] theorem setReplies_ridx : (s.setReplies l).ridx = s.ridx := rfl
@[simp] theorem setReplies_rcur : (s.setReplies l).rcur = s.rcur := rfl
@[simp] theorem setReplies_rbits : (s.setReplies l).rbits = s.rbits := rfl
@[simp] theorem setReplies_rtotal : (s.setReplies l).rtotal = s.rtotal := rfl
@[simp] theorem setReplies_mdb : (s.setReplies l).mdb = s.mdb := rfl
@[simp] theorem setReplies_height : (s.setReplies l).height = s.height := rfl
@[simp] theorem setReplies_nsym : (s.setReplies l).nsym = s.nsym := rfl
@[simp] theorem setReplies_phase : (s.setReplies l).phase = s.phase := rfl
@[simp] theorem setReplies_ret : (s.setReplies l).ret = s.ret := rfl
@[simp] theorem setReplies_script : (s.setReplies l).script = s.script := rfl
@[simp] theorem setReplies_replies : (s.setReplies l).replies = l := rfl

end

section
variable (f : FaultCode) (s : State)

@[simp] theorem faultEntry_cfg : (faultEntry f s).cfg = s.cfg := rfl
@[simp] theorem faultEntry_inMem : (faultEntry f s).inMem = s.inMem := rfl
@[simp] theorem faultEntry_inLen : (faultEntry f s).inLen = s.inLen := rfl
@[simp] theorem faultEntry_outMem : (faultEntry f s).outMem = s.outMem := rfl
@[simp] theorem faultEntry_outLen : (faultEntry f s).outLen = 0 := rfl
@[simp] theorem faultEntry_cmd : (faultEntry f s).cmd = s.cmd := rfl
@[simp] theorem faultEntry_status : (faultEntry f s).status = statusErr f := rfl
@[simp] theorem faultEntry_runs : (faultEntry f s).runs = s.runs := rfl
@[simp] theorem faultEntry_alpha : (faultEntry f s).alpha = s.alpha := rfl
@[simp] theorem faultEntry_nodes : (faultEntry f s).nodes = s.nodes := rfl
@[simp] theorem faultEntry_piDepth : (faultEntry f s).piDepth = s.piDepth := rfl
@[simp] theorem faultEntry_piPath : (faultEntry f s).piPath = s.piPath := rfl
@[simp] theorem faultEntry_piFound : (faultEntry f s).piFound = s.piFound := rfl
@[simp] theorem faultEntry_wbyte : (faultEntry f s).wbyte = s.wbyte := rfl
@[simp] theorem faultEntry_wcur : (faultEntry f s).wcur = s.wcur := rfl
@[simp] theorem faultEntry_tbits : (faultEntry f s).tbits = s.tbits := rfl
@[simp] theorem faultEntry_rbase : (faultEntry f s).rbase = s.rbase := rfl
@[simp] theorem faultEntry_ridx : (faultEntry f s).ridx = s.ridx := rfl
@[simp] theorem faultEntry_rcur : (faultEntry f s).rcur = s.rcur := rfl
@[simp] theorem faultEntry_rbits : (faultEntry f s).rbits = s.rbits := rfl
@[simp] theorem faultEntry_rtotal : (faultEntry f s).rtotal = s.rtotal := rfl
@[simp] theorem faultEntry_mdb : (faultEntry f s).mdb = s.mdb := rfl
@[simp] theorem faultEntry_height : (faultEntry f s).height = s.height := rfl
@[simp] theorem faultEntry_nsym : (faultEntry f s).nsym = s.nsym := rfl
@[simp] theorem faultEntry_phase : (faultEntry f s).phase = .idle := rfl
@[simp] theorem faultEntry_ret : (faultEntry f s).ret = s.ret := rfl
@[simp] theorem faultEntry_script : (faultEntry f s).script = s.script := rfl
@[simp] theorem faultEntry_replies : (faultEntry f s).replies = s.replies := rfl

end

section
variable (s : State)

@[simp] theorem commandDone_cfg : (commandDone s).cfg = s.cfg := rfl
@[simp] theorem commandDone_inMem : (commandDone s).inMem = s.inMem := rfl
@[simp] theorem commandDone_inLen : (commandDone s).inLen = s.inLen := rfl
@[simp] theorem commandDone_outMem : (commandDone s).outMem = s.outMem := rfl
@[simp] theorem commandDone_outLen : (commandDone s).outLen = s.outLen := rfl
@[simp] theorem commandDone_cmd : (commandDone s).cmd = s.cmd := rfl
@[simp] theorem commandDone_status : (commandDone s).status = statusOk := rfl
@[simp] theorem commandDone_runs : (commandDone s).runs = s.runs := rfl
@[simp] theorem commandDone_alpha : (commandDone s).alpha = s.alpha := rfl
@[simp] theorem commandDone_nodes : (commandDone s).nodes = s.nodes := rfl
@[simp] theorem commandDone_piDepth : (commandDone s).piDepth = s.piDepth := rfl
@[simp] theorem commandDone_piPath : (commandDone s).piPath = s.piPath := rfl
@[simp] theorem commandDone_piFound : (commandDone s).piFound = s.piFound := rfl
@[simp] theorem commandDone_wbyte : (commandDone s).wbyte = s.wbyte := rfl
@[simp] theorem commandDone_wcur : (commandDone s).wcur = s.wcur := rfl
@[simp] theorem commandDone_tbits : (commandDone s).tbits = s.tbits := rfl
@[simp] theorem commandDone_rbase : (commandDone s).rbase = s.rbase := rfl
@[simp] theorem commandDone_ridx : (commandDone s).ridx = s.ridx := rfl
@[simp] theorem commandDone_rcur : (commandDone s).rcur = s.rcur := rfl
@[simp] theorem commandDone_rbits : (commandDone s).rbits = s.rbits := rfl
@[simp] theorem commandDone_rtotal : (commandDone s).rtotal = s.rtotal := rfl
@[simp] theorem commandDone_mdb : (commandDone s).mdb = s.mdb := rfl
@[simp] theorem commandDone_height : (commandDone s).height = s.height := rfl
@[simp] theorem commandDone_nsym : (commandDone s).nsym = s.nsym := rfl
@[simp] theorem commandDone_phase : (commandDone s).phase = .idle := rfl
@[simp] theorem commandDone_ret : (commandDone s).ret = s.ret := rfl
@[simp] theorem commandDone_script : (commandDone s).script = s.script := rfl
@[simp] theorem commandDone_replies : (commandDone s).replies = s.replies := rfl

end

end Sys2Proof.Machine
end

