-- ==== Sys2Proof/Laws/Ops.lean ====
section
/-! SUPPORT. What each shared operation of Machine/Ops.lean can do, said once; and one induction for every sequence of
operations: what each part does to the state, the whole does (`Within`). -/

namespace Sys2Proof.Machine

/-! ### The operations, evaluated -/

theorem bind_apply {α β : Type} (x : Op α) (f : α → Op β) (s : State) :
    (x >>= f) s = match x s with
      | .ok a t => f a t
      | .error e t => .error e t := by
  change EStateM.bind x f s = _
  unfold EStateM.bind
  cases x s <;> rfl

@[simp] theorem bind_of_ok {α β : Type} {x : Op α} {f : α → Op β} {s t : State} {a : α} (h : x s = .ok a t) :
    (x >>= f) s = f a t := by
  rw [bind_apply, h]

@[simp] theorem bind_of_error {α β : Type} {x : Op α} {f : α → Op β} {s t : State} {e : FaultCode}
    (h : x s = .error e t) : (x >>= f) s = .error e t := by
  rw [bind_apply, h]

@[simp] theorem pure_apply {α : Type} (a : α) (s : State) : (pure a : Op α) s = .ok a s := rfl

@[simp] theorem raise_apply {α : Type} (f : FaultCode) (s : State) : (raise f : Op α) s = .error f s := rfl

@[simp] theorem look_apply {α : Type} (f : State → α) (s : State) : look f s = .ok (f s) s := rfl

@[simp] theorem update_apply (f : State → State) (s : State) : update f s = .ok () (f s) := rfl

@[simp] theorem enter_apply (p : Phase) (s : State) : enter p s = .ok () (s.setPhase p) := rfl

theorem raiseIf_of_false {c : State → Bool} {s : State} (f : FaultCode) (h : c s = false) :
    raiseIf c f s = .ok () s := by simp [raiseIf, h]

theorem raiseIf_of_true {c : State → Bool} {s : State} (f : FaultCode) (h : c s = true) :
    raiseIf c f s = .error f s := by simp [raiseIf, h]

/-- A sequence that goes on went on in both parts. -/
theorem bind_ok {α β : Type} {x : Op α} {f : α → Op β} {s u : State} {b : β} (h : (x >>= f) s = .ok b u) :
    ∃ a t, x s = .ok a t ∧ f a t = .ok b u := by
  rw [bind_apply] at h
  split at h
  · exact ⟨_, _, by assumption, h⟩
  · cases h

/-- A sequence that raises raised in its first part, or went on there and raised in the second. -/
theorem bind_error {α β : Type} {x : Op α} {f : α → Op β} {s u : State} {e : FaultCode}
    (h : (x >>= f) s = .error e u) :
    x s = .error e u ∨ ∃ a t, x s = .ok a t ∧ f a t = .error e u := by
  rw [bind_apply] at h
  split at h
  · exact .inr ⟨_, _, by assumption, h⟩
  · exact .inl (by simp_all)

/-! ### What the primitives can do -/

/-- If `MemRead` answers, the bytes were inside `IN` and it read them (20_memory.md R63). -/
theorem memRead_ok {a n v : Nat} {s t : State} (h : memRead a n s = .ok v t) :
    a + n ≤ s.inLen.toNat ∧ v = s.inMem.load a n ∧ t = s := by
  unfold memRead at h
  split at h
  · cases h; exact ⟨by assumption, rfl, rfl⟩
  · cases h

theorem memRead_error {a n : Nat} {s t : State} {f : FaultCode} (h : memRead a n s = .error f t) :
    s.inLen.toNat < a + n ∧ f = .internalInvariant ∧ t = s := by
  unfold memRead at h
  split at h
  · cases h
  · cases h; exact ⟨by omega, rfl, rfl⟩

theorem memRead_of_le {a n : Nat} {s : State} (h : a + n ≤ s.inLen.toNat) :
    memRead a n s = .ok (s.inMem.load a n) s := if_pos h

/-- If `OutAppend` answers, the bytes fitted and were stored at `OUT_LEN`, which moved behind them (20_memory.md R65). -/
theorem outAppend_ok {n v : Nat} {s t : State} (h : outAppend n v s = .ok () t) :
    s.cfg.outFits (s.outLen + n) = true ∧ t = s.setOut (s.outMem.store s.outLen n v) (s.outLen + n) := by
  unfold outAppend at h
  split at h
  · cases h; exact ⟨by assumption, rfl⟩
  · cases h

theorem outAppend_error {n v : Nat} {s t : State} {f : FaultCode} (h : outAppend n v s = .error f t) :
    s.cfg.outFits (s.outLen + n) = false ∧ f = .outputOverflow ∧ t = s := by
  unfold outAppend at h
  split at h
  · cases h
  · cases h; exact ⟨by simp_all, rfl, rfl⟩

theorem outAppend_of_fits {n : Nat} {s : State} (v : Nat) (h : s.cfg.outFits (s.outLen + n) = true) :
    outAppend n v s = .ok () (s.setOut (s.outMem.store s.outLen n v) (s.outLen + n)) := if_pos h

/-- Whether bytes fit depends on `OUT_CAP` alone (20_memory.md R65). -/
theorem outFits_congr {c d : Config} (h : c.outCap = d.outCap) (n : Nat) : c.outFits n = d.outFits n := by
  unfold Config.outFits
  rw [h]

/-- Fewer bytes fit where more do. -/
theorem outFits_mono {c : Config} {m n : Nat} (h : c.outFits n = true) (hm : m ≤ n) : c.outFits m = true := by
  unfold Config.outFits at *
  split at h
  · simp_all
  · simp_all; omega

/-- The outcome of a micro-operation is always a next state. -/
theorem opOutcome_of_ok {body : Op Unit} {s t : State} (h : body s = .ok () t) : opOutcome body s = .next t := by
  simp [opOutcome, h]

theorem opOutcome_of_error {body : Op Unit} {s t : State} {f : FaultCode} (h : body s = .error f t) :
    opOutcome body s = .next (faultEntry f t) := by simp [opOutcome, h]

theorem retOutcome_of_ok {α : Type} {body : Op α} {wrap : α → Ret} {s t : State} {v : α} (h : body s = .ok v t) :
    retOutcome body wrap s = .next (t.setRet (wrap v)) := by simp [retOutcome, h]

theorem retOutcome_of_error {α : Type} {body : Op α} {wrap : α → Ret} {s t : State} {f : FaultCode}
    (h : body s = .error f t) : retOutcome body wrap s = .next (faultEntry f t) := by simp [retOutcome, h]

theorem commandOutcome_of_ok {body : Op Unit} {s t : State} (h : body s = .ok () t) :
    commandOutcome body s = .next (commandDone t) := by simp [commandOutcome, h]

theorem commandOutcome_of_error {body : Op Unit} {s t : State} {f : FaultCode} (h : body s = .error f t) :
    commandOutcome body s = .next (faultEntry f t) := by simp [commandOutcome, h]

/-! ### One induction for every sequence of operations -/

/-- Whatever the operation does, going on or raising, takes the state it started from to a related one. -/
def Within {α : Type} (R : State → State → Prop) (x : Op α) : Prop :=
  ∀ s, match x s with
    | .ok _ t => R s t
    | .error _ t => R s t

/-- A relation that operations can be chained in. -/
structure Chains (R : State → State → Prop) : Prop where
  /-- Doing nothing stays within. -/
  refl : ∀ s, R s s
  /-- One operation after another stays within. -/
  trans : ∀ s t u, R s t → R t u → R s u

/-- "The property `P` is kept" as a relation. -/
def Kept (P : State → Prop) (s t : State) : Prop := P s → P t

/-- "The part of the state that `f` reads is unchanged" as a relation. -/
def Same {α : Type} (f : State → α) (s t : State) : Prop := f t = f s

theorem kept_chains (P : State → Prop) : Chains (Kept P) := ⟨fun _ h => h, fun _ _ _ h1 h2 h => h2 (h1 h)⟩

theorem same_chains {α : Type} (f : State → α) : Chains (Same f) := ⟨fun _ => rfl, fun _ _ _ h1 h2 => h2.trans h1⟩

theorem Within.ok {α : Type} {R : State → State → Prop} {x : Op α} (h : Within R x) {s t : State} {a : α}
    (hx : x s = .ok a t) : R s t := by
  have := h s
  rwa [hx] at this

theorem Within.error {α : Type} {R : State → State → Prop} {x : Op α} (h : Within R x) {s t : State} {f : FaultCode}
    (hx : x s = .error f t) : R s t := by
  have := h s
  rwa [hx] at this

section
variable {R : State → State → Prop} {α β : Type}

theorem within_pure (hR : Chains R) (a : α) : Within R (pure a : Op α) := fun s => hR.refl s

theorem within_bind (hR : Chains R) {x : Op α} {f : α → Op β} (hx : Within R x) (hf : ∀ a, Within R (f a)) :
    Within R (x >>= f) := by
  intro s
  have h1 := hx s
  rw [bind_apply]
  cases h : x s with
  | error e t => simpa [h] using h1
  | ok a t =>
    rw [h] at h1
    have h2 := hf a t
    simp only at h1 ⊢
    cases h' : f a t with
    | ok b u => rw [h'] at h2; exact hR.trans _ _ _ h1 h2
    | error e u => rw [h'] at h2; exact hR.trans _ _ _ h1 h2

theorem within_raise (hR : Chains R) (f : FaultCode) : Within R (raise f : Op α) := fun s => hR.refl s

theorem within_look (hR : Chains R) (f : State → α) : Within R (look f) := fun s => hR.refl s

theorem within_update {f : State → State} (h : ∀ s, R s (f s)) : Within R (update f) := h

theorem within_raiseIf (hR : Chains R) (c : State → Bool) (f : FaultCode) : Within R (raiseIf c f) := by
  intro s
  unfold raiseIf
  cases c s <;> exact hR.refl s

theorem within_memRead (hR : Chains R) (a n : Nat) : Within R (memRead a n) := by
  intro s
  by_cases h : a + n ≤ s.inLen.toNat
  · simpa [memRead, h] using hR.refl s
  · simpa [memRead, h] using hR.refl s

theorem within_outAppend (hR : Chains R) (n v : Nat)
    (h : ∀ s, s.cfg.outFits (s.outLen + n) = true → R s (s.setOut (s.outMem.store s.outLen n v) (s.outLen + n))) :
    Within R (outAppend n v) := by
  intro s
  unfold outAppend
  by_cases hf : s.cfg.outFits (s.outLen + n) = true
  · simpa [hf] using h s hf
  · simpa [hf] using hR.refl s

theorem within_ite (c : Prop) [Decidable c] {x y : Op α} (hx : Within R x) (hy : Within R y) :
    Within R (if c then x else y) := by
  split
  · exact hx
  · exact hy

theorem within_forEach (hR : Chains R) (l : List α) {body : α → Op Unit} (h : ∀ a ∈ l, Within R (body a)) :
    Within R (forEach l body) := by
  induction l with
  | nil => exact within_pure hR ()
  | cons a l ih =>
    exact within_bind hR (h a (List.mem_cons_self ..)) fun _ => ih fun b hb => h b (List.mem_cons_of_mem _ hb)

theorem within_repeatOp (hR : Chains R) (n : Nat) {body : Op Unit} (h : Within R body) :
    Within R (repeatOp n body) := by
  induction n with
  | zero => exact within_pure hR ()
  | succ n ih => exact within_bind hR h fun _ => ih

theorem within_countUp (hR : Chains R) (k i : Nat) {body : Nat → Op Unit} (h : ∀ j, Within R (body j)) :
    Within R (countUp k i body) := by
  induction k generalizing i with
  | zero => exact within_pure hR ()
  | succ k ih => exact within_bind hR (h i) fun _ => ih (i + 1)

end

/-- A loop over two lists is the one loop and then the other. -/
theorem forEach_append {α : Type} (l m : List α) (body : α → Op Unit) (s : State) :
    forEach (l ++ m) body s = (forEach l body >>= fun _ => forEach m body) s := by
  induction l generalizing s with
  | nil => rfl
  | cons a l ih =>
    simp only [List.cons_append, forEach]
    rw [bind_apply, bind_apply, bind_apply]
    cases body a s with
    | ok _ t => simpa [bind_apply] using ih t
    | error _ _ => rfl

/-- A counted loop is the loop over the indices it counts. -/
theorem countUp_eq_forEach (k i : Nat) (body : Nat → Op Unit) :
    countUp k i body = forEach (List.range' i k) body := by
  induction k generalizing i with
  | zero => rfl
  | succ k ih => simp only [countUp, List.range'_succ, forEach, ih]

/-- A repetition is the loop over a list of its length. -/
theorem repeatOp_eq_forEach (n : Nat) (body : Op Unit) :
    repeatOp n body = forEach (List.replicate n ()) fun _ => body := by
  induction n with
  | zero => rfl
  | succ n ih => simp only [repeatOp, List.replicate_succ, forEach, ih]

/-! ### The status word and the fault entry -/

theorem statusWord_toNat (a : BitVec 2) (c : BitVec 8) : (statusWord a c).toNat = c.toNat * 256 + a.toNat := by
  have h : statusWord a c = (c ++ (0 : BitVec 6)) ++ a := rfl
  have ha := a.isLt
  rw [h, BitVec.toNat_append, BitVec.toNat_append, Nat.shiftLeft_eq, Nat.shiftLeft_eq]
  have h0 : (0 : BitVec 6).toNat = 0 := rfl
  rw [h0, Nat.or_zero, ← Nat.shiftLeft_eq, ← Nat.shiftLeft_add_eq_or_of_lt ha, Nat.shiftLeft_eq]
  omega

@[simp] theorem statusState_word (a : BitVec 2) (c : BitVec 8) : statusState (statusWord a c) = a := by
  apply BitVec.eq_of_toNat_eq
  have ha := a.isLt
  simp only [statusState, BitVec.extractLsb'_toNat, statusWord_toNat, Nat.shiftRight_eq_div_pow]
  omega

@[simp] theorem statusErrcode_word (a : BitVec 2) (c : BitVec 8) : statusErrcode (statusWord a c) = c := by
  apply BitVec.eq_of_toNat_eq
  have ha := a.isLt
  have hc := c.isLt
  simp only [statusErrcode, BitVec.extractLsb'_toNat, statusWord_toNat, Nat.shiftRight_eq_div_pow]
  omega

@[simp] theorem statusReserved_word (a : BitVec 2) (c : BitVec 8) : statusReserved (statusWord a c) = 0 := by
  apply BitVec.eq_of_toNat_eq
  have ha := a.isLt
  have h0 : (0 : BitVec 6).toNat = 0 := rfl
  rw [h0]
  simp only [statusReserved, BitVec.extractLsb'_toNat, statusWord_toNat, Nat.shiftRight_eq_div_pow]
  omega

theorem statusErr_ne_statusOk (f : FaultCode) : statusErr f ≠ statusOk := by cases f <;> decide

theorem statusErr_inj {f g : FaultCode} (h : statusErr f = statusErr g) : f = g := by
  revert h; cases f <;> cases g <;> decide

end Sys2Proof.Machine
end

