-- ==== Sys2Proof/Laws/Alphabet.lean ====
section
/-! SUPPORT. What the operations of the Alphabet Builder can do, each said once. -/

namespace Sys2Proof.Machine

/-! ### `ALPHA.FOLD` -/

/-- A letter is added to exactly when the alphabet has one with its symbol; the symbols stay as they are. -/
theorem addToLetter_spec (x : Sym) (c : Nat) (a : List Letter) :
    (addToLetter x c a = none ∧ x ∉ a.map (·.sym)) ∨
    ∃ before l after, a = before ++ l :: after ∧ l.sym = x ∧ x ∉ before.map (·.sym) ∧
      addToLetter x c a = some (before ++ { l with freq := l.freq + c } :: after) := by
  induction a with
  | nil => exact .inl ⟨rfl, by simp⟩
  | cons l ls ih =>
    by_cases hl : l.sym = x
    · exact .inr ⟨[], l, ls, rfl, hl, by simp, by simp [addToLetter, hl]⟩
    · rcases ih with ⟨h1, h2⟩ | ⟨before, k, after, h1, h2, h3, h4⟩
      · exact .inl ⟨by simp [addToLetter, hl, h1], by
          simp only [List.map_cons, List.mem_cons, not_or]
          exact ⟨fun h => hl h.symm, h2⟩⟩
      · refine .inr ⟨l :: before, k, after, by simp [h1], h2, ?_, by simp [addToLetter, hl, h4]⟩
        simp only [List.map_cons, List.mem_cons, not_or]
        exact ⟨fun h => hl h.symm, h3⟩

/-- The symbols of the alphabet after a run has been added: the same, or the run's one more. -/
theorem addToLetter_syms {x : Sym} {c : Nat} {a b : List Letter} (h : addToLetter x c a = some b) :
    b.map (·.sym) = a.map (·.sym) ∧ b.length = a.length ∧ x ∈ a.map (·.sym) := by
  rcases addToLetter_spec x c a with ⟨h1, _⟩ | ⟨before, l, after, rfl, rfl, _, h4⟩
  · rw [h1] at h; cases h
  · rw [h4] at h
    cases h
    exact ⟨by simp, by simp, by simp⟩

/-- All that one turn of the loop of `ALPHA.FOLD` can do (41_alphabet.md R141). -/
theorem foldRun_cases (r : Run) (s : State) :
    (∃ a, addToLetter r.sym r.count.toNat s.alpha = some a ∧ foldRun r s = .ok () (s.setAlpha a)) ∨
    (r.sym ∉ s.alpha.map (·.sym) ∧ s.alpha.length ≠ alphaMax ∧
      foldRun r s = .ok () (s.setAlpha (s.alpha ++ [{ sym := r.sym, freq := r.count.toNat }]))) ∨
    (r.sym ∉ s.alpha.map (·.sym) ∧ s.alpha.length = alphaMax ∧ foldRun r s = .error .invalidAlphabetSize s) := by
  unfold foldRun
  cases h : addToLetter r.sym r.count.toNat s.alpha with
  | some a => exact .inl ⟨a, rfl, rfl⟩
  | none =>
    have hx : r.sym ∉ s.alpha.map (·.sym) := by
      rcases addToLetter_spec r.sym r.count.toNat s.alpha with ⟨_, h2⟩ | ⟨_, _, _, _, _, _, h4⟩
      · exact h2
      · rw [h4] at h; cases h
    by_cases hl : s.alpha.length = alphaMax
    · exact .inr (.inr ⟨hx, hl, by simp [hl]⟩)
    · exact .inr (.inl ⟨hx, hl, by simp [hl]⟩)

/-! ### `ALPHA.SORT` -/

/-- The inserted letter stands behind every letter of no smaller frequency that leads the list, before the first smaller
one (41_alphabet.md R142). -/
theorem insertLetter_spec (e : Letter) (a : List Letter) :
    ∃ before after, a = before ++ after ∧ insertLetter e a = before ++ e :: after ∧
      (∀ l ∈ before, e.freq ≤ l.freq) ∧ ∀ l, after.head? = some l → l.freq < e.freq := by
  induction a with
  | nil => exact ⟨[], [], rfl, rfl, by simp, by simp⟩
  | cons l ls ih =>
    by_cases h : l.freq < e.freq
    · exact ⟨[], l :: ls, rfl, by simp [insertLetter, h], by simp, by simp [h]⟩
    · obtain ⟨before, after, h1, h2, h3, h4⟩ := ih
      refine ⟨l :: before, after, by simp [h1], by simp [insertLetter, h, h2], ?_, h4⟩
      intro k hk
      rcases List.mem_cons.mp hk with rfl | hk
      · omega
      · exact h3 k hk

theorem insertLetter_perm (e : Letter) (a : List Letter) : (insertLetter e a).Perm (e :: a) := by
  obtain ⟨before, after, rfl, h2, _⟩ := insertLetter_spec e a
  rw [h2]
  exact List.perm_middle

/-- An insertion keeps the table sorted. -/
theorem insertLetter_sorted {e : Letter} {a : List Letter} (h : a.Pairwise fun x y => y.freq ≤ x.freq) :
    (insertLetter e a).Pairwise fun x y => y.freq ≤ x.freq := by
  obtain ⟨before, after, rfl, h2, h3, h4⟩ := insertLetter_spec e a
  rw [h2]
  rw [List.pairwise_append] at h ⊢
  obtain ⟨hb, ha, hba⟩ := h
  have hafter : ∀ l ∈ after, l.freq ≤ e.freq := by
    intro l hl
    cases after with
    | nil => cases hl
    | cons k ks =>
      have hk := h4 k rfl
      rcases List.mem_cons.mp hl with rfl | hl
      · omega
      · have := (List.pairwise_cons.mp ha).1 l hl
        omega
  refine ⟨hb, List.pairwise_cons.mpr ⟨hafter, ha⟩, ?_⟩
  intro x hx y hy
  rcases List.mem_cons.mp hy with rfl | hy
  · exact h3 x hx
  · exact hba x hx y hy

/-- Among letters of one frequency the inserted letter comes last: the sort is stable. -/
theorem insertLetter_stable {e : Letter} {a : List Letter} (h : a.Pairwise fun x y => y.freq ≤ x.freq) (f : Nat) :
    (insertLetter e a).filter (fun l => l.freq = f) = (a ++ [e]).filter fun l => l.freq = f := by
  obtain ⟨before, after, rfl, h2, _, h4⟩ := insertLetter_spec e a
  rw [h2]
  have ha := (List.pairwise_append.mp h).2.1
  have hafter : ∀ l ∈ after, l.freq < e.freq := by
    intro l hl
    cases after with
    | nil => cases hl
    | cons k ks =>
      have hk := h4 k rfl
      rcases List.mem_cons.mp hl with rfl | hl
      · exact hk
      · have := (List.pairwise_cons.mp ha).1 l hl
        omega
  by_cases hf : e.freq = f
  · have : after.filter (fun l => decide (l.freq = f)) = [] := by
      rw [List.filter_eq_nil_iff]
      intro l hl
      have := hafter l hl
      simp; omega
    simp [List.filter_append, hf, this]
  · simp [List.filter_append, hf]

/-- What `ALPHA.SORT` leaves (41_alphabet.md R142): the same letters, sorted, letters of one frequency in the order they
had. -/
theorem sortLetters_spec (a : List Letter) :
    (sortLetters a).Perm a ∧ (sortLetters a).Pairwise (fun x y => y.freq ≤ x.freq) ∧
      ∀ f : Nat, ((sortLetters a).filter fun l => l.freq = f) = a.filter fun l => l.freq = f := by
  have key : ∀ (a done : List Letter), done.Pairwise (fun x y => y.freq ≤ x.freq) →
      (a.foldl (fun d e => insertLetter e d) done).Perm (done ++ a) ∧
      (a.foldl (fun d e => insertLetter e d) done).Pairwise (fun x y => y.freq ≤ x.freq) ∧
      ∀ f : Nat, ((a.foldl (fun d e => insertLetter e d) done).filter fun l => l.freq = f) =
        (done ++ a).filter fun l => l.freq = f := by
    intro a
    induction a with
    | nil => intro done h; exact ⟨by simp, h, by simp⟩
    | cons e a ih =>
      intro done h
      obtain ⟨h1, h2, h3⟩ := ih (insertLetter e done) (insertLetter_sorted h)
      refine ⟨?_, h2, ?_⟩
      · refine h1.trans ?_
        refine ((insertLetter_perm e done).append_right a).trans ?_
        simpa using List.perm_middle.symm
      · intro f
        have h4 := h3 f
        rw [List.filter_append, insertLetter_stable h] at h4
        rw [List.foldl_cons, h4]
        simp [List.filter_append, List.filter_cons]
        split <;> simp
  simpa [sortLetters] using key a [] List.Pairwise.nil

@[simp] theorem alphaSort_apply (s : State) : alphaSort s = .ok () (s.setAlpha (sortLetters s.alpha)) := rfl

/-- Duplicates erased, none is left. -/
theorem eraseDups_nodup : ∀ (n : Nat) (l : List Sym), l.length ≤ n → l.eraseDups.Nodup := by
  intro n
  induction n with
  | zero => intro l hl; have : l = [] := List.length_eq_zero_iff.mp (by omega); subst this; simp
  | succ n ih =>
    intro l hl
    cases l with
    | nil => simp
    | cons a l =>
      rw [List.eraseDups_cons, List.nodup_cons]
      refine ⟨fun h => ?_, ih _ ?_⟩
      · have := List.mem_eraseDups.mp h
        simp at this
      · have := List.length_filter_le (fun b => !b == a) l
        simp at hl; omega

/-- A list without duplicates is left as it is. -/
theorem eraseDups_of_nodup (l : List Sym) (h : l.Nodup) : l.eraseDups = l := by
  induction l with
  | nil => simp
  | cons a l ih =>
    rw [List.nodup_cons] at h
    rw [List.eraseDups_cons, List.filter_eq_self.mpr, ih h.2]
    intro b hb
    simpa using fun e : b = a => h.1 (e ▸ hb)

/-- What the loop of `ALPHA.FOLD` does from an alphabet that stands for the runs already folded (41_alphabet.md R141): one
letter per distinct symbol in order of first occurrence, its frequency the sum of its counts; a 257th symbol raises
`InvalidAlphabetSize`. -/
theorem foldRuns_spec (rs : List Run) : ∀ (done : List Run) (s : State),
    s.alpha.map (·.sym) = (done.map (·.sym)).eraseDups →
    (∀ l ∈ s.alpha, l.freq = ((done.filter fun r => r.sym = l.sym).map fun r => r.count.toNat).sum) →
    s.alpha.length ≤ 256 →
    (((done ++ rs).map (·.sym)).eraseDups.length ≤ 256 →
      ∃ a, forEach rs foldRun s = .ok () (s.setAlpha a) ∧ a.map (·.sym) = ((done ++ rs).map (·.sym)).eraseDups ∧
      ∀ l ∈ a, l.freq = (((done ++ rs).filter fun r => r.sym = l.sym).map fun r => r.count.toNat).sum) ∧
    (256 < ((done ++ rs).map (·.sym)).eraseDups.length →
      ∃ a, forEach rs foldRun s = .error .invalidAlphabetSize (s.setAlpha a)) := by
  induction rs with
  | nil =>
    intro done s h1 h2 h3
    refine ⟨fun _ => ⟨s.alpha, rfl, by simpa using h1, by simpa using h2⟩, fun h => ?_⟩
    rw [List.append_nil, ← h1] at h; simp at h; omega
  | cons r rs ih =>
    intro done s h1 h2 h3
    have e : done ++ r :: rs = (done ++ [r]) ++ rs := by simp
    rw [e]
    have hed : ((done ++ [r]).map (·.sym)).eraseDups =
      if r.sym ∈ (done.map (·.sym)).eraseDups then (done.map (·.sym)).eraseDups else (done.map (·.sym)).eraseDups ++ [r.sym] := by
      rw [List.map_append, List.eraseDups_append]
      by_cases hm : r.sym ∈ done.map (·.sym)
      · rw [if_pos (List.mem_eraseDups.mpr hm)]
        have hm' : ∃ a ∈ done, a.sym = r.sym := by simpa using hm
        simp [List.removeAll, hm']
      · rw [if_neg (fun h => hm (List.mem_eraseDups.mp h))]
        have hc : (done.map (·.sym)).contains r.sym = false := by
          rw [Bool.eq_false_iff]; intro hh; exact hm (List.contains_iff_mem.mp hh)
        simp only [List.map_cons, List.map_nil, List.removeAll, List.filter_cons, List.elem_eq_contains, hc, Bool.not_false, if_true, List.filter_nil]
        rfl
    have hsum : ∀ x : Sym, (((done ++ [r]).filter fun q => q.sym = x).map (fun q => q.count.toNat)).sum =
       (fun n => if r.sym = x then n + r.count.toNat else n) (((done.filter fun q => q.sym = x).map fun q => q.count.toNat).sum) := by
      intro x
      by_cases hx : r.sym = x <;> simp [List.filter_append, hx]
    rcases foldRun_cases r s with ⟨a, ha, hf⟩ | ⟨hn, hl, hf⟩ | ⟨hn, hl, hf⟩
    · obtain ⟨g1, g2, g3⟩ := addToLetter_syms ha
      have := ih (done ++ [r]) (s.setAlpha a) (by
        rw [hed, if_pos (by rw [← h1]; exact g3), ← h1]; exact g1) (by
        intro l hl
        rw [hsum]
        rcases addToLetter_spec r.sym r.count.toNat s.alpha with ⟨k1, _⟩ | ⟨before, k, after, k1, k2, k3, k4⟩
        · rw [k1] at ha; cases ha
        · rw [k4] at ha; cases ha
          have hnd : (s.alpha.map (·.sym)).Nodup := by rw [h1]; exact eraseDups_nodup _ _ (Nat.le_refl _)
          rw [k1] at hnd h2
          simp only [setAlpha_alpha, List.mem_append, List.mem_cons] at hl
          simp only [List.map_append, List.map_cons, List.nodup_append, List.nodup_cons] at hnd
          rcases hl with hl | rfl | hl
          · have hne : ¬ r.sym = l.sym := fun he => k3 (List.mem_map.mpr ⟨l, hl, he.symm⟩)
            simp only [hne, if_false]
            exact h2 l (by simp [hl])
          · simp only [k2, if_true]
            have := h2 k (by simp)
            rw [k2] at this
            rw [this]
          · have hne : ¬ r.sym = l.sym := fun he => hnd.2.1.1 (List.mem_map.mpr ⟨l, hl, by rw [k2, he]⟩)
            simp only [hne, if_false]
            exact h2 l (by simp [hl])) (by rw [setAlpha_alpha, g2]; exact h3)
      simp only [forEach]; rw [bind_of_ok hf]
      exact this
    · have := ih (done ++ [r]) (s.setAlpha (s.alpha ++ [{ sym := r.sym, freq := r.count.toNat }])) (by
        rw [hed, if_neg (by rw [← h1]; exact hn), ← h1]; simp) (by
        intro l hl
        rw [hsum]
        simp only [setAlpha_alpha, List.mem_append, List.mem_singleton] at hl
        rcases hl with hl | rfl
        · have hne : ¬ r.sym = l.sym := fun he => hn (List.mem_map.mpr ⟨l, hl, he.symm⟩)
          simp only [hne, if_false]
          exact h2 l hl
        · simp only [if_true]
          have : done.filter (fun q => decide (q.sym = r.sym)) = [] := by
            rw [List.filter_eq_nil_iff]
            intro q hq hqq
            apply hn
            rw [h1, List.mem_eraseDups]
            exact List.mem_map.mpr ⟨q, hq, by simpa using hqq⟩
          rw [this]; simp) (by simp; have : alphaMax = 256 := rfl; omega)
      simp only [forEach]; rw [bind_of_ok hf]
      exact this
    · have hlen : 256 < (((done ++ [r]) ++ rs).map (·.sym)).eraseDups.length := by
        rw [List.map_append, List.eraseDups_append, hed, if_neg (by rw [← h1]; exact hn), ← h1]
        have : alphaMax = 256 := rfl
        simp; omega
      refine ⟨fun h => by omega, fun _ => ⟨s.alpha, ?_⟩⟩
      simp only [forEach]; rw [bind_of_error hf]; rfl

end Sys2Proof.Machine
end

