-- ==== Sys2Proof/Laws/BitStream.lean ====
section
/-! SUPPORT. What the operations of the Bit Stream Writer and Reader can do, each said once. -/

namespace Sys2Proof.Machine

/-! ### Bits of a byte and of a number -/

/-- Bit `j` of the working byte after `BSW.WRITEBIT` (44_bitstream.md R181). -/
theorem withBit_getLsbD (byte : BitVec 8) (cur : BitVec 3) (b : Bool) (j : Nat) (hj : j < 8) :
    (withBit byte cur b).getLsbD j = if j = cur.toNat then b else byte.getLsbD j := by
  have hc := cur.isLt
  unfold withBit
  cases b <;>
    simp only [BitVec.getLsbD_or, BitVec.getLsbD_and, BitVec.getLsbD_not, BitVec.getLsbD_shiftLeft, hj,
      BitVec.getLsbD_one, BitVec.getLsbD_zero, if_true, if_false, Bool.false_eq_true]
  all_goals
    rcases Nat.lt_trichotomy j cur.toNat with h | h | h
    · simp [h, Nat.ne_of_lt h]
    · simp [h]
    · have h1 : ¬ j < cur.toNat := by omega
      have h2 : j ≠ cur.toNat := by omega
      have h3 : j - cur.toNat ≠ 0 := by omega
      simp [h1, h2, h3]

/-- `d | (b << i)` on a `d` of fewer than `i + 1` bits adds the bit's weight. -/
theorem withDepthBit_add {d i : Nat} (b : Bool) (h : d < 2 ^ i) : withDepthBit d i b = d + b.toNat * 2 ^ i := by
  unfold withDepthBit
  rw [Nat.shiftLeft_eq, Nat.or_comm, ← Nat.shiftLeft_eq, ← Nat.shiftLeft_add_eq_or_of_lt h, Nat.shiftLeft_eq,
    Nat.add_comm]

theorem bitsToNat_lt (bits : List Bool) : bitsToNat bits < 2 ^ bits.length := by
  induction bits with
  | nil => simp [bitsToNat]
  | cons b bs ih =>
    have := Bool.toNat_le b
    simp only [bitsToNat, List.length_cons, Nat.pow_succ]
    omega

theorem bitsToNat_append (xs ys : List Bool) : bitsToNat (xs ++ ys) = bitsToNat xs + 2 ^ xs.length * bitsToNat ys := by
  induction xs with
  | nil => simp [bitsToNat]
  | cons b bs ih =>
    simp only [List.cons_append, bitsToNat, ih, List.length_cons, Nat.pow_succ]
    ring

theorem testBit_bitsToNat (bits : List Bool) (i : Nat) : (bitsToNat bits).testBit i = bits.getD i false := by
  induction bits generalizing i with
  | nil => simp [bitsToNat]
  | cons b bs ih =>
    cases i with
    | zero => cases b <;> simp [bitsToNat, Nat.testBit_zero]
    | succ i =>
      have : (b.toNat + 2 * bitsToNat bs) / 2 = bitsToNat bs := by cases b <;> (simp; try omega)
      simp [bitsToNat, Nat.testBit_succ, this, ih]

@[simp] theorem streamBits_length (m : Memory) (base j n : Nat) : (streamBits m base j n).length = n := by
  simp [streamBits]

theorem streamBits_succ (m : Memory) (base j n : Nat) :
    streamBits m base j (n + 1) = streamBit m base j :: streamBits m base (j + 1) n := by
  simp only [streamBits, List.range_succ_eq_map, List.map_cons, List.map_map, Nat.add_zero]
  congr 1
  apply List.map_congr_left
  intro i _
  simp [Nat.add_comm, Nat.add_left_comm]

/-! ### The writer -/

/-- `BSW.WRITEBIT` never raises (44_bitstream.md R181). -/
@[simp] theorem bswWritebit_apply (b : Bool) (s : State) :
    bswWritebit b s = .ok () (s.setWriter (withBit s.wbyte s.wcur b) s.wcur s.tbits) := rfl

/-- All that `BSW.ADVANCE` can do (44_bitstream.md R182). -/
theorem bswAdvance_cases (s : State) :
    (s.tbits.toNat = 2 ^ 32 - 1 ∧ bswAdvance s = .error .bitCountOverflow s) ∨
    (s.tbits.toNat ≠ 2 ^ 32 - 1 ∧ s.wcur.toNat ≠ 7 ∧
      bswAdvance s = .ok () (s.setWriter s.wbyte (s.wcur + 1) (s.tbits + 1))) ∨
    (s.tbits.toNat ≠ 2 ^ 32 - 1 ∧ s.wcur.toNat = 7 ∧ s.cfg.outFits (s.outLen + 1) = true ∧
      bswAdvance s = .ok () ((s.setOut (s.outMem.write s.outLen s.wbyte) (s.outLen + 1)).setWriter 0 0
        (s.tbits + 1))) ∨
    (s.tbits.toNat ≠ 2 ^ 32 - 1 ∧ s.wcur.toNat = 7 ∧ s.cfg.outFits (s.outLen + 1) = false ∧
      bswAdvance s = .error .outputOverflow (s.setWriter s.wbyte s.wcur (s.tbits + 1))) := by
  unfold bswAdvance
  by_cases h1 : s.tbits.toNat = 2 ^ 32 - 1
  · refine .inl ⟨h1, ?_⟩
    rw [bind_apply, raiseIf_of_true _ (by simpa using h1)]
  · refine .inr ?_
    rw [bind_apply, raiseIf_of_false _ (by simpa using h1)]
    simp only [bind_apply, update_apply, look_apply, setWriter_wcur]
    by_cases h2 : s.wcur.toNat = 7
    · refine .inr ?_
      rw [if_pos h2]
      by_cases h3 : s.cfg.outFits (s.outLen + 1) = true
      · refine .inl ⟨h1, h2, h3, ?_⟩
        simp only [bind_apply, look_apply]
        rw [outAppend_of_fits _ (by simpa using h3)]
        simp [Memory.store]
        rfl
      · refine .inr ⟨h1, h2, by simpa using h3, ?_⟩
        simp only [bind_apply, look_apply]
        have h3' : s.cfg.outFits (s.outLen + 1) = false := by simpa using h3
        simp [outAppend, h3']
    · refine .inl ⟨h1, h2, ?_⟩
      rw [if_neg h2]
      rfl

/-- All that `BSW.FLUSH` can do (44_bitstream.md R183). -/
theorem bswFlush_cases (s : State) :
    (s.wcur.toNat = 0 ∧ bswFlush s = .ok () s) ∨
    (s.wcur.toNat ≠ 0 ∧ s.cfg.outFits (s.outLen + 1) = true ∧
      bswFlush s = .ok () ((s.setOut (s.outMem.write s.outLen s.wbyte) (s.outLen + 1)).setWriter 0 0 s.tbits)) ∨
    (s.wcur.toNat ≠ 0 ∧ s.cfg.outFits (s.outLen + 1) = false ∧ bswFlush s = .error .outputOverflow s) := by
  unfold bswFlush
  simp only [bind_apply, look_apply]
  by_cases h2 : s.wcur.toNat = 0
  · exact .inl ⟨h2, by simp [h2]⟩
  · refine .inr ?_
    rw [if_pos h2]
    simp only [bind_apply, look_apply]
    by_cases h3 : s.cfg.outFits (s.outLen + 1) = true
    · refine .inl ⟨h2, h3, ?_⟩
      rw [outAppend_of_fits _ h3]
      simp [Memory.store]
    · refine .inr ⟨h2, by simpa using h3, ?_⟩
      have h3' : s.cfg.outFits (s.outLen + 1) = false := by simpa using h3
      simp [outAppend, h3']

/-- All that `BSW.PUT` can do (44_bitstream.md R185): bit `WCUR` is set and the cursor moves on; with the eighth bit the
byte is appended. -/
theorem bswPut_cases (b : Bool) (s : State) :
    (s.tbits.toNat = 2 ^ 32 - 1 ∧ ∃ t, bswPut b s = .error .bitCountOverflow t) ∨
    (s.tbits.toNat ≠ 2 ^ 32 - 1 ∧ s.wcur.toNat ≠ 7 ∧
      bswPut b s = .ok () (s.setWriter (withBit s.wbyte s.wcur b) (s.wcur + 1) (s.tbits + 1))) ∨
    (s.tbits.toNat ≠ 2 ^ 32 - 1 ∧ s.wcur.toNat = 7 ∧ s.cfg.outFits (s.outLen + 1) = true ∧
      bswPut b s = .ok () ((s.setOut (s.outMem.write s.outLen (withBit s.wbyte s.wcur b)) (s.outLen + 1)).setWriter 0 0
        (s.tbits + 1))) ∨
    (s.tbits.toNat ≠ 2 ^ 32 - 1 ∧ s.wcur.toNat = 7 ∧ s.cfg.outFits (s.outLen + 1) = false ∧
      ∃ t, bswPut b s = .error .outputOverflow t) := by
  have hb : bswPut b s = bswAdvance (s.setWriter (withBit s.wbyte s.wcur b) s.wcur s.tbits) := rfl
  rw [hb]
  rcases bswAdvance_cases (s.setWriter (withBit s.wbyte s.wcur b) s.wcur s.tbits) with h | h | h | h
  · exact .inl ⟨h.1, _, h.2⟩
  · exact .inr (.inl h)
  · exact .inr (.inr (.inl h))
  · exact .inr (.inr (.inr ⟨h.1, h.2.1, h.2.2.1, _, h.2.2.2⟩))

/-! ### The reader -/

/-- The reader's place after one bit (44_bitstream.md R187). -/
def readerNext (s : State) : State :=
  if s.rcur.toNat = 7 then s.setReader (s.ridx + 1) 0 (s.rbits + 1) else s.setReader s.ridx (s.rcur + 1) (s.rbits + 1)

/-- All that `BSR.READBIT` can do (44_bitstream.md R187). -/
theorem bsrReadbit_cases (s : State) :
    (s.rbits.toNat < s.rtotal.toNat ∧ s.rbase.toNat + s.ridx.toNat < s.inLen.toNat ∧
      bsrReadbit s = .ok ((s.inMem.read (s.rbase.toNat + s.ridx.toNat)).getLsbD s.rcur.toNat) (readerNext s)) ∨
    ((s.rtotal.toNat ≤ s.rbits.toNat ∨ s.inLen.toNat ≤ s.rbase.toNat + s.ridx.toNat) ∧
      bsrReadbit s = .error .internalInvariant s) := by
  unfold bsrReadbit
  by_cases h1 : s.rtotal.toNat ≤ s.rbits.toNat
  · refine .inr ⟨.inl h1, ?_⟩
    rw [bind_apply, raiseIf_of_true _ (by simpa using h1)]
  · rw [bind_apply, raiseIf_of_false _ (by simpa using h1)]
    simp only [bind_apply, look_apply]
    by_cases h2 : s.rbase.toNat + s.ridx.toNat < s.inLen.toNat
    · refine .inl ⟨by omega, h2, ?_⟩
      rw [memRead_of_le (by omega)]
      simp only [update_apply, pure_apply, Memory.load, Nat.mul_zero, Nat.add_zero, bitAt]
      rfl
    · refine .inr ⟨.inr (by omega), ?_⟩
      simp [memRead, show ¬ (s.rbase.toNat + s.ridx.toNat + 1 ≤ s.inLen.toNat) by omega]

/-- On a placed reader with bits left, one step of the reader moves it one bit on. -/
theorem readerNext_placed {s : State} (hp : ReaderPlaced s) (hb : s.rbits.toNat < 2 ^ 32 - 1) :
    ReaderPlaced (readerNext s) ∧ (readerNext s).rbits.toNat = s.rbits.toNat + 1 := by
  have hp' : s.rbits.toNat = 8 * s.ridx.toNat + s.rcur.toNat := hp
  have hc := s.rcur.isLt
  have h1 : (s.rbits + 1).toNat = s.rbits.toNat + 1 := by
    rw [BitVec.toNat_add]
    change (s.rbits.toNat + 1) % 2 ^ 32 = _
    omega
  have h2 : (s.ridx + 1).toNat = s.ridx.toNat + 1 := by
    rw [BitVec.toNat_add]
    change (s.ridx.toNat + 1) % 2 ^ 32 = _
    omega
  unfold readerNext
  split
  · refine ⟨?_, by simpa using h1⟩
    change (s.rbits + 1).toNat = 8 * (s.ridx + 1).toNat + 0
    omega
  · refine ⟨?_, by simpa using h1⟩
    have h3 : (s.rcur + 1).toNat = s.rcur.toNat + 1 := by
      rw [BitVec.toNat_add]
      change (s.rcur.toNat + 1) % 2 ^ 3 = _
      omega
    change (s.rbits + 1).toNat = 8 * s.ridx.toNat + (s.rcur + 1).toNat
    omega

/-- On a placed reader with bits left inside `IN`, `BSR.READBIT` returns bit `RBITS` of the stream (44_bitstream.md R187,
20_memory.md R69). -/
theorem bsrReadbit_of_placed {s : State} (hp : ReaderPlaced s) (hb : s.rbits.toNat < s.rtotal.toNat)
    (hi : s.rbase.toNat + s.rbits.toNat / 8 < s.inLen.toNat) :
    bsrReadbit s = .ok (streamBit s.inMem s.rbase.toNat s.rbits.toNat) (readerNext s) := by
  have hp' : s.rbits.toNat = 8 * s.ridx.toNat + s.rcur.toNat := hp
  have hc := s.rcur.isLt
  have h1 : s.rbits.toNat / 8 = s.ridx.toNat := by omega
  have h2 : s.rbits.toNat % 8 = s.rcur.toNat := by omega
  rcases bsrReadbit_cases s with ⟨_, _, h⟩ | ⟨h, _⟩
  · rw [h]
    simp only [streamBit, h1, h2]
  · omega

theorem readerNext_eq (s : State) :
    readerNext s = s.setReader (readerNext s).ridx (readerNext s).rcur (readerNext s).rbits := by
  unfold readerNext
  split <;> rfl

end Sys2Proof.Machine
end

