-- ==== Sys2Proof/Laws/Tree.lean ====
section
/-! SUPPORT. What the tree operations can do on an arena that is a tree: the measures have values and obey the recursions
of 42_path_tree.md, the descent of `TREE.INSERT` ends where R152 says, and an insert keeps the arena a tree. -/

namespace Sys2Proof.Machine

variable {t : List Node}

/-! ### What `TreeOk` says of one node -/

theorem treeOk_node (h : TreeOk t) {n : Nat} {nd : Node} (hn : t[n]? = some nd) : nodeOk t n nd = true := by
  obtain ⟨hlt, rfl⟩ := List.getElem?_eq_some_iff.mp hn
  exact h.2.2 n hlt

theorem childOk_some {n c : Nat} (h : childOk t n (some c) = true) :
    n < c ∧ ∃ k, t[c]? = some k ∧ k.parent = n := by
  simp only [childOk, Bool.and_eq_true, decide_eq_true_eq, beq_iff_eq, Option.map_eq_some_iff] at h
  exact h

/-- A child stands later in the arena and names its parent (10_state.md R29, R30 b). -/
theorem treeOk_child (h : TreeOk t) {n c : Nat} {nd : Node} (hn : t[n]? = some nd)
    (hc : nd.left = some c ∨ nd.right = some c) : n < c ∧ c < t.length ∧ ∃ k, t[c]? = some k ∧ k.parent = n := by
  have hk := treeOk_node h hn
  simp only [nodeOk, Bool.and_eq_true] at hk
  obtain ⟨⟨⟨⟨⟨_, hl⟩, hr⟩, _⟩, _⟩, _⟩ := hk
  have key : n < c ∧ ∃ k, t[c]? = some k ∧ k.parent = n := by
    rcases hc with hc | hc
    · rw [hc] at hl; exact childOk_some hl
    · rw [hc] at hr; exact childOk_some hr
  obtain ⟨h1, k, h2, h3⟩ := key
  exact ⟨h1, (List.getElem?_eq_some_iff.mp h2).1, k, h2, h3⟩

/-- Every node but the root is a child of its parent (10_state.md R30 b). -/
theorem treeOk_parent (h : TreeOk t) {n : Nat} {nd : Node} (hn : t[n]? = some nd) (h0 : n ≠ 0) :
    ∃ pd, t[nd.parent]? = some pd ∧ (pd.left = some n ∨ pd.right = some n) := by
  have hk := treeOk_node h hn
  simp only [nodeOk, Bool.and_eq_true, if_neg h0] at hk
  have hp := hk.1.2
  unfold hasChild at hp
  split at hp
  · cases hp
  · next pd hpd =>
    refine ⟨pd, hpd, ?_⟩
    simpa using hp

theorem treeOk_root_parent (h : TreeOk t) {nd : Node} (hn : t[0]? = some nd) : nd.parent = 0 := by
  have hk := treeOk_node h hn
  simp only [nodeOk, Bool.and_eq_true, if_true, beq_iff_eq] at hk
  exact hk.1.2

/-- The two slots of a node never hold the same child. -/
theorem treeOk_distinct (h : TreeOk t) {n l r : Nat} {nd : Node} (hn : t[n]? = some nd) (hl : nd.left = some l)
    (hr : nd.right = some r) : l ≠ r := by
  have hk := treeOk_node h hn
  simp only [nodeOk, Bool.and_eq_true, hl, hr] at hk
  simpa using hk.1.1.2

/-- The left slot is filled before the right (10_state.md R30 a). -/
theorem treeOk_left (h : TreeOk t) {n : Nat} {nd : Node} (hn : t[n]? = some nd) (hl : nd.left = none) :
    nd.right = none := by
  have hk := treeOk_node h hn
  simp only [nodeOk, Bool.and_eq_true, hl] at hk
  simpa using hk.1.1.1.1.1

/-- Only a tree of one node can be empty (10_state.md R30 d). -/
theorem treeOk_val (h : TreeOk t) {n : Nat} {nd : Node} (hn : t[n]? = some nd) (hv : nd.val = none) :
    t.length = 1 ∧ n = 0 := by
  have hk := treeOk_node h hn
  simp only [nodeOk, Bool.and_eq_true, hv] at hk
  have h1 : t.length = 1 := by simpa using hk.2
  exact ⟨h1, by have := (List.getElem?_eq_some_iff.mp hn).1; omega⟩

theorem treeOk_get (_h : TreeOk t) {n : Nat} (hn : n < t.length) : ∃ nd, t[n]? = some nd :=
  ⟨t[n], List.getElem?_eq_getElem hn⟩

/-- The checks of `TreeOk` from what they say of each node. -/
theorem treeOk_intro (h0 : 0 < t.length) (hm : t.length ≤ nodeMax)
    (h : ∀ n nd, t[n]? = some nd →
      (nd.left = none → nd.right = none) ∧
      (∀ c, nd.left = some c ∨ nd.right = some c → n < c ∧ ∃ k, t[c]? = some k ∧ k.parent = n) ∧
      (nd.left = none ∨ nd.left ≠ nd.right) ∧
      (n = 0 → nd.parent = 0) ∧
      (n ≠ 0 → ∃ pd, t[nd.parent]? = some pd ∧ (pd.left = some n ∨ pd.right = some n)) ∧
      (nd.val = none → t.length = 1)) : TreeOk t := by
  refine ⟨h0, hm, fun n hn => ?_⟩
  obtain ⟨h1, h2, h3, h4, h5, h6⟩ := h n t[n] (List.getElem?_eq_getElem hn)
  have hchild : ∀ c, (∀ k, c = some k → t[n].left = some k ∨ t[n].right = some k) → childOk t n c = true := by
    intro c hc
    cases c with
    | none => rfl
    | some k =>
      obtain ⟨hlt, x, hx, hp⟩ := h2 k (hc k rfl)
      simp [childOk, hlt, hx, hp]
  simp only [nodeOk, Bool.and_eq_true]
  refine ⟨⟨⟨⟨⟨?_, hchild _ fun k hk => .inl hk⟩, hchild _ fun k hk => .inr hk⟩, ?_⟩, ?_⟩, ?_⟩
  · cases hl : t[n].left with
    | none => simp [h1 hl]
    | some _ => simp
  · rcases h3 with h3 | h3
    · simp [h3]
    · simp [h3]
  · by_cases hz : n = 0
    · simpa [hz] using h4 hz
    · obtain ⟨pd, hpd, hc⟩ := h5 hz
      simpa [hz, hasChild, hpd] using hc
  · cases hv : t[n].val with
    | none => simp [h6 hv]
    | some _ => simp

/-! ### The measures -/

/-- With enough fuel the count has a value that no more fuel changes. -/
theorem countOn_total (h : TreeOk t) : ∀ (k n : Nat), n < t.length → t.length - n ≤ k →
    ∃ v, 0 < v ∧ ∀ fuel, t.length - n ≤ fuel → countOn t fuel (some n) = some v := by
  intro k
  induction k with
  | zero => intro n hn hk; omega
  | succ k ih =>
    intro n hn _
    obtain ⟨nd, hnd⟩ := treeOk_get h hn
    have hslot : ∀ c : Option Nat, (∀ x, c = some x → nd.left = some x ∨ nd.right = some x) →
        ∃ v, ∀ fuel, t.length - n - 1 ≤ fuel → countOn t fuel c = some v := by
      intro c hc
      cases c with
      | none => exact ⟨0, fun fuel _ => by cases fuel <;> rfl⟩
      | some x =>
        obtain ⟨h1, h2, _⟩ := treeOk_child h hnd (hc x rfl)
        obtain ⟨v, _, hv⟩ := ih x h2 (by omega)
        exact ⟨v, fun fuel hf => hv fuel (by omega)⟩
    obtain ⟨a, ha⟩ := hslot nd.left fun x hx => .inl hx
    obtain ⟨b, hb⟩ := hslot nd.right fun x hx => .inr hx
    refine ⟨1 + a + b, by omega, fun fuel hf => ?_⟩
    cases fuel with
    | zero => omega
    | succ fuel => simp only [countOn, hnd, ha fuel (by omega), hb fuel (by omega)]

@[simp] theorem countOf_none (t : List Node) : countOf t none = some 0 := by
  unfold countOf; cases t.length <;> rfl

/-- `TREE.COUNT` of a node of the tree has a value, which is not 0 (42_path_tree.md R153). -/
theorem countOf_node (h : TreeOk t) {n : Nat} (hn : n < t.length) : ∃ v, 0 < v ∧ countOf t (some n) = some v := by
  obtain ⟨v, h0, hv⟩ := countOn_total h _ n hn (Nat.le_refl _)
  exact ⟨v, h0, hv _ (by omega)⟩

theorem countOf_slot (h : TreeOk t) {n : Nat} {nd : Node} (hn : t[n]? = some nd) {c : Option Nat}
    (hc : c = nd.left ∨ c = nd.right) : ∃ v, countOf t c = some v := by
  cases c with
  | none => exact ⟨0, countOf_none t⟩
  | some x =>
    obtain ⟨_, h2, _⟩ := treeOk_child h hn (hc.imp Eq.symm Eq.symm)
    obtain ⟨v, _, hv⟩ := countOf_node h h2
    exact ⟨v, hv⟩

/-- `COUNT(some(n)) = 1 + COUNT(NODE[n].left) + COUNT(NODE[n].right)` (42_path_tree.md R153). -/
theorem countOf_succ (h : TreeOk t) {n : Nat} {nd : Node} (hn : t[n]? = some nd) {a b : Nat}
    (ha : countOf t nd.left = some a) (hb : countOf t nd.right = some b) :
    countOf t (some n) = some (1 + a + b) := by
  have hlt := (List.getElem?_eq_some_iff.mp hn).1
  obtain ⟨v, _, hv⟩ := countOn_total h _ n hlt (Nat.le_refl _)
  have hfuel : ∀ c : Option Nat, (c = nd.left ∨ c = nd.right) → countOn t t.length c = countOf t c ∧
      countOn t (t.length + 1) c = countOf t c := by
    intro c hc
    cases c with
    | none => exact ⟨rfl, by unfold countOf; cases t.length <;> rfl⟩
    | some x =>
      obtain ⟨_, h2, _⟩ := treeOk_child h hn (hc.imp Eq.symm Eq.symm)
      obtain ⟨w, _, hw⟩ := countOn_total h _ x h2 (Nat.le_refl _)
      exact ⟨rfl, by unfold countOf; rw [hw _ (by omega), hw _ (by omega)]⟩
  have h1 : countOf t (some n) = countOn t (t.length + 1) (some n) := by
    unfold countOf
    rw [hv _ (by omega), hv _ (by omega)]
  rw [h1]
  simp only [countOn, hn, (hfuel nd.left (.inl rfl)).1, (hfuel nd.right (.inr rfl)).1, ha, hb]

/-- With enough fuel the height has a value that no more fuel changes. -/
theorem heightOn_total (h : TreeOk t) : ∀ (k n : Nat), n < t.length → t.length - n ≤ k →
    ∃ v, ∀ fuel, t.length - n ≤ fuel → heightOn t fuel n = some v := by
  intro k
  induction k with
  | zero => intro n hn hk; omega
  | succ k ih =>
    intro n hn _
    obtain ⟨nd, hnd⟩ := treeOk_get h hn
    have hslot : ∀ x : Nat, nd.left = some x ∨ nd.right = some x →
        ∃ v, ∀ fuel, t.length - n - 1 ≤ fuel → heightOn t fuel x = some v := by
      intro x hx
      obtain ⟨h1, h2, _⟩ := treeOk_child h hnd hx
      obtain ⟨v, hv⟩ := ih x h2 (by omega)
      exact ⟨v, fun fuel hf => hv fuel (by omega)⟩
    cases hl : nd.left with
    | none =>
      refine ⟨0, fun fuel hf => ?_⟩
      cases fuel with
      | zero => omega
      | succ fuel => simp only [heightOn, hnd, hl, treeOk_left h hnd hl]
    | some l =>
      obtain ⟨a, ha⟩ := hslot l (.inl hl)
      cases hr : nd.right with
      | none =>
        refine ⟨1 + a, fun fuel hf => ?_⟩
        cases fuel with
        | zero => omega
        | succ fuel => simp [heightOn, hnd, hl, hr, ha fuel (by omega)]
      | some r =>
        obtain ⟨b, hb⟩ := hslot r (.inr hr)
        refine ⟨1 + max a b, fun fuel hf => ?_⟩
        cases fuel with
        | zero => omega
        | succ fuel => simp only [heightOn, hnd, hl, hr, ha fuel (by omega), hb fuel (by omega)]

/-- `TREE.HEIGHT` of a node of the tree has a value (42_path_tree.md R154). -/
theorem heightOf_node (h : TreeOk t) {n : Nat} (hn : n < t.length) : ∃ v, heightOf t n = some v := by
  obtain ⟨v, hv⟩ := heightOn_total h _ n hn (Nat.le_refl _)
  exact ⟨v, hv _ (by omega)⟩

/-- The recursion of `TREE.HEIGHT` (42_path_tree.md R154). -/
theorem heightOf_succ (h : TreeOk t) {n : Nat} {nd : Node} (hn : t[n]? = some nd) :
    heightOf t n = match nd.left, nd.right with
      | none, none => some 0
      | some l, none => (heightOf t l).map (1 + ·)
      | none, some r => (heightOf t r).map (1 + ·)
      | some l, some r =>
        match heightOf t l, heightOf t r with
        | some a, some b => some (1 + max a b)
        | _, _ => none := by
  have hlt := (List.getElem?_eq_some_iff.mp hn).1
  obtain ⟨v, hv⟩ := heightOn_total h _ n hlt (Nat.le_refl _)
  have h1 : heightOf t n = heightOn t (t.length + 1) n := by
    unfold heightOf
    rw [hv _ (by omega), hv _ (by omega)]
  rw [h1]
  simp only [heightOn, hn]
  rfl

/-- With enough fuel the depth has a value that no more fuel changes. -/
theorem depthOn_total (h : TreeOk t) : ∀ (k n : Nat), n < t.length → n < k →
    ∃ v, ∀ fuel, n < fuel → depthOn t fuel n = some v := by
  intro k
  induction k with
  | zero => intro n hn hk; omega
  | succ k ih =>
    intro n hn _
    obtain ⟨nd, hnd⟩ := treeOk_get h hn
    by_cases h0 : n = 0
    · refine ⟨0, fun fuel hf => ?_⟩
      cases fuel with
      | zero => omega
      | succ fuel => simp only [depthOn, hnd, if_pos h0]
    · obtain ⟨pd, hpd, hc⟩ := treeOk_parent h hnd h0
      obtain ⟨h1, _, _⟩ := treeOk_child h hpd hc
      obtain ⟨v, hv⟩ := ih nd.parent (List.getElem?_eq_some_iff.mp hpd).1 (by omega)
      refine ⟨1 + v, fun fuel hf => ?_⟩
      cases fuel with
      | zero => omega
      | succ fuel => simp only [depthOn, hnd, if_neg h0, hv fuel (by omega), Option.map_some]

/-- `TREE.DEPTH` of the root is 0 (42_path_tree.md R155). -/
theorem depthOf_zero (h : TreeOk t) : depthOf t 0 = some 0 := by
  obtain ⟨nd, hnd⟩ := treeOk_get h h.1
  have h1 : t.length = (t.length - 1) + 1 := by have := h.1; omega
  unfold depthOf
  rw [h1]
  simp only [depthOn, hnd, if_true]

/-- `DEPTH(n) = 1 + DEPTH(NODE[n].parent)` for a node that is not the root (42_path_tree.md R155). -/
theorem depthOf_succ (h : TreeOk t) {n : Nat} {nd : Node} (hn : t[n]? = some nd) (h0 : n ≠ 0) :
    ∃ v, depthOf t nd.parent = some v ∧ depthOf t n = some (1 + v) := by
  have hlt := (List.getElem?_eq_some_iff.mp hn).1
  obtain ⟨pd, hpd, hc⟩ := treeOk_parent h hn h0
  have hplt := (List.getElem?_eq_some_iff.mp hpd).1
  obtain ⟨h1, _, _⟩ := treeOk_child h hpd hc
  obtain ⟨v, hv⟩ := depthOn_total h _ nd.parent hplt (Nat.lt_succ_self _)
  obtain ⟨w, hw⟩ := depthOn_total h _ n hlt (Nat.lt_succ_self _)
  refine ⟨v, hv _ hplt, ?_⟩
  have h2 : depthOf t n = depthOn t (t.length + 1) n := by
    unfold depthOf
    rw [hw _ hlt, hw _ (by omega)]
  rw [h2]
  simp only [depthOn, hn, if_neg h0, hv _ hplt, Option.map_some]

/-- A measure as an operation: it answers the value and changes nothing, or raises `InternalInvariant`. -/
theorem treeMeasure_cases (f : List Node → Option Nat) (s : State) :
    (∃ v, f s.nodes = some v ∧ treeMeasure f s = .ok v s) ∨
    (f s.nodes = none ∧ treeMeasure f s = .error .internalInvariant s) := by
  unfold treeMeasure
  cases h : f s.nodes with
  | some v => exact .inl ⟨v, rfl, rfl⟩
  | none => exact .inr ⟨rfl, rfl⟩

/-! ### The descent -/

/-- In a tree the descent from any node ends, at a node with an empty slot, and it is the one of 42_path_tree.md R152. -/
theorem descend_total (h : TreeOk t) : ∀ (k n : Nat), n < t.length → t.length - n ≤ k → ∀ fuel, t.length - n ≤ fuel →
    ∃ p right, descend t fuel n = some (p, right) ∧ Descends t n p right := by
  intro k
  induction k with
  | zero => intro n hn hk; omega
  | succ k ih =>
    intro n hn _ fuel hf
    obtain ⟨nd, hnd⟩ := treeOk_get h hn
    cases fuel with
    | zero => omega
    | succ fuel =>
      cases hl : nd.left with
      | none => exact ⟨n, false, by simp only [descend, hnd, hl], .leftEmpty n nd hnd hl⟩
      | some l =>
        cases hr : nd.right with
        | none => exact ⟨n, true, by simp only [descend, hnd, hl, hr], .rightEmpty n nd hnd (by simp [hl]) hr⟩
        | some r =>
          obtain ⟨hl1, hl2, _⟩ := treeOk_child h hnd (.inl hl)
          obtain ⟨hr1, hr2, _⟩ := treeOk_child h hnd (.inr hr)
          obtain ⟨a, _, ha⟩ := countOf_node h hl2
          obtain ⟨b, _, hb⟩ := countOf_node h hr2
          by_cases hab : a ≤ b
          · obtain ⟨p, right, hd, hD⟩ := ih l hl2 (by omega) fuel (by omega)
            exact ⟨p, right, by simp only [descend, hnd, hl, hr, ha, hb, if_pos hab, hd],
              .goLeft n nd l r a b hnd hl hr ha hb hab p right hD⟩
          · obtain ⟨p, right, hd, hD⟩ := ih r hr2 (by omega) fuel (by omega)
            exact ⟨p, right, by simp only [descend, hnd, hl, hr, ha, hb, if_neg hab, hd],
              .goRight n nd l r a b hnd hl hr ha hb (by omega) p right hD⟩

/-- The descent ends at a node of the arena with an empty slot on the side it names, the left slot first. -/
theorem descends_end {n p : Nat} {right : Bool} (hD : Descends t n p right) :
    ∃ nd, t[p]? = some nd ∧ ((right = false ∧ nd.left = none) ∨ (right = true ∧ nd.left ≠ none ∧ nd.right = none)) := by
  induction hD with
  | leftEmpty n nd hn hl => exact ⟨nd, hn, .inl ⟨rfl, hl⟩⟩
  | rightEmpty n nd hn hl hr => exact ⟨nd, hn, .inr ⟨rfl, hl, hr⟩⟩
  | goLeft _ _ _ _ _ _ _ _ _ _ _ _ _ _ _ ih => exact ih
  | goRight _ _ _ _ _ _ _ _ _ _ _ _ _ _ _ ih => exact ih

/-! ### Inserting -/

/-- All that `TREE.INSERT` can do in a tree (42_path_tree.md R152). -/
theorem insertNode_cases (h : TreeOk t) (x : Sym) :
    (∃ root, t[0]? = some root ∧ root.val = none ∧ insertNode t x = some (t.set 0 { root with val := some x })) ∨
    (∃ root p right, t[0]? = some root ∧ root.val ≠ none ∧ Descends t 0 p right ∧
      insertNode t x = attach t p right x) := by
  obtain ⟨root, hroot⟩ := treeOk_get h h.1
  by_cases hv : root.val = none
  · exact .inl ⟨root, hroot, hv, by simp only [insertNode, hroot, hv, if_true]⟩
  · obtain ⟨p, right, hd, hD⟩ := descend_total h _ 0 h.1 (Nat.le_refl _) t.length (by omega)
    exact .inr ⟨root, p, right, hroot, hv, hD, by simp only [insertNode, hroot, if_neg hv, hd]⟩

/-- The nodes after a leaf has been attached: the parent's slot filled, the new leaf last, every other node as it was. -/
theorem attach_cases (t : List Node) (p : Nat) (right : Bool) (x : Sym) :
    (t.length = nodeMax ∧ attach t p right x = none) ∨
    (t.length ≠ nodeMax ∧ ∃ u, attach t p right x = some u ∧ u.length = t.length + 1 ∧
      u[t.length]? = some { parent := p, val := some x, left := none, right := none } ∧
      (∀ nd, t[p]? = some nd → u[p]? = some (withChild nd right t.length)) ∧
      ∀ n, n < t.length → n ≠ p → u[n]? = t[n]?) := by
  unfold attach
  by_cases hl : t.length = nodeMax
  · exact .inl ⟨hl, by simp [hl]⟩
  · refine .inr ⟨hl, _, by rw [if_neg hl], by simp, by simp, ?_, ?_⟩
    · intro nd hnd
      have hlt := (List.getElem?_eq_some_iff.mp hnd).1
      rw [List.getElem?_append_left (by simpa using hlt), List.getElem?_modify, hnd]
      simp
    · intro n hn hne
      rw [List.getElem?_append_left (by simpa using hn), List.getElem?_modify]
      cases t[n]? <;> simp [Ne.symm hne]

@[simp] theorem withChild_parent (nd : Node) (right : Bool) (m : Nat) : (withChild nd right m).parent = nd.parent := by
  cases right <;> rfl
@[simp] theorem withChild_val (nd : Node) (right : Bool) (m : Nat) : (withChild nd right m).val = nd.val := by
  cases right <;> rfl
@[simp] theorem withChild_left (nd : Node) (m : Nat) : withChild nd false m = { nd with left := some m } := rfl
@[simp] theorem withChild_right (nd : Node) (m : Nat) : withChild nd true m = { nd with right := some m } := rfl

/-- Attaching a leaf at the empty slot the descent leads to keeps the arena a tree. -/
theorem attach_treeOk (h : TreeOk t) {p : Nat} {right : Bool} {x : Sym} {u : List Node} {pd : Node}
    (hp : t[p]? = some pd)
    (hslot : (right = false ∧ pd.left = none) ∨ (right = true ∧ pd.left ≠ none ∧ pd.right = none))
    (hval : ∀ nd ∈ t, nd.val ≠ none) (ha : attach t p right x = some u) : TreeOk u := by
  rcases attach_cases t p right x with ⟨_, hn⟩ | ⟨hmax, u', hu, hlen, hnew, hpar, hother⟩
  · rw [hn] at ha; cases ha
  rw [hu] at ha
  cases ha
  have hplt := (List.getElem?_eq_some_iff.mp hp).1
  have hp' := hpar pd hp
  have hm : t.length ≤ nodeMax := h.2.1
  -- a node of `t` keeps its parent
  have hkeep : ∀ (c : Nat) (k : Node), t[c]? = some k → ∃ k' : Node, u[c]? = some k' ∧ k'.parent = k.parent := by
    intro c k hk
    by_cases hc : c = p
    · subst hc
      rw [hp] at hk; cases hk
      exact ⟨_, hp', by simp⟩
    · exact ⟨k, by rw [hother c (List.getElem?_eq_some_iff.mp hk).1 hc, hk], rfl⟩
  -- a child of `t` stays one
  have hkeepc : ∀ (q : Nat) (qd : Node) (c : Nat), t[q]? = some qd → (qd.left = some c ∨ qd.right = some c) →
      ∃ qd' : Node, u[q]? = some qd' ∧ (qd'.left = some c ∨ qd'.right = some c) := by
    intro q qd c hq hc
    by_cases hqp : q = p
    · subst hqp
      rw [hp] at hq; cases hq
      refine ⟨_, hp', ?_⟩
      rcases hslot with ⟨rfl, hs⟩ | ⟨rfl, _, hs⟩
      · rcases hc with hc | hc
        · rw [hs] at hc; cases hc
        · exact .inr hc
      · rcases hc with hc | hc
        · exact .inl hc
        · rw [hs] at hc; cases hc
    · exact ⟨qd, by rw [hother q (List.getElem?_eq_some_iff.mp hq).1 hqp, hq], hc⟩
  refine treeOk_intro (by omega) (by omega) fun n nd hn => ?_
  have hnlt := (List.getElem?_eq_some_iff.mp hn).1
  by_cases hnm : n = t.length
  · subst hnm
    rw [hnew] at hn
    cases hn
    refine ⟨fun _ => rfl, by simp, .inl rfl, fun h0 => by omega, fun _ => ?_, by simp⟩
    refine ⟨_, hp', ?_⟩
    rcases hslot with ⟨rfl, _⟩ | ⟨rfl, _⟩ <;> simp
  · have hnt : n < t.length := by omega
    obtain ⟨od, hod⟩ := treeOk_get h hnt
    have hmem : od ∈ t := List.mem_of_getElem? hod
    have hpar' : nd.parent = od.parent := by
      obtain ⟨k', hk', hp2⟩ := hkeep n od hod
      rw [hn] at hk'; cases hk'; exact hp2
    have hrest : (n = 0 → nd.parent = 0) ∧
        (n ≠ 0 → ∃ qd, u[nd.parent]? = some qd ∧ (qd.left = some n ∨ qd.right = some n)) := by
      refine ⟨fun h0 => ?_, fun h0 => ?_⟩
      · subst h0; rw [hpar']; exact treeOk_root_parent h hod
      · obtain ⟨qd, hq, hc⟩ := treeOk_parent h hod h0
        rw [hpar']
        exact hkeepc _ qd n hq hc
    have hold : ∀ c, od.left = some c ∨ od.right = some c → n < c ∧ ∃ k, u[c]? = some k ∧ k.parent = n := by
      intro c hc
      obtain ⟨h1, _, k, hk, hkp⟩ := treeOk_child h hod hc
      obtain ⟨k', hk', hkp'⟩ := hkeep c k hk
      exact ⟨h1, k', hk', by rw [hkp', hkp]⟩
    by_cases hnp : n = p
    · subst hnp
      rw [hp] at hod; cases hod
      rw [hp'] at hn; cases hn
      have hnew' : n < t.length ∧ ∃ k, u[t.length]? = some k ∧ k.parent = n := ⟨hnt, _, hnew, rfl⟩
      rcases hslot with ⟨rfl, hs⟩ | ⟨rfl, hs1, hs2⟩
      · have hr := treeOk_left h hp hs
        refine ⟨by simp, ?_, .inr (by simp [hr]), hrest.1, hrest.2,
          fun hv => absurd (by simpa using hv) (hval _ hmem)⟩
        intro c hc
        simp only [withChild_left, Option.some.injEq, hr, reduceCtorEq, or_false] at hc
        subst hc; exact hnew'
      · refine ⟨fun hl => absurd hl hs1, ?_, ?_, hrest.1, hrest.2,
          fun hv => absurd (by simpa using hv) (hval _ hmem)⟩
        · intro c hc
          rcases hc with hc | hc
          · exact hold c (.inl hc)
          · simp only [withChild_right, Option.some.injEq] at hc
            subst hc; exact hnew'
        · refine .inr ?_
          simp only [withChild_right]
          intro hl
          obtain ⟨_, h2, _⟩ := treeOk_child h hp (.inl hl)
          omega
    · rw [hother n hnt hnp, hod] at hn
      cases hn
      refine ⟨treeOk_left h hod, hold, ?_, hrest.1, hrest.2, fun hv => absurd hv (hval _ hmem)⟩
      cases hl : nd.left with
      | none => exact .inl rfl
      | some l =>
        refine .inr fun hr => ?_
        exact treeOk_distinct h hod hl hr.symm rfl

theorem vals_of_root (h : TreeOk t) {root : Node} (hr : t[0]? = some root) (hv : root.val ≠ none) :
    ∀ nd ∈ t, nd.val ≠ none := by
  intro nd hnd hn
  obtain ⟨n, hlt, rfl⟩ := List.mem_iff_getElem.mp hnd
  obtain ⟨_, h0⟩ := treeOk_val h (List.getElem?_eq_getElem hlt) hn
  subst h0
  rw [List.getElem?_eq_getElem hlt] at hr
  cases hr
  exact hv hn

/-- `TREE.INSERT` keeps the arena a tree (10_state.md R30). -/
theorem insertNode_treeOk (h : TreeOk t) {x : Sym} {u : List Node} (hu : insertNode t x = some u) : TreeOk u := by
  rcases insertNode_cases h x with ⟨root, hr, hv, he⟩ | ⟨root, p, right, hr, hv, hD, he⟩
  · rw [he] at hu
    cases hu
    obtain ⟨h1, _⟩ := treeOk_val h hr hv
    obtain ⟨a, rfl⟩ := List.length_eq_one_iff.mp h1
    simp only [List.getElem?_cons_zero, Option.some.injEq] at hr
    subst hr
    refine treeOk_intro (by simp) (by simp [nodeMax]) fun n nd hn => ?_
    have hn0 : n = 0 := by
      have := (List.getElem?_eq_some_iff.mp hn).1
      simp at this; omega
    subst hn0
    simp only [List.set_cons_zero, List.getElem?_cons_zero, Option.some.injEq] at hn
    subst hn
    have ha : [a][0]? = some a := rfl
    have hnone : ∀ c, ¬ (a.left = some c ∨ a.right = some c) := by
      intro c hc
      obtain ⟨h1, h2, _⟩ := treeOk_child h ha hc
      simp at h2; omega
    have hleft := treeOk_left h ha
    have hroot := treeOk_root_parent h ha
    refine ⟨hleft, fun c hc => absurd hc (hnone c), ?_, fun _ => hroot, fun h0 => absurd rfl h0, by simp⟩
    refine .inl ?_
    cases hl : a.left with
    | none => rfl
    | some c => exact absurd (.inl hl) (hnone c)
  · rw [he] at hu
    obtain ⟨pd, hp, hslot⟩ := descends_end hD
    exact attach_treeOk h hp hslot (vals_of_root h hr hv) hu

theorem treeOk_emptyRoot : TreeOk [emptyRoot] := by decide

/-- `TREE.INSERT` as an operation: it writes the arena only, or raises `InternalInvariant` and changes nothing. -/
theorem treeInsert_cases (x : Sym) (s : State) :
    (∃ u, insertNode s.nodes x = some u ∧ treeInsert x s = .ok () (s.setNodes u)) ∨
    (insertNode s.nodes x = none ∧ treeInsert x s = .error .internalInvariant s) := by
  unfold treeInsert
  cases h : insertNode s.nodes x with
  | some u => exact .inl ⟨u, rfl, rfl⟩
  | none => exact .inr ⟨rfl, rfl⟩

end Sys2Proof.Machine
end

