-- ==== Sys2Proof/Laws/TreeShape.lean ====
section
/-! SUPPORT. The shape of a tree: which nodes stand below which, what an insert does to the counts, and where the paths of
42_path_tree.md R156 lead in a balanced tree. -/

namespace Sys2Proof.Machine

variable {t u : List Node}

/-! ### Below a node -/

/-- Node `m` stands in the subtree of node `n`. -/
inductive Below (t : List Node) (n : Nat) : Nat → Prop
  | self : Below t n n
  | child (m c : Nat) (nd : Node) (h : Below t n m) (hn : t[m]? = some nd)
      (hc : nd.left = some c ∨ nd.right = some c) : Below t n c

theorem below_le (h : TreeOk t) {n m : Nat} (hb : Below t n m) : n ≤ m := by
  induction hb with
  | self => exact Nat.le_refl _
  | child m c nd _ hn hc ih => have := (treeOk_child h hn hc).1; omega

theorem below_lt (h : TreeOk t) {n m : Nat} (hb : Below t n m) (hn : n < t.length) : m < t.length := by
  cases hb with
  | self => exact hn
  | child m c nd _ hn hc => exact (treeOk_child h hn hc).2.1

theorem below_head {n c m : Nat} {nd : Node} (hn : t[n]? = some nd) (hc : nd.left = some c ∨ nd.right = some c)
    (hb : Below t c m) : Below t n m := by
  induction hb with
  | self => exact .child n c nd .self hn hc
  | child m x md _ hm hx ih => exact .child m x md ih hm hx

theorem below_trans {n m p : Nat} (h1 : Below t n m) (h2 : Below t m p) : Below t n p := by
  induction h2 with
  | self => exact h1
  | child a c ad _ ha hc ih => exact .child a c ad ih ha hc

/-- Below a node: the node itself, or below one of its children. -/
theorem below_cases {n m : Nat} {nd : Node} (hn : t[n]? = some nd) (hb : Below t n m) :
    m = n ∨ ∃ c, (nd.left = some c ∨ nd.right = some c) ∧ Below t c m := by
  induction hb with
  | self => exact .inl rfl
  | child q c qd _ hq hc ih =>
    rcases ih with rfl | ⟨x, hx, hb⟩
    · rw [hn] at hq; cases hq
      exact .inr ⟨c, hc, .self⟩
    · exact .inr ⟨x, hx, .child q c qd hb hq hc⟩

theorem below_parent (h : TreeOk t) {n m : Nat} (hb : Below t n m) :
    m = n ∨ ∃ md, t[m]? = some md ∧ md.parent < m ∧ Below t n md.parent := by
  cases hb with
  | self => exact .inl rfl
  | child q m qd hb hq hc =>
    obtain ⟨h1, _, md, hmd, hp⟩ := treeOk_child h hq hc
    exact .inr ⟨md, hmd, by omega, hp ▸ hb⟩

/-- No node stands below both children of a node. -/
theorem below_disjoint (h : TreeOk t) {n l r : Nat} {nd : Node} (hn : t[n]? = some nd) (hl : nd.left = some l)
    (hr : nd.right = some r) : ∀ k p, p < k → Below t l p → Below t r p → False := by
  have hlr := treeOk_distinct h hn hl hr
  obtain ⟨hl1, _, lk, hlk, hlp⟩ := treeOk_child h hn (.inl hl)
  obtain ⟨hr1, _, rk, hrk, hrp⟩ := treeOk_child h hn (.inr hr)
  intro k
  induction k with
  | zero => intro p hp; omega
  | succ k ih =>
    intro p hp hbl hbr
    rcases below_parent h hbl with h1 | ⟨md, hmd, hlt, hb1⟩
    · subst h1
      rcases below_parent h hbr with h2 | ⟨md, hmd, _, hb2⟩
      · exact hlr h2
      · rw [hlk] at hmd; cases hmd
        have := below_le h hb2
        omega
    · rcases below_parent h hbr with h2 | ⟨md', hmd', _, hb2⟩
      · subst h2
        rw [hrk] at hmd; cases hmd
        have := below_le h hb1
        omega
      · rw [hmd] at hmd'; cases hmd'
        exact ih md.parent (by omega) hb1 hb2

/-- Every node stands below the root. -/
theorem below_root (h : TreeOk t) : ∀ k m, m < k → m < t.length → Below t 0 m := by
  intro k
  induction k with
  | zero => intro m hm; omega
  | succ k ih =>
    intro m hm hlt
    by_cases h0 : m = 0
    · subst h0; exact .self
    · obtain ⟨md, hmd⟩ := treeOk_get h hlt
      obtain ⟨pd, hpd, hc⟩ := treeOk_parent h hmd h0
      have h1 := (treeOk_child h hpd hc).1
      exact .child _ m pd (ih md.parent (by omega) (by omega)) hpd hc

theorem descends_below {n p : Nat} {right : Bool} (hD : Descends t n p right) : Below t n p := by
  induction hD with
  | leftEmpty n nd hn hl => exact .self
  | rightEmpty n nd hn hl hr => exact .self
  | goLeft n nd l r a b hn hl hr _ _ _ p right _ ih => exact below_head hn (.inl hl) ih
  | goRight n nd l r a b hn hl hr _ _ _ p right _ ih => exact below_head hn (.inr hr) ih

/-! ### What attaching a leaf does to the counts -/

/-- At node `n` the left subtree has as many nodes as the right one or one more. -/
def BalancedAt (t : List Node) (nd : Node) : Prop :=
  (countOf t nd.left).getD 0 = (countOf t nd.right).getD 0 ∨
    (countOf t nd.left).getD 0 = (countOf t nd.right).getD 0 + 1

/-- A subtree that the new leaf does not stand in keeps its count. -/
theorem countOf_attach_other (h : TreeOk t) (hu : TreeOk u) {p : Nat}
    (hother : ∀ n, n < t.length → n ≠ p → u[n]? = t[n]?) :
    ∀ k m, m < t.length → t.length - m ≤ k → ¬ Below t m p → countOf u (some m) = countOf t (some m) := by
  intro k
  induction k with
  | zero => intro m hm hk; omega
  | succ k ih =>
    intro m hm _ hb
    have hmp : m ≠ p := fun he => hb (he ▸ .self)
    obtain ⟨md, hmd⟩ := treeOk_get h hm
    have humd : u[m]? = some md := by rw [hother m hm hmp, hmd]
    have hslot : ∀ c : Option Nat, (c = md.left ∨ c = md.right) → countOf u c = countOf t c := by
      intro c hc
      cases c with
      | none => simp
      | some x =>
        have hx := hc.imp Eq.symm Eq.symm
        obtain ⟨h1, h2, _⟩ := treeOk_child h hmd hx
        exact ih x h2 (by omega) fun hbx => hb (below_head hmd hx hbx)
    obtain ⟨a, ha⟩ := countOf_slot h hmd (.inl rfl)
    obtain ⟨b, hb'⟩ := countOf_slot h hmd (.inr rfl)
    rw [countOf_succ h hmd ha hb',
      countOf_succ hu humd ((hslot _ (.inl rfl)).trans ha) ((hslot _ (.inr rfl)).trans hb')]

theorem countOf_leaf (h : TreeOk t) {n : Nat} {nd : Node} (hn : t[n]? = some nd) (hl : nd.left = none) :
    countOf t (some n) = some 1 := by
  have hr := treeOk_left h hn hl
  have := countOf_succ h hn (a := 0) (b := 0) (by rw [hl]; simp) (by rw [hr]; simp)
  simpa using this

/-- A leaf attached where the descent leads adds one to the count of every subtree on the way, and leaves every node of
the subtree balanced that was. -/
theorem attach_counts (h : TreeOk t) (hu : TreeOk u) (hbal : TreeBalanced t) {n p : Nat} {right : Bool} {x : Sym}
    (hnew : u[t.length]? = some { parent := p, val := some x, left := none, right := none })
    (hpar : ∀ nd, t[p]? = some nd → u[p]? = some (withChild nd right t.length))
    (hother : ∀ n, n < t.length → n ≠ p → u[n]? = t[n]?) (hD : Descends t n p right) :
    (∀ c, countOf t (some n) = some c → countOf u (some n) = some (c + 1)) ∧
      ∀ m md, Below t n m → u[m]? = some md → BalancedAt u md := by
  have hnewcount : countOf u (some t.length) = some 1 := countOf_leaf hu hnew rfl
  have hlen : ∀ {n nd}, t[n]? = some nd → n < t.length := fun hn => (List.getElem?_eq_some_iff.mp hn).1
  -- a subtree without `p` stays balanced
  have hstill : ∀ q, q < t.length → ¬ Below t q p → ∀ m md, Below t q m → u[m]? = some md → BalancedAt u md := by
    intro q hq hqp m md hb hm
    have hmlt := below_lt h hb hq
    have hmp : m ≠ p := fun he => hqp (he ▸ hb)
    have hmd : t[m]? = some md := by rw [← hother m hmlt hmp]; exact hm
    have hold := hbal md (List.mem_of_getElem? hmd)
    have hc : ∀ c : Option Nat, (c = md.left ∨ c = md.right) → countOf u c = countOf t c := by
      intro c hc
      cases c with
      | none => simp
      | some y =>
        have hy := hc.imp Eq.symm Eq.symm
        obtain ⟨_, h2, _⟩ := treeOk_child h hmd hy
        refine countOf_attach_other h hu hother _ y h2 (Nat.le_refl _) fun hbx => hqp ?_
        exact below_trans (.child m y md hb hmd hy) hbx
    unfold BalancedAt
    rw [hc _ (.inl rfl), hc _ (.inr rfl)]
    exact hold
  induction hD with
  | leftEmpty n nd hn hl =>
    have hr := treeOk_left h hn hl
    have hun := hpar nd hn
    rw [withChild_left] at hun
    have hcount := countOf_succ hu hun (a := 1) (b := 0) hnewcount (by rw [hr]; simp)
    refine ⟨fun c hc => ?_, fun m md hb hm => ?_⟩
    · rw [countOf_leaf h hn hl] at hc
      cases hc
      exact hcount
    · rcases below_cases hn hb with rfl | ⟨c, hc, _⟩
      · rw [hun] at hm; cases hm
        unfold BalancedAt
        rw [hnewcount, hr]
        simp
      · rw [hl, hr] at hc
        rcases hc with hc | hc <;> cases hc
  | rightEmpty n nd hn hl hr =>
    obtain ⟨l, hl'⟩ := Option.ne_none_iff_exists'.mp hl
    obtain ⟨hl1, hl2, _⟩ := treeOk_child h hn (.inl hl')
    obtain ⟨a, ha0, ha⟩ := countOf_node h hl2
    have hln : ¬ Below t l n := fun hb => by have := below_le h hb; omega
    have hua : countOf u (some l) = some a := by
      rw [countOf_attach_other h hu hother _ l hl2 (Nat.le_refl _) hln, ha]
    have ha1 : a = 1 := by
      have := hbal nd (List.mem_of_getElem? hn)
      rw [hl', hr, ha] at this
      simp at this
      omega
    have hun := hpar nd hn
    rw [withChild_right] at hun
    have hcount := countOf_succ hu hun (a := a) (b := 1) (by simpa [hl'] using hua) hnewcount
    refine ⟨fun c hc => ?_, fun m md hb hm => ?_⟩
    · rw [countOf_succ h hn (a := a) (b := 0) (by rw [hl', ha]) (by rw [hr]; simp)] at hc
      cases hc
      rw [hcount]
    · rcases below_cases hn hb with rfl | ⟨c, hc, hbc⟩
      · rw [hun] at hm; cases hm
        unfold BalancedAt
        rw [hnewcount]
        simp only [hl', hua, ha1]
        simp
      · rw [hl', hr] at hc
        rcases hc with hc | hc <;> cases hc
        exact hstill l hl2 hln m md hbc hm
  | goLeft n nd l r a b hn hl hr ha hb hab p right hD ih =>
    obtain ⟨ih1, ih2⟩ := ih hnew hpar hother hstill
    have hpl := descends_below hD
    obtain ⟨hl1, hl2, _⟩ := treeOk_child h hn (.inl hl)
    obtain ⟨hr1, hr2, _⟩ := treeOk_child h hn (.inr hr)
    have hpr : ¬ Below t r p := fun hbr => below_disjoint h hn hl hr _ p (Nat.lt_succ_self _) hpl hbr
    have hua := ih1 a ha
    have hub : countOf u (some r) = some b := by
      rw [countOf_attach_other h hu hother _ r hr2 (Nat.le_refl _) hpr, hb]
    have hpn : n ≠ p := by have := below_le h hpl; omega
    have hun : u[n]? = some nd := by rw [hother n (hlen hn) hpn, hn]
    have hold := hbal nd (List.mem_of_getElem? hn)
    refine ⟨fun c hc => ?_, fun m md hbm hm => ?_⟩
    · rw [countOf_succ h hn (by rw [hl, ha]) (by rw [hr, hb])] at hc
      cases hc
      rw [countOf_succ hu hun (by rw [hl, hua]) (by rw [hr, hub])]
      congr 1; omega
    · rcases below_cases hn hbm with rfl | ⟨c, hcm, hbc⟩
      · rw [hun] at hm; cases hm
        unfold BalancedAt
        rw [hl, hr, hua, hub]
        rw [hl, hr, ha, hb] at hold
        simp at hold ⊢
        omega
      · rw [hl, hr] at hcm
        rcases hcm with hcm | hcm <;> cases hcm
        · exact ih2 m md hbc hm
        · exact hstill r hr2 hpr m md hbc hm
  | goRight n nd l r a b hn hl hr ha hb hab p right hD ih =>
    obtain ⟨ih1, ih2⟩ := ih hnew hpar hother hstill
    have hpr := descends_below hD
    obtain ⟨hl1, hl2, _⟩ := treeOk_child h hn (.inl hl)
    obtain ⟨hr1, hr2, _⟩ := treeOk_child h hn (.inr hr)
    have hpl : ¬ Below t l p := fun hbl => below_disjoint h hn hl hr _ p (Nat.lt_succ_self _) hbl hpr
    have hub := ih1 b hb
    have hua : countOf u (some l) = some a := by
      rw [countOf_attach_other h hu hother _ l hl2 (Nat.le_refl _) hpl, ha]
    have hpn : n ≠ p := by have := below_le h hpr; omega
    have hun : u[n]? = some nd := by rw [hother n (hlen hn) hpn, hn]
    have hold := hbal nd (List.mem_of_getElem? hn)
    refine ⟨fun c hc => ?_, fun m md hbm hm => ?_⟩
    · rw [countOf_succ h hn (by rw [hl, ha]) (by rw [hr, hb])] at hc
      cases hc
      rw [countOf_succ hu hun (by rw [hl, hua]) (by rw [hr, hub])]
      congr 1
    · rcases below_cases hn hbm with rfl | ⟨c, hcm, hbc⟩
      · rw [hun] at hm; cases hm
        unfold BalancedAt
        rw [hl, hr, hua, hub]
        rw [hl, hr, ha, hb] at hold
        simp at hold ⊢
        omega
      · rw [hl, hr] at hcm
        rcases hcm with hcm | hcm <;> cases hcm
        · exact hstill l hl2 hpl m md hbc hm
        · exact ih2 m md hbc hm

/-! ### Inserting keeps the balance -/

theorem treeBalanced_emptyRoot : TreeBalanced [emptyRoot] := by decide

/-- `TREE.INSERT` keeps the balance, and where it adds a node, adds one to the count of the root
(42_path_tree.md R152, R158). -/
theorem insertNode_balanced (h : TreeOk t) (hbal : TreeBalanced t) {x : Sym} (hu : insertNode t x = some u) :
    TreeBalanced u := by
  have hok := insertNode_treeOk h hu
  rcases insertNode_cases h x with ⟨root, hr, hv, he⟩ | ⟨root, p, right, hr, hv, hD, he⟩
  · rw [he] at hu
    cases hu
    obtain ⟨h1, _⟩ := treeOk_val h hr hv
    obtain ⟨a, rfl⟩ := List.length_eq_one_iff.mp h1
    simp only [List.getElem?_cons_zero, Option.some.injEq] at hr
    subst hr
    have hnone : ∀ c, ¬ (a.left = some c ∨ a.right = some c) := by
      intro c hc
      obtain ⟨h1, h2, _⟩ := treeOk_child h (rfl : [a][0]? = some a) hc
      simp at h2; omega
    intro nd hnd
    simp only [List.set_cons_zero, List.mem_singleton] at hnd
    subst hnd
    have hl : a.left = none := by
      cases hl : a.left with
      | none => rfl
      | some c => exact absurd (.inl hl) (hnone c)
    have hr : a.right = none := by
      cases hr : a.right with
      | none => rfl
      | some c => exact absurd (.inr hr) (hnone c)
    simp [hl, hr]
  · rw [he] at hu
    rcases attach_cases t p right x with ⟨_, hn⟩ | ⟨hmax, u', hu', hlen, hnew, hpar, hother⟩
    · rw [hn] at hu; cases hu
    rw [hu'] at hu
    cases hu
    have hcounts := attach_counts h hok hbal hnew hpar hother hD
    intro nd hnd
    obtain ⟨m, hm⟩ := List.mem_iff_getElem?.mp hnd
    have hmlt := (List.getElem?_eq_some_iff.mp hm).1
    by_cases hml : m = t.length
    · subst hml
      rw [hnew] at hm; cases hm
      simp
    · exact hcounts.2 m nd (below_root h _ m (Nat.lt_succ_self _) (by omega)) hm

/-! ### Paths -/

theorem follow_append (t : List Node) (n : Nat) (p q : List Bool) :
    follow t n (p ++ q) = (follow t n p).bind fun m => follow t m q := by
  induction p generalizing n with
  | nil => rfl
  | cons b p ih =>
    simp only [List.cons_append, follow]
    cases t[n]? with
    | none => rfl
    | some nd =>
      cases hc : (if b then nd.right else nd.left) with
      | none => simp [hc]
      | some c => simp [hc, ih]

/-- One step of a path. -/
theorem follow_cons {n c : Nat} {nd : Node} (hn : t[n]? = some nd) {b : Bool}
    (hc : (if b then nd.right else nd.left) = some c) (p : List Bool) : follow t n (b :: p) = follow t c p := by
  simp only [follow, hn, hc]

theorem follow_cons_some {n m : Nat} {b : Bool} {p : List Bool} (h : follow t n (b :: p) = some m) :
    ∃ nd c, t[n]? = some nd ∧ (if b then nd.right else nd.left) = some c ∧ follow t c p = some m := by
  simp only [follow] at h
  cases hn : t[n]? with
  | none => simp [hn] at h
  | some nd =>
    rw [hn] at h
    cases hc : (if b then nd.right else nd.left) with
    | none => simp [hc] at h
    | some c => exact ⟨nd, c, rfl, hc, by simpa [hc] using h⟩

theorem slot_of_bit {nd : Node} {b : Bool} {c : Nat} (h : (if b then nd.right else nd.left) = some c) :
    nd.left = some c ∨ nd.right = some c := by
  cases b
  · exact .inl (by simpa using h)
  · exact .inr (by simpa using h)

/-- A path leads from a node of the tree to a node of the tree. -/
theorem follow_lt (h : TreeOk t) {n m : Nat} {p : List Bool} (hn : n < t.length) (hf : follow t n p = some m) :
    m < t.length := by
  induction p generalizing n with
  | nil => simp only [follow, Option.some.injEq] at hf; omega
  | cons b p ih =>
    obtain ⟨nd, c, hnd, hc, hf'⟩ := follow_cons_some hf
    exact ih (treeOk_child h hnd (slot_of_bit hc)).2.1 hf'

/-- Paths to nodes already there survive an attachment. -/
theorem follow_attach {p m : Nat} {right : Bool} {pd : Node} (hp : t[p]? = some pd)
    (hslot : (right = false ∧ pd.left = none) ∨ (right = true ∧ pd.left ≠ none ∧ pd.right = none))
    (hpar : ∀ nd, t[p]? = some nd → u[p]? = some (withChild nd right t.length))
    (hother : ∀ n, n < t.length → n ≠ p → u[n]? = t[n]?) {n : Nat} {q : List Bool} (hf : follow t n q = some m) :
    follow u n q = some m := by
  induction q generalizing n with
  | nil => exact hf
  | cons b q ih =>
    obtain ⟨nd, c, hnd, hc, hf'⟩ := follow_cons_some hf
    have hnlt := (List.getElem?_eq_some_iff.mp hnd).1
    by_cases hnp : n = p
    · subst hnp
      rw [hp] at hnd; cases hnd
      have hc' : (if b then (withChild pd right t.length).right else (withChild pd right t.length).left) = some c := by
        rcases hslot with ⟨rfl, hs⟩ | ⟨rfl, _, hs⟩ <;> cases b <;> simp_all
      rw [follow_cons (hpar pd hp) hc']
      exact ih hf'
    · have hnd' : u[n]? = some nd := by rw [hother n hnlt hnp, hnd]
      rw [follow_cons hnd' hc]
      exact ih hf'

/-- The depth of the node a path leads to is the length of the path (42_path_tree.md R155). -/
theorem depthOf_follow (h : TreeOk t) {n m d : Nat} {p : List Bool} (hn : depthOf t n = some d)
    (hf : follow t n p = some m) : depthOf t m = some (d + p.length) := by
  induction p generalizing n d with
  | nil =>
    simp only [follow, Option.some.injEq] at hf
    subst hf
    simpa using hn
  | cons b p ih =>
    obtain ⟨nd, c, hnd, hc, hf'⟩ := follow_cons_some hf
    obtain ⟨h1, _, k, hk, hkp⟩ := treeOk_child h hnd (slot_of_bit hc)
    obtain ⟨v, hv1, hv2⟩ := depthOf_succ h hk (by omega)
    rw [hkp, hn] at hv1
    cases hv1
    rw [ih hv2 hf', List.length_cons]
    congr 1; omega

/-! ### Ranks -/

theorem log2_double (n : Nat) (h : n ≠ 0) (b : Nat) (hb : b < 2) : Nat.log2 (2 * n + b) = Nat.log2 n + 1 := by
  have h1 := (Nat.log2_eq_iff (n := n) (k := Nat.log2 n) h).mp rfl
  refine (Nat.log2_eq_iff (by omega)).mpr ?_
  rw [Nat.pow_succ, Nat.pow_succ]
  rw [Nat.pow_succ] at h1
  omega

@[simp] theorem rankPath_zero : rankPath 0 = [] := by decide

@[simp] theorem rankPath_length (k : Nat) : (rankPath k).length = rankDepth k := by simp [rankPath]

theorem rankDepth_succ (q b : Nat) (hb : b < 2) : rankDepth (2 * q + 1 + b) = rankDepth q + 1 := by
  unfold rankDepth
  rw [show 2 * q + 1 + b + 1 = 2 * (q + 1) + b by omega]
  exact log2_double _ (by omega) b hb

theorem rankDepth_pow (q : Nat) : 2 ^ rankDepth q ≤ q + 1 :=
  ((Nat.log2_eq_iff (n := q + 1) (k := rankDepth q) (by omega)).mp rfl).1

/-- The first step to the symbol inserted as number `2q + 1` is left, to number `2q + 2` right; from there the way is the
one to number `q` (42_path_tree.md R156). -/
theorem rankPath_succ (q : Nat) (b : Bool) : rankPath (2 * q + 1 + b.toNat) = b :: rankPath q := by
  have hb : b.toNat < 2 := Bool.toNat_lt b
  have hd := rankDepth_succ q b.toNat hb
  have hp := rankDepth_pow q
  have hpp : 2 ^ (rankDepth q + 1) = 2 * 2 ^ rankDepth q := by rw [Nat.pow_succ]; omega
  unfold rankPath
  rw [hd, List.range_succ_eq_map, List.map_cons, List.map_map]
  have hval : 2 * q + 1 + b.toNat + 1 - 2 ^ (rankDepth q + 1) = 2 * (q + 1 - 2 ^ rankDepth q) + b.toNat := by omega
  rw [hval]
  congr 1
  · cases b <;> simp [Nat.testBit_zero]
  · apply List.map_congr_left
    intro i _
    have h2 : (2 * (q + 1 - 2 ^ rankDepth q) + b.toNat) / 2 = q + 1 - 2 ^ rankDepth q := by omega
    simp only [Function.comp_apply, Nat.testBit_succ, h2]

/-- In a balanced tree the descent from a node whose subtree has `s` nodes follows the path of rank `s`
(42_path_tree.md R152, R156). -/
theorem descends_rank (h : TreeOk t) (hbal : TreeBalanced t) {n p : Nat} {right : Bool} (hD : Descends t n p right)
    {s : Nat} (hs : countOf t (some n) = some s) :
    ∃ path, follow t n path = some p ∧ rankPath s = path ++ [right] := by
  induction hD generalizing s with
  | leftEmpty n nd hn hl =>
    rw [countOf_leaf h hn hl] at hs
    cases hs
    exact ⟨[], rfl, by simpa using rankPath_succ 0 false⟩
  | rightEmpty n nd hn hl hr =>
    obtain ⟨l, hl'⟩ := Option.ne_none_iff_exists'.mp hl
    obtain ⟨hl1, hl2, _⟩ := treeOk_child h hn (.inl hl')
    obtain ⟨a, ha0, ha⟩ := countOf_node h hl2
    have ha1 := hbal nd (List.mem_of_getElem? hn)
    rw [hl', hr, ha] at ha1
    simp at ha1
    rw [countOf_succ h hn (a := a) (b := 0) (by rw [hl', ha]) (by rw [hr]; simp)] at hs
    cases hs
    have : a = 1 := by omega
    subst this
    exact ⟨[], rfl, by simpa using rankPath_succ 0 true⟩
  | goLeft n nd l r a b hn hl hr ha hb hab p right hD ih =>
    have hold := hbal nd (List.mem_of_getElem? hn)
    rw [hl, hr, ha, hb] at hold
    simp at hold
    rw [countOf_succ h hn (by rw [hl, ha]) (by rw [hr, hb])] at hs
    cases hs
    obtain ⟨path, h1, h2⟩ := ih ha
    refine ⟨false :: path, by rw [follow_cons hn (by simpa using hl)]; exact h1, ?_⟩
    have h3 : 1 + a + b = 2 * a + 1 + false.toNat := by simp; omega
    rw [h3, rankPath_succ, h2]
    rfl
  | goRight n nd l r a b hn hl hr ha hb hab p right hD ih =>
    have hold := hbal nd (List.mem_of_getElem? hn)
    rw [hl, hr, ha, hb] at hold
    simp at hold
    rw [countOf_succ h hn (by rw [hl, ha]) (by rw [hr, hb])] at hs
    cases hs
    obtain ⟨path, h1, h2⟩ := ih hb
    refine ⟨true :: path, by rw [follow_cons hn (by simpa using hr)]; exact h1, ?_⟩
    have h3 : 1 + a + b = 2 * b + 1 + true.toNat := by simp; omega
    rw [h3, rankPath_succ, h2]
    rfl

/-- The height of a balanced subtree of `s` nodes (42_path_tree.md R157). -/
theorem heightOf_balanced (h : TreeOk t) (hbal : TreeBalanced t) : ∀ k n s, n < t.length → t.length - n ≤ k →
    countOf t (some n) = some s → heightOf t n = some (Nat.log2 s) := by
  intro k
  induction k with
  | zero => intro n s hn hk; omega
  | succ k ih =>
    intro n s hn _ hs
    obtain ⟨nd, hnd⟩ := treeOk_get h hn
    have hold := hbal nd (List.mem_of_getElem? hnd)
    rw [heightOf_succ h hnd]
    cases hl : nd.left with
    | none =>
      rw [treeOk_left h hnd hl]
      rw [countOf_leaf h hnd hl] at hs
      cases hs
      rfl
    | some l =>
      obtain ⟨hl1, hl2, _⟩ := treeOk_child h hnd (.inl hl)
      obtain ⟨a, ha0, ha⟩ := countOf_node h hl2
      have hla := ih l a hl2 (by omega) ha
      cases hr : nd.right with
      | none =>
        rw [hl, hr, ha] at hold
        simp at hold
        rw [countOf_succ h hnd (a := a) (b := 0) (by rw [hl, ha]) (by rw [hr]; simp)] at hs
        cases hs
        have : a = 1 := by omega
        subst this
        simp only [hla]
        rfl
      | some r =>
        obtain ⟨hr1, hr2, _⟩ := treeOk_child h hnd (.inr hr)
        obtain ⟨b, hb0, hb⟩ := countOf_node h hr2
        have hrb := ih r b hr2 (by omega) hb
        rw [hl, hr, ha, hb] at hold
        simp at hold
        rw [countOf_succ h hnd (by rw [hl, ha]) (by rw [hr, hb])] at hs
        cases hs
        simp only [hla, hrb]
        rcases hold with hab | hab
        · subst hab
          rw [show 1 + a + a = 2 * a + 1 by omega, log2_double a (by omega) 1 (by omega)]
          simp [Nat.add_comm]
        · subst hab
          rw [show 1 + (b + 1) + b = 2 * (b + 1) + 0 by omega, log2_double (b + 1) (by omega) 0 (by omega)]
          have h1 := (Nat.log2_eq_iff (n := b) (k := Nat.log2 b) (by omega)).mp rfl
          have h2 := (Nat.log2_eq_iff (n := b + 1) (k := Nat.log2 (b + 1)) (by omega)).mp rfl
          have hle : Nat.log2 b ≤ Nat.log2 (b + 1) := by
            by_contra hlt
            have : 2 ^ (Nat.log2 (b + 1) + 1) ≤ 2 ^ Nat.log2 b := Nat.pow_le_pow_right (by decide) (by omega)
            omega
          rw [Nat.max_eq_left hle, Nat.add_comm]

/-- A tree that came out of `TREE.INIT` and the inserts of `xs`: node `k` holds symbol `k` at the path of rank `k`
(10_state.md R29, 42_path_tree.md R156). -/
structure Built (t : List Node) (xs : List Sym) : Prop where
  /-- The arena is a tree. -/
  ok : TreeOk t
  /-- It is balanced. -/
  balanced : TreeBalanced t
  /-- It has a node for each symbol. -/
  size : t.length = xs.length
  /-- The root's count is the number of symbols. -/
  count : countOf t (some 0) = some xs.length
  /-- Node `k` holds symbol `k`. -/
  val : ∀ k, k < xs.length → (t[k]?).bind (·.val) = xs[k]?
  /-- The path of rank `k` leads to node `k`. -/
  path : ∀ k, k < xs.length → follow t 0 (rankPath k) = some k

/-- The first insert makes a tree of one symbol. -/
theorem built_first (x : Sym) :
    insertNode [emptyRoot] x = some [{ emptyRoot with val := some x }] ∧ Built [{ emptyRoot with val := some x }] [x] := by
  have hi : insertNode [emptyRoot] x = some [{ emptyRoot with val := some x }] := rfl
  have hok := insertNode_treeOk treeOk_emptyRoot hi
  refine ⟨hi, hok, insertNode_balanced treeOk_emptyRoot treeBalanced_emptyRoot hi, rfl, countOf_leaf hok rfl rfl, ?_, ?_⟩
  · intro k hk
    have : k = 0 := by simpa using hk
    subst this; rfl
  · intro k hk
    have : k = 0 := by simpa using hk
    subst this; simp [follow]

/-- A later insert adds the next rank, as long as fewer than 256 symbols are in the tree. -/
theorem built_insert {xs : List Sym} (hb : Built t xs) (h0 : xs ≠ []) (hx : xs.length < 256) (x : Sym) :
    ∃ u, insertNode t x = some u ∧ Built u (xs ++ [x]) := by
  have h := hb.ok
  have hpos : 0 < xs.length := List.length_pos_iff.mpr h0
  rcases insertNode_cases h x with ⟨root, hr, hv, _⟩ | ⟨root, p, right, hr, hv, hD, he⟩
  · have := hb.val 0 hpos
    rw [hr] at this
    simp [hv] at this
    exact absurd this h0
  rcases attach_cases t p right x with ⟨hmax, _⟩ | ⟨hmax, u, hu, hlen, hnew, hpar, hother⟩
  · rw [hb.size] at hmax
    simp [nodeMax] at hmax; omega
  have hi : insertNode t x = some u := by rw [he, hu]
  have hok := insertNode_treeOk h hi
  have hbal := insertNode_balanced h hb.balanced hi
  obtain ⟨pd, hp, hslot⟩ := descends_end hD
  have hplt := (List.getElem?_eq_some_iff.mp hp).1
  obtain ⟨path, hf, hrank⟩ := descends_rank h hb.balanced hD hb.count
  refine ⟨u, hi, hok, hbal, by simp [hlen, hb.size], ?_, ?_, ?_⟩
  · rw [(attach_counts h hok hb.balanced hnew hpar hother hD).1 _ hb.count]
    simp
  · intro k hk
    simp only [List.length_append, List.length_singleton] at hk
    by_cases hkl : k = xs.length
    · subst hkl
      rw [← hb.size, hnew, hb.size]
      simp
    · have hkx : k < xs.length := by omega
      rw [List.getElem?_append_left hkx, ← hb.val k hkx]
      by_cases hkp : k = p
      · subst hkp
        rw [hpar pd hp, hp]
        simp
      · rw [hother k (by rw [hb.size]; exact hkx) hkp]
  · intro k hk
    simp only [List.length_append, List.length_singleton] at hk
    by_cases hkl : k = xs.length
    · subst hkl
      rw [hrank, follow_append, follow_attach hp hslot hpar hother hf]
      have hbit : (if right then (withChild pd right t.length).right else (withChild pd right t.length).left) =
          some t.length := by cases right <;> simp
      simp only [Option.bind_some]
      rw [follow_cons (hpar pd hp) hbit, hb.size]
      rfl
    · exact follow_attach hp hslot hpar hother (hb.path k (by omega))

/-! ### One node per symbol, one path per node -/

/-- In a tree of pairwise distinct symbols one node holds a symbol (43_path_codec.md R173). -/
theorem distinct_unique {t : List Node} (hd : DistinctSymbols t) {x : Sym} : ∀ {m n : Nat}, (t[m]?).bind (fun a => a.val) = some x →
   (t[n]?).bind (fun a => a.val) = some x → m = n := by
  induction t with
  | nil => intro m n h; simp at h
  | cons a t ih =>
    intro m n hm hn
    have hd' : DistinctSymbols t := by
      unfold DistinctSymbols at *
      cases hv : a.val <;> simp [hv] at hd
      · exact hd
      · exact hd.2
    have hmem : ∀ {k : Nat}, (t[k]?).bind (·.val) = some x → x ∈ t.filterMap (·.val) := by
      intro k hk
      cases hq : t[k]? with
      | none => simp [hq] at hk
      | some q =>
        simp [hq] at hk
        exact List.mem_filterMap.mpr ⟨q, List.mem_of_getElem? hq, hk⟩
    have hno : ∀ {k : Nat}, (t[k]?).bind (·.val) = some x → a.val = some x → False := by
      intro k hk ha
      unfold DistinctSymbols at hd
      simp only [List.filterMap_cons, ha, List.nodup_cons] at hd
      exact hd.1 (hmem hk)
    cases m <;> cases n
    · rfl
    · exact (hno (by simpa using hn) (by simpa using hm)).elim
    · exact (hno (by simpa using hm) (by simpa using hn)).elim
    · next a b =>
      have : a = b := ih hd' (by simpa using hm) (by simpa using hn)
      rw [this]

/-- The last step of a path. -/
theorem follow_snoc {t : List Node} {n m : Nat} {p : List Bool} {b : Bool} (h : follow t n (p ++ [b]) = some m) :
   ∃ q qd, follow t n p = some q ∧ t[q]? = some qd ∧ (if b then qd.right else qd.left) = some m := by
  rw [follow_append] at h
  cases hq : follow t n p with
  | none => simp [hq] at h
  | some q =>
    simp only [hq, Option.bind_some] at h
    obtain ⟨qd, c, h1, h2, h3⟩ := follow_cons_some h
    simp only [follow, Option.some.injEq] at h3
    subst h3
    exact ⟨q, qd, rfl, h1, h2⟩

/-- One path leads from the root to a node (43_path_codec.md R172). -/
theorem follow_unique {t : List Node} (h : TreeOk t) : ∀ (k m : Nat), m < k → ∀ (p q : List Bool), follow t 0 p = some m → follow t 0 q = some m → p = q := by
  intro k
  induction k with
  | zero => intro m hm; omega
  | succ k ih =>
    intro m hm p q hp hq
    rcases List.eq_nil_or_concat p with rfl | ⟨p', b, rfl⟩
    · simp only [follow, Option.some.injEq] at hp
      subst hp
      rcases List.eq_nil_or_concat q with rfl | ⟨q', c, rfl⟩
      · rfl
      · rw [List.concat_eq_append] at hq
        obtain ⟨r, rd, h1, h2, h3⟩ := follow_snoc hq
        have := (treeOk_child h h2 (slot_of_bit h3)).1
        omega
    · rw [List.concat_eq_append] at hp
      obtain ⟨r, rd, h1, h2, h3⟩ := follow_snoc hp
      obtain ⟨g1, _, md, g2, g3⟩ := treeOk_child h h2 (slot_of_bit h3)
      rcases List.eq_nil_or_concat q with rfl | ⟨q', c, rfl⟩
      · simp only [follow, Option.some.injEq] at hq
        omega
      · rw [List.concat_eq_append] at hq
        obtain ⟨r', rd', k1, k2, k3⟩ := follow_snoc hq
        obtain ⟨l1, _, md', l2, l3⟩ := treeOk_child h k2 (slot_of_bit k3)
        rw [g2] at l2; cases l2
        have : r = r' := by omega
        subst this
        rw [h2] at k2; cases k2
        have e := ih r (by omega) p' q' h1 k1
        subst e
        have : b = c := by
          cases b <;> cases c <;> simp at h3 k3 <;> try rfl
          · exact (treeOk_distinct h h2 h3 k3 rfl).elim
          · exact (treeOk_distinct h h2 k3 h3 rfl).elim
        rw [this]

end Sys2Proof.Machine
end

