-- ==== Sys2Proof/Laws/PathCodec.lean ====
section
/-! SUPPORT. What the operations of the Path Codec can do, each said once. -/

namespace Sys2Proof.Machine

variable {t : List Node}

/-! ### The order of paths: a prefix first, then left before right -/

@[simp] theorem noLater_nil (q : List Bool) : noLater [] q = true := rfl

@[simp] theorem noLater_cons (b : Bool) (p q : List Bool) : noLater (b :: p) (b :: q) = noLater p q := by
  simp [noLater]

@[simp] theorem noLater_left_right (p q : List Bool) : noLater (false :: p) (true :: q) = true := rfl

/-! ### `TREE.PATHINFO` -/

/-- All that the search can give in a tree (43_path_codec.md R170): the first path to a node that holds the symbol, or
that there is none. -/
theorem searchOn_cases (h : TreeOk t) (x : Sym) : ∀ (k n : Nat), n < t.length → t.length - n ≤ k →
    ∀ fuel, t.length - n ≤ fuel →
    (∃ p m, searchOn t x fuel n = .at p ∧ follow t n p = some m ∧ (t[m]?).bind (·.val) = some x ∧
      ∀ q j, follow t n q = some j → (t[j]?).bind (·.val) = some x → noLater p q = true) ∨
    (searchOn t x fuel n = .nowhere ∧ ∀ q j, follow t n q = some j → (t[j]?).bind (·.val) ≠ some x) := by
  intro k
  induction k with
  | zero => intro n hn hk; omega
  | succ k ih =>
    intro n hn _ fuel hf
    obtain ⟨nd, hnd⟩ := treeOk_get h hn
    cases fuel with
    | zero => omega
    | succ fuel =>
      simp only [searchOn, hnd]
      by_cases hv : nd.val = some x
      · refine .inl ⟨[], n, by rw [if_pos hv], rfl, by simp [hnd, hv], fun q _ _ _ => noLater_nil q⟩
      · rw [if_neg hv]
        -- what one slot gives
        have hslot : ∀ (b : Bool) (c : Nat), (if b then nd.right else nd.left) = some c →
            (∃ p m, searchOn t x fuel c = .at p ∧ follow t n (b :: p) = some m ∧ (t[m]?).bind (·.val) = some x ∧
              ∀ q j, follow t n (b :: q) = some j → (t[j]?).bind (·.val) = some x → noLater (b :: p) (b :: q) = true) ∨
            (searchOn t x fuel c = .nowhere ∧ ∀ q j, follow t n (b :: q) = some j → (t[j]?).bind (·.val) ≠ some x) := by
          intro b c hc
          obtain ⟨h1, h2, _⟩ := treeOk_child h hnd (slot_of_bit hc)
          rcases ih c h2 (by omega) fuel (by omega) with ⟨p, m, hs, hfo, hval, hmin⟩ | ⟨hs, hno⟩
          · refine .inl ⟨p, m, hs, by rw [follow_cons hnd hc]; exact hfo, hval, fun q j hq hj => ?_⟩
            rw [follow_cons hnd hc] at hq
            exact (noLater_cons b p q).trans (hmin q j hq hj)
          · refine .inr ⟨hs, fun q j hq => ?_⟩
            rw [follow_cons hnd hc] at hq
            exact hno q j hq
        have hempty : ∀ (b : Bool), (if b then nd.right else nd.left) = none → ∀ q j, follow t n (b :: q) ≠ some j := by
          intro b hb q j hq
          obtain ⟨nd', c, hnd', hc, _⟩ := follow_cons_some hq
          rw [hnd] at hnd'; cases hnd'
          rw [hb] at hc; cases hc
        have hself : ∀ j, follow t n [] = some j → (t[j]?).bind (·.val) ≠ some x := by
          intro j hj hx
          simp only [follow, Option.some.injEq] at hj
          subst hj
          simp [hnd] at hx
          exact hv hx
        have hright : (∀ q j, follow t n (false :: q) = some j → (t[j]?).bind (·.val) ≠ some x) →
            (∃ p m, (match nd.right with | none => Found.nowhere | some r => (searchOn t x fuel r).below true) = .at p ∧
              follow t n p = some m ∧ (t[m]?).bind (·.val) = some x ∧
              ∀ q j, follow t n q = some j → (t[j]?).bind (·.val) = some x → noLater p q = true) ∨
            ((match nd.right with | none => Found.nowhere | some r => (searchOn t x fuel r).below true) = .nowhere ∧
              ∀ q j, follow t n q = some j → (t[j]?).bind (·.val) ≠ some x) := by
          intro hleft
          cases hr : nd.right with
          | none =>
            refine .inr ⟨rfl, fun q j hq => ?_⟩
            cases q with
            | nil => exact hself j hq
            | cons b q =>
              cases b with
              | false => exact hleft q j hq
              | true => exact absurd hq (hempty true (by simpa using hr) q j)
          | some r =>
            rcases hslot true r (by simpa using hr) with ⟨p, m, hs, hfo, hval, hmin⟩ | ⟨hs, hno⟩
            · refine .inl ⟨true :: p, m, by simp [hs, Found.below], hfo, hval, fun q j hq hj => ?_⟩
              cases q with
              | nil => exact absurd hj (hself j hq)
              | cons b q =>
                cases b with
                | false => exact absurd hj (hleft q j hq)
                | true => exact hmin q j hq hj
            · refine .inr ⟨by simp [hs, Found.below], fun q j hq => ?_⟩
              cases q with
              | nil => exact hself j hq
              | cons b q =>
                cases b with
                | false => exact hleft q j hq
                | true => exact hno q j hq
        cases hl : nd.left with
        | none =>
          exact hright fun q j hq => absurd hq (hempty false (by simpa using hl) q j)
        | some l =>
          rcases hslot false l (by simpa using hl) with ⟨p, m, hs, hfo, hval, hmin⟩ | ⟨hs, hno⟩
          · refine .inl ⟨false :: p, m, by simp [hs, Found.below], hfo, hval, fun q j hq hj => ?_⟩
            cases q with
            | nil => exact absurd hj (hself j hq)
            | cons b q =>
              cases b with
              | false => exact hmin q j hq hj
              | true => exact noLater_left_right p q
          · simp only [hs, Found.below]
            exact hright hno

/-- In a tree every node is at the end of a path from the root. -/
theorem follow_of_below {n m : Nat} (hb : Below t n m) : ∃ p, follow t n p = some m := by
  induction hb with
  | self => exact ⟨[], rfl⟩
  | child m c nd _ hn hc ih =>
    obtain ⟨p, hp⟩ := ih
    rcases hc with hc | hc
    · exact ⟨p ++ [false], by rw [follow_append, hp]; simp [follow, hn, hc]⟩
    · exact ⟨p ++ [true], by rw [follow_append, hp]; simp [follow, hn, hc]⟩

/-- All that `TREE.PATHINFO` can do in a tree (43_path_codec.md R170). -/
theorem treePathinfo_cases {s : State} (h : TreeOk s.nodes) (x : Sym) :
    (∃ p m, treePathinfo x s = .ok () ((s.setFound true).setPath p.length p) ∧ follow s.nodes 0 p = some m ∧
      (s.nodes[m]?).bind (·.val) = some x ∧
      ∀ q j, follow s.nodes 0 q = some j → (s.nodes[j]?).bind (·.val) = some x → noLater p q = true) ∨
    (treePathinfo x s = .ok () ((s.setFound false).setPath 0 []) ∧ ∀ nd ∈ s.nodes, nd.val ≠ some x) := by
  unfold treePathinfo search
  rcases searchOn_cases h x _ 0 h.1 (Nat.le_refl _) s.nodes.length (by omega) with
    ⟨p, m, hs, hfo, hval, hmin⟩ | ⟨hs, hno⟩
  · exact .inl ⟨p, m, by rw [hs], hfo, hval, hmin⟩
  · refine .inr ⟨by rw [hs], fun nd hnd hv => ?_⟩
    obtain ⟨m, hm⟩ := List.mem_iff_getElem?.mp hnd
    obtain ⟨p, hp⟩ := follow_of_below (below_root h _ m (Nat.lt_succ_self _) (List.getElem?_eq_some_iff.mp hm).1)
    exact hno p m hp (by simp [hm, hv])

/-! ### `TREE.FINDVALUE` -/

/-- The bits the walk still has before it. -/
def bitsFrom (p : List Bool) (i k : Nat) : List Bool := (List.range' i k).map fun j => pathBit p j

theorem pathField_eq (p : List Bool) (d : Nat) : pathField p d = bitsFrom p 0 d := by
  simp [pathField, bitsFrom, List.range_eq_range', pathBit]

theorem bitsFrom_succ (p : List Bool) (i k : Nat) : bitsFrom p i (k + 1) = pathBit p i :: bitsFrom p (i + 1) k := by
  simp [bitsFrom, List.range'_succ]

/-- The walk that reaches a node gives its symbol, or `TreeLookupFailure` where the node is empty
(43_path_codec.md R171). -/
theorem walk_of_follow {p : List Bool} {nd : Node} {m : Nat} (hm : t[m]? = some nd) : ∀ (k i n : Nat),
    follow t n (bitsFrom p i k) = some m →
    walk t p k i n = match nd.val with
      | none => .error .treeLookupFailure
      | some v => .ok v := by
  intro k
  induction k with
  | zero =>
    intro i n hf
    simp only [bitsFrom, List.range'_zero, List.map_nil, follow, Option.some.injEq] at hf
    subst hf
    cases hv : nd.val <;> simp [walk, hm, hv]
  | succ k ih =>
    intro i n hf
    rw [bitsFrom_succ] at hf
    obtain ⟨nd', c, hnd', hc, hf'⟩ := follow_cons_some hf
    simp only [walk, hnd', hc]
    exact ih (i + 1) c hf'

/-- In a tree the walk that reaches no node raises `TreeLookupFailure` (43_path_codec.md R171). -/
theorem walk_of_no_follow (h : TreeOk t) {p : List Bool} : ∀ (k i n : Nat), n < t.length →
    follow t n (bitsFrom p i k) = none → walk t p k i n = .error .treeLookupFailure := by
  intro k
  induction k with
  | zero =>
    intro i n _ hf
    simp [bitsFrom, follow] at hf
  | succ k ih =>
    intro i n hn hf
    obtain ⟨nd, hnd⟩ := treeOk_get h hn
    rw [bitsFrom_succ] at hf
    simp only [walk, hnd]
    cases hc : (if pathBit p i then nd.right else nd.left) with
    | none => rfl
    | some c =>
      rw [follow_cons hnd hc] at hf
      exact ih (i + 1) c (treeOk_child h hnd (slot_of_bit hc)).2.1 hf

/-- All that `TREE.FINDVALUE` can do in a tree (43_path_codec.md R171): the symbol of the node the path leads to, or
`TreeLookupFailure`; the state is unchanged. -/
theorem treeFindvalue_cases {s : State} (h : TreeOk s.nodes) :
    (∃ m x, follow s.nodes 0 (pathField s.piPath s.piDepth) = some m ∧ (s.nodes[m]?).bind (·.val) = some x ∧
      treeFindvalue s = .ok x s) ∨
    ((∀ m, follow s.nodes 0 (pathField s.piPath s.piDepth) = some m → (s.nodes[m]?).bind (·.val) = none) ∧
      treeFindvalue s = .error .treeLookupFailure s) := by
  unfold treeFindvalue
  rw [pathField_eq]
  cases hf : follow s.nodes 0 (bitsFrom s.piPath 0 s.piDepth) with
  | none => exact .inr ⟨by simp, by rw [walk_of_no_follow h _ _ _ h.1 hf]⟩
  | some m =>
    obtain ⟨nd, hnd⟩ := treeOk_get h (follow_lt h h.1 hf)
    have hw := walk_of_follow hnd _ _ _ hf
    cases hv : nd.val with
    | none => exact .inr ⟨by simp [hnd, hv], by simp [hw, hv]⟩
    | some v => exact .inl ⟨m, v, rfl, by simp [hnd, hv], by simp [hw, hv]⟩

/-- `TREE.FINDVALUE` at a node that the path leads to (43_path_codec.md R171). -/
theorem treeFindvalue_of_follow {s : State} {n : Nat} {nd : Node} (h : follow s.nodes 0 (pathField s.piPath s.piDepth) = some n) (hn : s.nodes[n]? = some nd) :
   treeFindvalue s = match nd.val with | none => .error .treeLookupFailure s | some v => .ok v s := by
  rw [pathField_eq] at h
  have := walk_of_follow hn _ _ _ h
  simp only [treeFindvalue, this]
  cases nd.val <;> rfl

theorem pathField_self (p : List Bool) : pathField p p.length = p := by
  apply List.ext_getElem?
  intro i
  by_cases hi' : i < p.length
  · simp [pathField, hi']
  · rw [List.getElem?_eq_none (by simp [pathField]; omega), List.getElem?_eq_none (by omega)]

end Sys2Proof.Machine
end

