-- ==== Sys2Proof/Laws/RunLength.lean ====
section
/-! SUPPORT. What the symbols of a buffer and the runs of a symbol sequence are, each said once. -/

namespace Sys2Proof.Machine

/-! ### The symbols of the raw buffer -/

theorem width_le_four (w : Width) : 1 ≤ w.bytes ∧ w.bytes ≤ 4 := by cases w <;> decide

theorem symAt_toNat (s : State) (i : Nat) : (s.symAt i).toNat = s.inMem.load (i * s.cfg.w) s.cfg.w := by
  unfold State.symAt
  rw [BitVec.toNat_ofNat, Nat.mod_eq_of_lt]
  refine Nat.lt_of_lt_of_le (load_lt _ _ _) ?_
  have h := (width_le_four s.cfg.width).2
  calc 256 ^ s.cfg.w ≤ 256 ^ 4 := Nat.pow_le_pow_right (by decide) h
    _ = 2 ^ 32 := by decide

/-- A symbol read from `IN` has the width of a symbol (00_scope.md R17, 20_memory.md R64). -/
theorem symAt_fits (s : State) (i : Nat) : (s.symAt i).fits s.cfg = true := by
  simp only [Sym.fits, decide_eq_true_eq, symAt_toNat, Nat.pow_mul]
  exact load_lt _ _ _

@[simp] theorem symsFrom_length (s : State) (i k : Nat) : (s.symsFrom i k).length = k := by
  induction k generalizing i with
  | zero => rfl
  | succ k ih => simp [State.symsFrom, ih]

theorem symsFrom_getElem? (s : State) {i k j : Nat} (hj : j < k) : (s.symsFrom i k)[j]? = some (s.symAt (i + j)) := by
  induction k generalizing i j with
  | zero => omega
  | succ k ih =>
    cases j with
    | zero => rfl
    | succ j =>
      simp only [State.symsFrom, List.getElem?_cons_succ]
      rw [ih (by omega), show i + 1 + j = i + (j + 1) by omega]

theorem inSymbols_length (s : State) : s.inSymbols.length = s.inLen.toNat / s.cfg.w := symsFrom_length s 0 _

theorem inSymbols_getElem? (s : State) {j : Nat} (hj : j < s.inLen.toNat / s.cfg.w) :
    s.inSymbols[j]? = some (s.symAt j) := by
  rw [State.inSymbols, State.symCount, symsFrom_getElem? s hj, Nat.zero_add]

theorem inSymbols_fits (s : State) : ∀ x ∈ s.inSymbols, x.fits s.cfg = true := by
  intro x hx
  obtain ⟨j, hj, rfl⟩ := List.mem_iff_getElem.mp hx
  have h := inSymbols_getElem? s (inSymbols_length s ▸ hj)
  rw [List.getElem?_eq_getElem hj] at h
  rw [Option.some.inj h]
  exact symAt_fits s j

/-! ### Runs -/

/-- The symbols a run sequence stands for (10_state.md R25). -/
def spell (r : List Run) : List Sym := r.flatMap fun x => List.replicate x.count.toNat x.sym

/-- What `runsFrom` can give (40_run_length.md R130): the runs spell the open run and then the symbols, each run holds 1
to 255, the first is the open run or an extension of it, and two neighbours share a symbol only at the cap. -/
theorem runsFrom_spec (xs : List Sym) (cur : Run) (hc : 1 ≤ cur.count.toNat) :
    spell (runsFrom cur xs) = List.replicate cur.count.toNat cur.sym ++ xs ∧
    (∀ r ∈ runsFrom cur xs, 1 ≤ r.count.toNat) ∧
    (∃ r rest, runsFrom cur xs = r :: rest ∧ r.sym = cur.sym) ∧
    (∀ i a b, (runsFrom cur xs)[i]? = some a → (runsFrom cur xs)[i + 1]? = some b → a.sym = b.sym →
      a.count.toNat = 255) ∧
    (runsFrom cur xs).length ≤ xs.length + 1 := by
  induction xs generalizing cur with
  | nil =>
    refine ⟨by simp [runsFrom, spell], by simp [runsFrom, hc], ⟨cur, [], rfl, rfl⟩, ?_, by simp [runsFrom]⟩
    intro i a b _ h2
    simp [runsFrom] at h2
  | cons x xs ih =>
    simp only [runsFrom]
    split
    · next h =>
      have hcount : (cur.count + 1).toNat = cur.count.toNat + 1 := by
        have : cur.count.toNat < 255 := h.2
        rw [BitVec.toNat_add]
        change (cur.count.toNat + 1) % 2 ^ 8 = _
        omega
      obtain ⟨h1, h2, h3, h4, h5⟩ := ih { cur with count := cur.count + 1 } (by simp only [hcount]; omega)
      refine ⟨?_, h2, h3, h4, by simp only [List.length_cons]; omega⟩
      rw [h1]
      simp only [hcount, List.replicate_succ', List.append_assoc, List.singleton_append, h.1]
    · next h =>
      obtain ⟨h1, h2, ⟨r, rest, hr, hs⟩, h4, h5⟩ := ih { sym := x, count := 1 } (Nat.le_refl 1)
      refine ⟨?_, ?_, ⟨cur, _, rfl, rfl⟩, ?_, by simp only [List.length_cons]; omega⟩
      · change List.replicate cur.count.toNat cur.sym ++ spell (runsFrom { sym := x, count := 1 } xs) = _
        rw [h1]
        rfl
      · intro r hr
        rcases List.mem_cons.mp hr with rfl | hr
        · exact hc
        · exact h2 r hr
      · intro i a b ha hb hab
        cases i with
        | zero =>
          simp only [List.getElem?_cons_zero, Option.some.injEq] at ha
          subst ha
          rw [Nat.zero_add, List.getElem?_cons_succ, hr] at hb
          simp only [List.getElem?_cons_zero, Option.some.injEq] at hb
          subst hb
          by_contra hne
          exact h ⟨by rw [hab, hs], by have := cur.count.isLt; simp only [countCap]; omega⟩
        | succ i =>
          rw [List.getElem?_cons_succ] at ha hb
          exact h4 i a b ha hb hab

/-- What `RLE.COLLAPSE` leaves in `RUNS` (10_state.md R25, 40_run_length.md R130). -/
theorem runsOf_spec (xs : List Sym) :
    spell (runsOf xs) = xs ∧ (∀ r ∈ runsOf xs, 1 ≤ r.count.toNat) ∧
    (∀ i a b, (runsOf xs)[i]? = some a → (runsOf xs)[i + 1]? = some b → a.sym = b.sym → a.count.toNat = 255) ∧
    (runsOf xs).length ≤ xs.length := by
  cases xs with
  | nil => simp [runsOf, spell]
  | cons x xs =>
    obtain ⟨h1, h2, _, h4, h5⟩ := runsFrom_spec xs { sym := x, count := 1 } (Nat.le_refl 1)
    exact ⟨by rw [runsOf, h1]; rfl, h2, h4, h5⟩

/-- Every symbol of a run occurs in the symbols collapsed. -/
theorem mem_of_mem_runsOf {xs : List Sym} {r : Run} (h : r ∈ runsOf xs) : r.sym ∈ xs := by
  obtain ⟨h1, h2, _⟩ := runsOf_spec xs
  rw [← h1, spell, List.mem_flatMap]
  exact ⟨r, h, List.mem_replicate.mpr ⟨by have := h2 r h; omega, rfl⟩⟩

@[simp] theorem rleCollapse_apply (s : State) : rleCollapse s = .ok () (s.setRuns (runsOf s.inSymbols)) := rfl

end Sys2Proof.Machine
end

