-- ==== Sys2Proof/Laws/Stream.lean ====
section
/-! SUPPORT. What a sequence of `BSW.PUT` writes and what a sequence of `BSR.READBIT` reads, each said once. -/

namespace Sys2Proof.Machine

/-! ### Writing bits -/

/-- Bit `i` of the first `cur` bits of the working byte and then `bits`; 0 past their end. -/
def pending (byte : BitVec 8) (cur : Nat) (bits : List Bool) (i : Nat) : Bool :=
  if i < cur then byte.getLsbD i else bits.getD (i - cur) false

/-- `BSW.WRITEBIT` puts the next bit behind the pending ones. -/
theorem pending_cons (byte : BitVec 8) (cur : BitVec 3) (b : Bool) (bits : List Bool) (i : Nat) :
    pending (withBit byte cur b) (cur.toNat + 1) bits i = pending byte cur.toNat (b :: bits) i := by
  have hc := cur.isLt
  unfold pending
  by_cases h1 : i < cur.toNat
  · rw [if_pos (by omega), if_pos h1, withBit_getLsbD _ _ _ _ (by omega), if_neg (by omega)]
  · rw [if_neg h1]
    by_cases h2 : i = cur.toNat
    · rw [if_pos (by omega), withBit_getLsbD _ _ _ _ (by omega), if_pos h2, h2, Nat.sub_self]
      rfl
    · rw [if_neg (by omega), show i - cur.toNat = (i - (cur.toNat + 1)) + 1 by omega]
      rfl

/-- What a sequence of `BSW.PUT` leaves in the state `t`: the bits that were in the working byte and the bits put stand,
least significant first, in the bytes appended at `OUT_LEN` and, what is left over, in the working byte
(44_bitstream.md R181, R182, R185). -/
structure PutsTo (s : State) (bits : List Bool) (t : State) : Prop where
  /-- Only the writer and the output buffer have changed. -/
  frame : t = (s.setOut t.outMem t.outLen).setWriter t.wbyte t.wcur t.tbits
  /-- The bytes filled have been appended. -/
  len : t.outLen = s.outLen + (s.wcur.toNat + bits.length) / 8
  /-- The cursor. -/
  cur : t.wcur.toNat = (s.wcur.toNat + bits.length) % 8
  /-- The count. -/
  count : t.tbits.toNat = s.tbits.toNat + bits.length
  /-- The memory keeps its canonical form. -/
  wf : s.outMem.wf = true → t.outMem.wf = true
  /-- The bits of the bytes appended. -/
  out : s.outMem.wf = true → ∀ i < 8 * ((s.wcur.toNat + bits.length) / 8),
    (t.outMem.read (s.outLen + i / 8)).getLsbD (i % 8) = pending s.wbyte s.wcur.toNat bits i
  /-- The bits left over. -/
  rest : (∀ j < 8, s.wcur.toNat ≤ j → s.wbyte.getLsbD j = false) → ∀ j < 8,
    t.wbyte.getLsbD j = pending s.wbyte s.wcur.toNat bits (8 * ((s.wcur.toNat + bits.length) / 8) + j)
  /-- Every other byte of `OUT` is as it was. -/
  other : ∀ a, a < s.outLen ∨ t.outLen ≤ a → t.outMem.read a = s.outMem.read a

theorem putsTo_nil (s : State) : PutsTo s [] s := by
  have hc := s.wcur.isLt
  refine ⟨rfl, by simp; omega, by simp; omega, by simp, fun h => h, ?_, ?_, fun _ _ => rfl⟩
  · intro _ i hi
    simp at hi; omega
  · intro hclean j hj
    have h0 : (s.wcur.toNat + ([] : List Bool).length) / 8 = 0 := by simp; omega
    rw [h0]
    unfold pending
    simp only [Nat.mul_zero, Nat.zero_add, List.getD_nil]
    split
    · rfl
    · exact hclean j hj (by omega)

/-- One `BSW.PUT` that has room and does not reach the largest count, then the rest. -/
theorem bswPut_then {b : Bool} {bits : List Bool} {s : State} (hT : s.tbits.toNat + (bits.length + 1) < 2 ^ 32)
    (hfit : s.cfg.outFits (s.outLen + (s.wcur.toNat + (bits.length + 1)) / 8) = true) :
    ∃ s', bswPut b s = .ok () s' ∧ s'.cfg = s.cfg ∧ s'.tbits.toNat = s.tbits.toNat + 1 ∧
      s'.outLen + (s'.wcur.toNat + bits.length) / 8 = s.outLen + (s.wcur.toNat + (bits.length + 1)) / 8 ∧
      ∀ t, PutsTo s' bits t → PutsTo s (b :: bits) t := by
  have hc := s.wcur.isLt
  have hT1 : (s.tbits + 1).toNat = s.tbits.toNat + 1 := by
    rw [BitVec.toNat_add]
    change (s.tbits.toNat + 1) % 2 ^ 32 = _
    omega
  rcases bswPut_cases b s with ⟨h, _⟩ | ⟨_, hne, h⟩ | ⟨_, h7, hf, h⟩ | ⟨_, h7, hf, _⟩
  · omega
  · have hc1 : (s.wcur + 1).toNat = s.wcur.toNat + 1 := by
      rw [BitVec.toNat_add]
      change (s.wcur.toNat + 1) % 2 ^ 3 = _
      omega
    have hlen : s.wcur.toNat + 1 + bits.length = s.wcur.toNat + (bits.length + 1) := by omega
    refine ⟨_, h, rfl, hT1, ?_, fun t ht => ?_⟩
    · change s.outLen + ((s.wcur + 1).toNat + bits.length) / 8 = _
      rw [hc1, hlen]
    obtain ⟨frame, len, cur, count, wf, out, rest, other⟩ := ht
    simp only [setWriter_outLen, setWriter_wcur, setWriter_wbyte, setWriter_tbits, setWriter_outMem] at *
    rw [hc1] at len cur out rest
    rw [hT1] at count
    refine ⟨frame, by rw [len, List.length_cons, hlen], by rw [cur, List.length_cons, hlen],
      by rw [count, List.length_cons]; omega, wf, ?_, ?_, other⟩
    · intro hwf i hi
      rw [← pending_cons]
      exact out hwf i (by rw [List.length_cons] at hi; omega)
    · intro hclean j hj
      rw [← pending_cons, List.length_cons, ← hlen]
      refine rest (fun k hk hk2 => ?_) j hj
      rw [withBit_getLsbD _ _ _ _ hk, if_neg (by omega)]
      exact hclean k hk (by omega)
  · refine ⟨_, h, rfl, by simpa using hT1, by simp [h7]; omega, fun t ht => ?_⟩
    obtain ⟨frame, len, cur, count, wf, out, rest, other⟩ := ht
    simp only [setWriter_outLen, setOut_outLen, setWriter_wcur, setWriter_wbyte, setWriter_tbits, setWriter_outMem,
      setOut_outMem] at *
    have hz : (0 : BitVec 3).toNat = 0 := rfl
    rw [hz] at len cur out rest
    rw [hT1] at count
    have hdiv : (s.wcur.toNat + (bits.length + 1)) / 8 = 1 + (0 + bits.length) / 8 := by omega
    refine ⟨frame, by rw [len, List.length_cons, hdiv]; omega, by rw [cur, List.length_cons]; omega,
      by rw [count, List.length_cons]; omega, fun hwf => wf (wf_write hwf _ _), ?_, ?_, ?_⟩
    · intro hwf i hi
      rw [List.length_cons, hdiv] at hi
      by_cases h1 : i < 8
      · rw [show i / 8 = 0 by omega, show i % 8 = i by omega, other _ (.inl (by omega)), Nat.add_zero,
          read_write_same hwf, withBit_getLsbD _ _ _ _ h1]
        unfold pending
        by_cases h2 : i < s.wcur.toNat
        · rw [if_neg (by omega), if_pos h2]
        · rw [if_pos (by omega), if_neg h2, show i - s.wcur.toNat = 0 by omega]
          rfl
      · have := out (wf_write hwf _ _) (i - 8) (by omega)
        rw [show s.outLen + 1 + (i - 8) / 8 = s.outLen + i / 8 by omega, show (i - 8) % 8 = i % 8 by omega] at this
        rw [this]
        unfold pending
        rw [if_neg (by simp), if_neg (by omega), h7, show i - 7 = (i - 8) + 1 by omega]
        rfl
    · intro _ j hj
      rw [rest (fun k hk _ => by simp) j hj, List.length_cons, hdiv]
      unfold pending
      rw [if_neg (by simp), if_neg (by omega), h7,
        show 8 * (1 + (0 + bits.length) / 8) + j - 7 = (8 * ((0 + bits.length) / 8) + j) + 1 by omega]
      rfl
    · intro a ha
      rw [other a (by omega), read_write_other _ _ (by omega)]
  · exfalso
    rw [outFits_mono hfit (by omega)] at hf
    cases hf

/-- A sequence of `BSW.PUT` with room that does not reach the largest count completes (44_bitstream.md R185). -/
theorem puts_ok (bits : List Bool) (s : State) (hT : s.tbits.toNat + bits.length < 2 ^ 32)
    (hfit : s.cfg.outFits (s.outLen + (s.wcur.toNat + bits.length) / 8) = true) :
    ∃ t, forEach bits bswPut s = .ok () t ∧ PutsTo s bits t := by
  induction bits generalizing s with
  | nil => exact ⟨s, rfl, putsTo_nil s⟩
  | cons b bits ih =>
    obtain ⟨s', h1, h2, h3, h4, h5⟩ := bswPut_then (b := b) hT hfit
    obtain ⟨t, h6, h7⟩ := ih s' (by rw [h3]; simp at hT; omega) (by rw [h2, h4]; exact hfit)
    exact ⟨t, by simp only [forEach, bind_of_ok h1, h6], h5 t h7⟩

/-- A sequence of `BSW.PUT` without room that does not reach the largest count raises `OutputOverflow`. -/
theorem puts_overflow (bits : List Bool) (s : State) (hT : s.tbits.toNat + bits.length < 2 ^ 32)
    (hfit : s.cfg.outFits (s.outLen + (s.wcur.toNat + bits.length) / 8) = false) (h0 : s.cfg.outFits s.outLen = true) :
    ∃ t, forEach bits bswPut s = .error .outputOverflow t := by
  induction bits generalizing s with
  | nil =>
    have := s.wcur.isLt
    rw [show s.outLen + (s.wcur.toNat + ([] : List Bool).length) / 8 = s.outLen by simp; omega, h0] at hfit
    cases hfit
  | cons b bits ih =>
    simp only [List.length_cons] at hT hfit
    have hc := s.wcur.isLt
    have hT1 : (s.tbits + 1).toNat = s.tbits.toNat + 1 := by
      rw [BitVec.toNat_add]
      change (s.tbits.toNat + 1) % 2 ^ 32 = _
      omega
    rcases bswPut_cases b s with ⟨h, _⟩ | ⟨_, hne, h⟩ | ⟨_, h7, hf, h⟩ | ⟨_, h7, hf, t, h⟩
    · omega
    · have hc1 : (s.wcur + 1).toNat = s.wcur.toNat + 1 := by
        rw [BitVec.toNat_add]
        change (s.wcur.toNat + 1) % 2 ^ 3 = _
        omega
      obtain ⟨t, ht⟩ := ih (s.setWriter (withBit s.wbyte s.wcur b) (s.wcur + 1) (s.tbits + 1))
        (by simp only [setWriter_tbits, hT1]; omega)
        (by simp only [setWriter_cfg, setWriter_outLen, setWriter_wcur, hc1]
            rw [show s.wcur.toNat + 1 + bits.length = s.wcur.toNat + (bits.length + 1) by omega]; exact hfit) h0
      exact ⟨t, by simp only [forEach, bind_of_ok h, ht]⟩
    · obtain ⟨t, ht⟩ := ih
        ((s.setOut (s.outMem.write s.outLen (withBit s.wbyte s.wcur b)) (s.outLen + 1)).setWriter 0 0 (s.tbits + 1))
        (by simp only [setWriter_tbits, hT1]; omega)
        (by simp only [setWriter_cfg, setOut_cfg, setWriter_outLen, setOut_outLen, setWriter_wcur]
            rw [show s.outLen + 1 + ((0 : BitVec 3).toNat + bits.length) / 8 =
              s.outLen + (s.wcur.toNat + (bits.length + 1)) / 8 by
                have hz : (0 : BitVec 3).toNat = 0 := rfl
                omega]
            exact hfit) hf
      exact ⟨t, by simp only [forEach, bind_of_ok h, ht]⟩
    · exact ⟨t, by simp only [forEach, bind_of_error h]⟩

/-- `DRV.RECEMIT` is `BSW.PUT` of the depth field and then of the path field (45_codec_driver.md R205). -/
theorem drvRecemit_eq (s : State) : drvRecemit s =
    forEach (depthField s.mdb.toNat s.piDepth ++ pathField s.piPath s.piDepth) bswPut s := by
  have hmap : ∀ {α β : Type} (f : α → β) (l : List α) (body : β → Op Unit),
      forEach (l.map f) body = forEach l fun a => body (f a) := by
    intro α β f l body
    induction l with
    | nil => rfl
    | cons a l ih => simp only [List.map_cons, forEach, ih]
  rw [forEach_append, depthField, pathField, hmap, hmap, List.range_eq_range', List.range_eq_range',
    ← countUp_eq_forEach, ← countUp_eq_forEach]
  rfl

/-! ### Reading bits -/

/-- The reader moved `k` bits on. -/
structure ReadsTo (s : State) (k : Nat) (t : State) : Prop where
  /-- Only the reader's place has changed. -/
  frame : t = s.setReader t.ridx t.rcur t.rbits
  /-- The place agrees with the count. -/
  placed : ReaderPlaced t
  /-- The count. -/
  count : t.rbits.toNat = s.rbits.toNat + k

theorem readsTo_zero {s : State} (h : ReaderPlaced s) : ReadsTo s 0 s := ⟨rfl, h, rfl⟩

theorem readsTo_trans {s t u : State} {j k : Nat} (h1 : ReadsTo s j t) (h2 : ReadsTo t k u) : ReadsTo s (j + k) u := by
  obtain ⟨f1, _, c1⟩ := h1
  obtain ⟨f2, p2, c2⟩ := h2
  refine ⟨?_, p2, by omega⟩
  rw [f2, f1]
  rfl

/-- One bit read from a placed reader, the whole stream inside `IN` (44_bitstream.md R187, R189). -/
theorem bsrReadbit_ok {s : State} (hp : ReaderPlaced s) (hb : s.rbits.toNat < s.rtotal.toNat)
    (hi : s.rbase.toNat + ceilDiv8 s.rtotal.toNat ≤ s.inLen.toNat) :
    ∃ t, bsrReadbit s = .ok (streamBit s.inMem s.rbase.toNat s.rbits.toNat) t ∧ ReadsTo s 1 t := by
  have htot := s.rtotal.isLt
  refine ⟨_, bsrReadbit_of_placed hp hb (by unfold ceilDiv8 at hi; omega), ?_⟩
  obtain ⟨h1, h2⟩ := readerNext_placed hp (by omega)
  exact ⟨readerNext_eq s, h1, h2⟩

/-- The depth loop of `DRV.RECREAD` reads the next `k` bits as a number, least significant first
(45_codec_driver.md R216). -/
theorem readDepth_ok (k : Nat) {i d : Nat} {s : State} (hd : d < 2 ^ i) (hp : ReaderPlaced s)
    (hb : s.rbits.toNat + k ≤ s.rtotal.toNat)
    (hi : s.rbase.toNat + ceilDiv8 s.rtotal.toNat ≤ s.inLen.toNat) :
    ∃ t, readDepth k i d s = .ok (d + 2 ^ i * bitsToNat (streamBits s.inMem s.rbase.toNat s.rbits.toNat k)) t ∧
      ReadsTo s k t := by
  induction k generalizing i d s with
  | zero => exact ⟨s, by simp [readDepth, streamBits, bitsToNat], readsTo_zero hp⟩
  | succ k ih =>
    obtain ⟨t, h1, h2⟩ := bsrReadbit_ok hp (by omega) hi
    obtain ⟨frame, placed, count⟩ := h2
    have hadd := withDepthBit_add (streamBit s.inMem s.rbase.toNat s.rbits.toNat) hd
    have hlt : withDepthBit d i (streamBit s.inMem s.rbase.toNat s.rbits.toNat) < 2 ^ (i + 1) := by
      rw [hadd, Nat.pow_succ]
      cases streamBit s.inMem s.rbase.toNat s.rbits.toNat <;> simp <;> omega
    have e1 : t.rtotal = s.rtotal := by rw [frame]; rfl
    have e2 : t.rbase = s.rbase := by rw [frame]; rfl
    have e3 : t.inLen = s.inLen := by rw [frame]; rfl
    have e4 : t.inMem = s.inMem := by rw [frame]; rfl
    obtain ⟨u, h3, h4⟩ := ih hlt placed (by rw [e1]; omega) (by rw [e1, e2, e3]; exact hi)
    refine ⟨u, ?_, ?_⟩
    · simp only [readDepth]
      rw [bind_of_ok h1, h3, e4, e2, count, hadd, streamBits_succ, bitsToNat, Nat.pow_succ]
      congr 1
      ring
    · have := readsTo_trans ⟨frame, placed, count⟩ h4
      rwa [Nat.add_comm] at this

/-- The path loop of `DRV.RECREAD` appends the next `k` bits to the path register (45_codec_driver.md R216). -/
theorem readPath_ok (k : Nat) {s : State} (hp : ReaderPlaced s) (hb : s.rbits.toNat + k ≤ s.rtotal.toNat)
    (hi : s.rbase.toNat + ceilDiv8 s.rtotal.toNat ≤ s.inLen.toNat) :
    ∃ t, repeatOp k readPathBit s = .ok () t ∧
      ReadsTo (s.setPath s.piDepth (s.piPath ++ streamBits s.inMem s.rbase.toNat s.rbits.toNat k)) k t := by
  induction k generalizing s with
  | zero =>
    refine ⟨s, rfl, ?_⟩
    have : s.setPath s.piDepth (s.piPath ++ streamBits s.inMem s.rbase.toNat s.rbits.toNat 0) = s := by
      simp [streamBits]; rfl
    rw [this]
    exact readsTo_zero hp
  | succ k ih =>
    obtain ⟨t, h1, frame, placed, count⟩ := bsrReadbit_ok hp (by omega) hi
    let s1 := t.setPath t.piDepth (t.piPath ++ [streamBit s.inMem s.rbase.toNat s.rbits.toNat])
    have hbit : readPathBit s = .ok () s1 := by
      unfold readPathBit
      rw [bind_of_ok h1]
      rfl
    have e1 : s1.rtotal = s.rtotal := by change t.rtotal = _; rw [frame]; rfl
    have e2 : s1.rbase = s.rbase := by change t.rbase = _; rw [frame]; rfl
    have e3 : s1.inLen = s.inLen := by change t.inLen = _; rw [frame]; rfl
    have e4 : s1.inMem = s.inMem := by change t.inMem = _; rw [frame]; rfl
    have e5 : s1.piPath = s.piPath ++ [streamBit s.inMem s.rbase.toNat s.rbits.toNat] := by
      change t.piPath ++ _ = _; rw [frame]; rfl
    have e6 : s1.piDepth = s.piDepth := by change t.piDepth = _; rw [frame]; rfl
    have e7 : s1.rbits.toNat = s.rbits.toNat + 1 := count
    obtain ⟨u, h3, h4⟩ := ih (s := s1) placed (by rw [e1]; omega) (by rw [e1, e2, e3]; exact hi)
    refine ⟨u, by simp only [repeatOp]; rw [bind_of_ok hbit, h3], ?_⟩
    obtain ⟨f4, p4, c4⟩ := h4
    refine ⟨?_, p4, ?_⟩
    · rw [f4, e4, e5, e6, e2, e7, streamBits_succ, List.append_assoc, List.singleton_append]
      change ((t.setPath t.piDepth _).setPath _ _).setReader _ _ _ = _
      rw [frame]
      rfl
    · rw [c4]
      simp only [setPath_rbits]
      omega

end Sys2Proof.Machine
end

