-- ==== Sys2Proof/Laws/Driver.lean ====
section
/-! SUPPORT. What the micro-operations of the Codec Driver can do, each said once. -/

namespace Sys2Proof.Machine

/-! ### Byte images -/

@[simp] theorem leBytes_length (n v : Nat) : (leBytes n v).length = n := by simp [leBytes]

theorem leBytes_succ (n v : Nat) : leBytes (n + 1) v = BitVec.ofNat 8 v :: leBytes n (v / 256) := by
  simp only [leBytes, List.range_succ_eq_map, List.map_cons, List.map_map, Nat.pow_zero, Nat.div_one]
  congr 1
  apply List.map_congr_left
  intro k _
  simp only [Function.comp_apply, Nat.div_div_eq_div_mul, Nat.pow_succ, Nat.mul_comm]

/-- The bytes of a store are the little-endian image of the value (20_memory.md R65). -/
theorem bytes_store {m : Memory} (h : m.wf = true) (a n v : Nat) : (m.store a n v).bytes a n = leBytes n v := by
  induction n generalizing m a v with
  | zero => rfl
  | succ n ih =>
    simp only [Memory.store, Memory.bytes]
    rw [ih (wf_write h _ _), read_store_other _ _ (by omega), read_write_same h, leBytes_succ]

/-- The integer of some bytes is the load (20_memory.md R63). -/
theorem leValue_eq_load (m : Memory) (a n : Nat) : leValue m a n = m.load a n := by
  induction n generalizing a with
  | zero => simp [leValue, Memory.load]
  | succ n ih =>
    simp only [Memory.load, ← ih, leValue]
    rw [Finset.sum_range_succ', Finset.mul_sum]
    simp only [Nat.add_zero, Nat.pow_zero, Nat.mul_one]
    rw [Nat.add_comm]
    congr 1
    apply Finset.sum_congr rfl
    intro k _
    rw [show a + 1 + k = a + (k + 1) by omega, Nat.pow_succ]
    ring

/-! ### The header -/

/-- The symbols of the header are appended one behind the other (45_codec_driver.md R204). -/
theorem symbols_ok (ls : List Letter) {s : State}
    (hfit : s.cfg.outFits (s.outLen + ls.length * s.cfg.w) = true) :
    ∃ m : Memory, forEach ls (fun l => symAppend l.sym) s = .ok () (s.setOut m (s.outLen + ls.length * s.cfg.w)) ∧
      (s.outMem.wf = true → m.wf = true ∧
        m.bytes s.outLen (ls.length * s.cfg.w) = ls.flatMap (fun l => leBytes s.cfg.w l.sym.toNat)) ∧
      ∀ a, a < s.outLen ∨ s.outLen + ls.length * s.cfg.w ≤ a → m.read a = s.outMem.read a := by
  induction ls generalizing s with
  | nil =>
    refine ⟨s.outMem, ?_, fun hwf => ⟨hwf, by simp [Memory.bytes]⟩, fun _ _ => rfl⟩
    simp [forEach, State.setOut]
  | cons l ls ih =>
    simp only [List.length_cons] at hfit ⊢
    have hlen : (ls.length + 1) * s.cfg.w = s.cfg.w + ls.length * s.cfg.w := by ring
    rw [hlen] at hfit ⊢
    have h1 : symAppend l.sym s =
        .ok () (s.setOut (s.outMem.store s.outLen s.cfg.w l.sym.toNat) (s.outLen + s.cfg.w)) :=
      outAppend_of_fits _ (outFits_mono hfit (by omega))
    obtain ⟨m, h2, h4, h5⟩ :=
      ih (s := s.setOut (s.outMem.store s.outLen s.cfg.w l.sym.toNat) (s.outLen + s.cfg.w))
        (by simp only [setOut_cfg, setOut_outLen]; rw [Nat.add_assoc]; exact hfit)
    simp only [setOut_cfg, setOut_outLen, setOut_outMem] at h2 h4 h5
    refine ⟨m, ?_, ?_, ?_⟩
    · simp only [forEach]
      rw [bind_of_ok h1, h2, Nat.add_assoc]
      rfl
    · intro hwf
      obtain ⟨h3, h4⟩ := h4 (wf_store hwf _ _ _)
      refine ⟨h3, ?_⟩
      rw [bytes_append, h4, List.flatMap_cons]
      congr 1
      rw [← bytes_store hwf s.outLen s.cfg.w l.sym.toNat]
      exact bytes_congr fun x h6 h7 => h5 x (.inl (by omega))
    · intro a ha
      rw [h5 a (by omega), read_store_other _ _ (by omega)]

/-- Where the header's symbols do not fit, `OutputOverflow`. -/
theorem symbols_overflow (ls : List Letter) {s : State}
    (hfit : s.cfg.outFits (s.outLen + ls.length * s.cfg.w) = false) (h0 : s.cfg.outFits s.outLen = true) :
    ∃ (m : Memory) (n : Nat), forEach ls (fun l => symAppend l.sym) s = .error .outputOverflow (s.setOut m n) := by
  induction ls generalizing s with
  | nil => simp [h0] at hfit
  | cons l ls ih =>
    simp only [List.length_cons] at hfit
    have hlen : (ls.length + 1) * s.cfg.w = s.cfg.w + ls.length * s.cfg.w := by ring
    rw [hlen] at hfit
    by_cases h1 : s.cfg.outFits (s.outLen + s.cfg.w) = true
    · have h2 : symAppend l.sym s =
          .ok () (s.setOut (s.outMem.store s.outLen s.cfg.w l.sym.toNat) (s.outLen + s.cfg.w)) := outAppend_of_fits _ h1
      obtain ⟨m, n, h3⟩ :=
        ih (s := s.setOut (s.outMem.store s.outLen s.cfg.w l.sym.toNat) (s.outLen + s.cfg.w))
          (by simp only [setOut_cfg, setOut_outLen]; rw [Nat.add_assoc]; exact hfit) h1
      exact ⟨m, n, by simp only [forEach]; rw [bind_of_ok h2, h3]; rfl⟩
    · have h2 : symAppend l.sym s = .error .outputOverflow s := by
        have h1' : s.cfg.outFits (s.outLen + s.cfg.w) = false := by simpa using h1
        simp [symAppend, outAppend, h1']
      exact ⟨s.outMem, s.outLen, by simp only [forEach]; rw [bind_of_error h2]; rfl⟩

/-- `DRV.HDREMIT` of a legal alphabet with room (45_codec_driver.md R204, 30_encoding.md R96 to R98). -/
theorem drvHdremit_ok {s : State} (h1 : 1 ≤ s.alpha.length) (h2 : s.alpha.length ≤ 256)
    (hfit : s.cfg.outFits (s.outLen + 2 + s.alpha.length * s.cfg.w) = true) :
    ∃ m : Memory, drvHdremit s = .ok () (s.setOut m (s.outLen + 2 + s.alpha.length * s.cfg.w)) ∧
      (s.outMem.wf = true → m.wf = true ∧ m.bytes s.outLen (2 + s.alpha.length * s.cfg.w) =
        [s.mdb, BitVec.ofNat 8 (s.alpha.length - 1)] ++ s.alpha.flatMap (fun l => leBytes s.cfg.w l.sym.toNat)) ∧
      ∀ a, a < s.outLen ∨ s.outLen + 2 + s.alpha.length * s.cfg.w ≤ a → m.read a = s.outMem.read a := by
  let s1 := s.setOut (s.outMem.store s.outLen 1 s.mdb.toNat) (s.outLen + 1)
  let s2 := s1.setOut (s1.outMem.store s1.outLen 1 (s.alpha.length - 1)) (s1.outLen + 1)
  have e1 : outAppend 1 s.mdb.toNat s = .ok () s1 := outAppend_of_fits _ (outFits_mono hfit (by omega))
  have e2 : outAppend 1 (s.alpha.length - 1) s1 = .ok () s2 := outAppend_of_fits _ (outFits_mono hfit (by
    change s.outLen + 1 + 1 ≤ _; omega))
  have e3 : raiseIf (fun s => s.alpha.length = 0 ∨ alphaMax < s.alpha.length) .internalInvariant s1 = .ok () s1 := by
    refine raiseIf_of_false _ ?_
    refine decide_eq_false (p := s.alpha.length = 0 ∨ 256 < s.alpha.length) ?_
    omega
  obtain ⟨m, e4, e6, e7⟩ := symbols_ok s.alpha (s := s2)
    (by change s.cfg.outFits (s.outLen + 1 + 1 + s.alpha.length * s.cfg.w) = true; exact hfit)
  change ∀ a, a < s.outLen + 1 + 1 ∨ s.outLen + 1 + 1 + s.alpha.length * s.cfg.w ≤ a →
    m.read a = ((s.outMem.store s.outLen 1 s.mdb.toNat).store (s.outLen + 1) 1 (s.alpha.length - 1)).read a at e7
  refine ⟨m, ?_, ?_, ?_⟩
  · unfold drvHdremit
    rw [bind_apply]
    simp only [look_apply]
    rw [bind_of_ok e1, bind_of_ok e3, bind_apply]
    simp only [look_apply]
    change (outAppend 1 (s.alpha.length - 1) >>= fun _ => forEach s.alpha fun l => symAppend l.sym) s1 = _
    rw [bind_of_ok e2, e4]
    rfl
  · intro hwf
    obtain ⟨e5, e6⟩ := e6 (wf_store (wf_store hwf _ _ _) _ _ _)
    refine ⟨e5, ?_⟩
    rw [show 2 + s.alpha.length * s.cfg.w = 1 + (1 + s.alpha.length * s.cfg.w) by omega, bytes_append, bytes_append]
    have e6' : m.bytes (s.outLen + 1 + 1) (s.alpha.length * s.cfg.w) =
        s.alpha.flatMap (fun l => leBytes s.cfg.w l.sym.toNat) := e6
    rw [e6']
    simp only [Memory.bytes, List.cons_append, List.nil_append]
    rw [e7 s.outLen (by omega), e7 (s.outLen + 1) (by omega)]
    congr 1
    · rw [read_store_other _ _ (by omega)]
      have := read_store_same hwf (a := s.outLen) (n := 1) (k := 0) s.mdb.toNat (by omega)
      simpa using this
    · congr 1
      have := read_store_same (wf_store hwf s.outLen 1 s.mdb.toNat) (a := s.outLen + 1) (n := 1) (k := 0)
        (s.alpha.length - 1) (by omega)
      simpa using this
  · intro a ha
    rw [e7 a (by omega), read_store_other _ _ (by omega), read_store_other _ _ (by omega)]

/-- `DRV.HDREMIT` of a legal alphabet without room raises `OutputOverflow`. -/
theorem drvHdremit_overflow {s : State} (h1 : 1 ≤ s.alpha.length) (h2 : s.alpha.length ≤ 256)
    (hfit : s.cfg.outFits (s.outLen + 2 + s.alpha.length * s.cfg.w) = false) :
    ∃ (m : Memory) (n : Nat), drvHdremit s = .error .outputOverflow (s.setOut m n) := by
  let s1 := s.setOut (s.outMem.store s.outLen 1 s.mdb.toNat) (s.outLen + 1)
  let s2 := s1.setOut (s1.outMem.store s1.outLen 1 (s.alpha.length - 1)) (s1.outLen + 1)
  unfold drvHdremit
  rw [bind_apply]
  simp only [look_apply]
  by_cases f1 : s.cfg.outFits (s.outLen + 1) = true
  · have e1 : outAppend 1 s.mdb.toNat s = .ok () s1 := outAppend_of_fits _ f1
    have e3 : raiseIf (fun s => s.alpha.length = 0 ∨ alphaMax < s.alpha.length) .internalInvariant s1 = .ok () s1 := by
      refine raiseIf_of_false _ ?_
      refine decide_eq_false (p := s.alpha.length = 0 ∨ 256 < s.alpha.length) ?_
      omega
    rw [bind_of_ok e1, bind_of_ok e3, bind_apply]
    simp only [look_apply]
    change ∃ m n, (outAppend 1 (s.alpha.length - 1) >>= fun _ => forEach s.alpha fun l => symAppend l.sym) s1 = _
    by_cases f2 : s.cfg.outFits (s.outLen + 1 + 1) = true
    · have e2 : outAppend 1 (s.alpha.length - 1) s1 = .ok () s2 := outAppend_of_fits _ f2
      rw [bind_of_ok e2]
      obtain ⟨m, n, h⟩ := symbols_overflow s.alpha (s := s2) hfit f2
      exact ⟨m, n, by rw [h]; rfl⟩
    · have f2' : s1.cfg.outFits (s1.outLen + 1) = false := Bool.eq_false_iff.mpr f2
      have e2 : outAppend 1 (s.alpha.length - 1) s1 = .error .outputOverflow s1 := by simp [outAppend, f2']
      exact ⟨_, _, by rw [bind_of_error e2]⟩
  · have f1' : s.cfg.outFits (s.outLen + 1) = false := by simpa using f1
    have e1 : outAppend 1 s.mdb.toNat s = .error .outputOverflow s := by simp [outAppend, f1']
    exact ⟨s.outMem, s.outLen, by rw [bind_of_error e1]; rfl⟩

@[simp] theorem headerLetters_length (s : State) (k n : Nat) : (headerLetters s k n).length = n := by
  induction n generalizing k with
  | zero => rfl
  | succ n ih => simp [headerLetters, ih]

/-- Entry `j` of a header read from entry `k` on (45_codec_driver.md R213). -/
theorem headerLetters_getElem? (s : State) {k n j : Nat} (hj : j < n) : (headerLetters s k n)[j]? =
    some { sym := BitVec.ofNat 32 (s.inMem.load (2 + (k + j) * s.cfg.w) s.cfg.w), freq := 0 } := by
  induction n generalizing k j with
  | zero => omega
  | succ n ih =>
    cases j with
    | zero => rfl
    | succ j =>
      simp only [headerLetters, List.getElem?_cons_succ]
      rw [ih (by omega), show k + 1 + j = k + (j + 1) by omega]

/-- All that `DRV.HDRPARSE` can do (45_codec_driver.md R213). -/
theorem drvHdrparse_cases (s : State) :
    (s.inLen.toNat < 2 ∧ drvHdrparse s = .error .truncatedInput s) ∨
    (2 ≤ s.inLen.toNat ∧ s.inLen.toNat < 2 + ((s.inMem.read 1).toNat + 1) * s.cfg.w + 4 ∧
      drvHdrparse s = .error .truncatedInput
        ((s.setMdb (s.inMem.read 0)).setNsym (BitVec.ofNat 9 ((s.inMem.read 1).toNat + 1)))) ∨
    (2 + ((s.inMem.read 1).toNat + 1) * s.cfg.w + 4 ≤ s.inLen.toNat ∧
      drvHdrparse s = .ok () (((s.setMdb (s.inMem.read 0)).setNsym (BitVec.ofNat 9 ((s.inMem.read 1).toNat + 1))).setAlpha
        (headerLetters s 0 ((s.inMem.read 1).toNat + 1)))) := by
  unfold drvHdrparse
  by_cases h1 : s.inLen.toNat < 2
  · exact .inl ⟨h1, bind_of_error (raiseIf_of_true _ (by simpa using h1))⟩
  · refine .inr ?_
    have hb := (s.inMem.read 1).isLt
    let s1 := s.setMdb (s.inMem.read 0)
    let s2 := s1.setNsym (BitVec.ofNat 9 ((s.inMem.read 1).toNat + 1))
    have e1 : memRead 0 1 s = .ok (s.inMem.read 0).toNat s := by
      rw [memRead_of_le (by omega)]; simp [Memory.load]
    have e2 : memRead 1 1 s1 = .ok (s.inMem.read 1).toNat s1 := by
      rw [memRead_of_le (by change 1 + 1 ≤ s.inLen.toNat; omega)]
      change EStateM.Result.ok (s.inMem.load 1 1) s1 = _
      simp [Memory.load]
    have e3 : BitVec.ofNat 8 (s.inMem.read 0).toNat = s.inMem.read 0 := by simp
    have e4 : (BitVec.ofNat 9 ((s.inMem.read 1).toNat + 1)).toNat = (s.inMem.read 1).toNat + 1 := by
      rw [BitVec.toNat_ofNat]; omega
    rw [bind_of_ok (raiseIf_of_false _ (by simpa using h1)), bind_of_ok e1, e3,
      bind_of_ok (x := update (·.setMdb (s.inMem.read 0))) (t := s1) rfl, bind_of_ok e2,
      bind_of_ok (x := update (·.setNsym (BitVec.ofNat 9 ((s.inMem.read 1).toNat + 1)))) (t := s2) rfl]
    by_cases h2 : s.inLen.toNat < 2 + ((s.inMem.read 1).toNat + 1) * s.cfg.w + 4
    · refine .inl ⟨by omega, h2, bind_of_error (raiseIf_of_true _ ?_)⟩
      change decide (s.inLen.toNat < 2 + (BitVec.ofNat 9 ((s.inMem.read 1).toNat + 1)).toNat * s.cfg.w + 4) = true
      rw [e4]; simpa using h2
    · refine .inr ⟨by omega, ?_⟩
      have hno : decide (s.inLen.toNat < 2 + (BitVec.ofNat 9 ((s.inMem.read 1).toNat + 1)).toNat * s.cfg.w + 4) =
          false := by rw [e4]; simpa using h2
      rw [bind_of_ok (raiseIf_of_false _ hno), update_apply]
      congr 2
      change headerLetters s2 0 (BitVec.ofNat 9 ((s.inMem.read 1).toNat + 1)).toNat = _
      rw [e4]
      have hh : ∀ n k, headerLetters s2 k n = headerLetters s k n := by
        intro n
        induction n with
        | zero => intro k; rfl
        | succ n ih => intro k; simp only [headerLetters, ih]; rfl
      exact hh _ _

/-! ### The trailer -/

/-- All that `DRV.TRAILREAD` can do (45_codec_driver.md R214). -/
theorem drvTrailread_cases (s : State) :
    (s.inLen.toNat < 4 ∧ drvTrailread s = .error .internalInvariant s) ∨
    (4 ≤ s.inLen.toNat ∧ ∃ total : BitVec 32, total.toNat = s.inMem.load (s.inLen.toNat - 4) 4 ∧
      (s.inLen.toNat < 2 + s.nsym.toNat * s.cfg.w + ceilDiv8 total.toNat + 4 ∧
          drvTrailread s = .error .truncatedInput (s.setRtotal total) ∨
        2 + s.nsym.toNat * s.cfg.w + ceilDiv8 total.toNat + 4 ≤ s.inLen.toNat ∧
          drvTrailread s = .ok () (s.setRtotal total))) := by
  unfold drvTrailread
  by_cases h1 : s.inLen.toNat < 4
  · exact .inl ⟨h1, bind_of_error (raiseIf_of_true _ (by simpa using h1))⟩
  · refine .inr ⟨by omega, BitVec.ofNat 32 (s.inMem.load (s.inLen.toNat - 4) 4), ?_, ?_⟩
    · have := load_lt s.inMem (s.inLen.toNat - 4) 4
      rw [BitVec.toNat_ofNat, Nat.mod_eq_of_lt (by simpa using this)]
    · rw [bind_of_ok (raiseIf_of_false _ (by simpa using h1)), bind_of_ok (look_apply _ _),
        bind_of_ok (memRead_of_le (by omega)), bind_of_ok (update_apply _ _)]
      generalize BitVec.ofNat 32 (s.inMem.load (s.inLen.toNat - 4) 4) = total
      by_cases h2 : s.inLen.toNat < 2 + s.nsym.toNat * s.cfg.w + ceilDiv8 total.toNat + 4
      · exact .inl ⟨h2, raiseIf_of_true _ (decide_eq_true h2)⟩
      · exact .inr ⟨by omega, raiseIf_of_false _ (decide_eq_false h2)⟩

/-! ### Records -/

/-- A depth field that would cross the total raises `BitCountMismatch` and changes nothing (45_codec_driver.md R216). -/
theorem drvRecread_depth_fault {s : State} (h : s.rtotal.toNat < s.rbits.toNat + s.mdb.toNat) :
    drvRecread s = .error .bitCountMismatch s :=
  bind_of_error (raiseIf_of_true _ (by simpa using h))

/-- What `DRV.RECREAD` reads once its depth field is inside the total, the whole stream being inside `IN`
(45_codec_driver.md R216). -/
theorem drvRecread_reads {s : State} (hp : ReaderPlaced s)
    (hi : s.rbase.toNat + ceilDiv8 s.rtotal.toNat ≤ s.inLen.toNat)
    (h : s.rbits.toNat + s.mdb.toNat ≤ s.rtotal.toNat) {d : Nat}
    (hd : d = bitsToNat (streamBits s.inMem s.rbase.toNat s.rbits.toNat s.mdb.toNat)) {p : List Bool}
    (hpath : p = streamBits s.inMem s.rbase.toNat (s.rbits.toNat + s.mdb.toNat) d) :
    (s.rtotal.toNat < s.rbits.toNat + s.mdb.toNat + d ∧
      ∃ t, drvRecread s = .error .bitCountMismatch t ∧ ReadsTo s s.mdb.toNat t) ∨
    (s.rbits.toNat + s.mdb.toNat + d ≤ s.rtotal.toNat ∧
      ∃ t, ReadsTo (s.setPath d p) (s.mdb.toNat + d) t ∧ pathField t.piPath t.piDepth = p ∧
        drvRecread s = (treeFindvalue >>= fun v => symAppend v) t) := by
  obtain ⟨t1, e1, r1⟩ := readDepth_ok s.mdb.toNat (i := 0) (d := 0) (s := s) (by simp) hp h hi
  rw [Nat.zero_add, Nat.pow_zero, Nat.one_mul, ← hd] at e1
  obtain ⟨f1, p1, c1⟩ := r1
  have g1 : t1.rtotal = s.rtotal := by rw [f1]; rfl
  have g2 : t1.rbase = s.rbase := by rw [f1]; rfl
  have g3 : t1.inLen = s.inLen := by rw [f1]; rfl
  have g4 : t1.inMem = s.inMem := by rw [f1]; rfl
  unfold drvRecread
  rw [bind_of_ok (raiseIf_of_false _ (by simpa using h)), bind_of_ok (look_apply _ _), bind_of_ok e1]
  by_cases h2 : s.rtotal.toNat < s.rbits.toNat + s.mdb.toNat + d
  · refine .inl ⟨h2, t1, bind_of_error (raiseIf_of_true _ ?_), f1, p1, c1⟩
    exact decide_eq_true (by rw [g1, c1]; exact h2)
  · refine .inr ⟨by omega, ?_⟩
    have hno : decide (t1.rtotal.toNat < t1.rbits.toNat + d) = false :=
      decide_eq_false (by rw [g1, c1]; exact h2)
    rw [bind_of_ok (raiseIf_of_false _ hno), bind_of_ok (update_apply _ _)]
    obtain ⟨t2, e2, f2, p2, c2⟩ := readPath_ok d (s := t1.setPath d []) p1
      (by change t1.rbits.toNat + d ≤ t1.rtotal.toNat; rw [g1, c1]; omega)
      (by change t1.rbase.toNat + ceilDiv8 t1.rtotal.toNat ≤ t1.inLen.toNat; rw [g1, g2, g3]; exact hi)
    have hp2 : t2 = (t1.setPath d p).setReader t2.ridx t2.rcur t2.rbits := by
      rw [f2]
      simp only [setPath_piPath, List.nil_append, setPath_inMem, setPath_rbase, setPath_rbits, g4, g2, c1, ← hpath]
      rfl
    rw [bind_of_ok e2]
    have hdep : t2.piDepth = d := by rw [hp2]; rfl
    have hpp : t2.piPath = p := by rw [hp2]; rfl
    have hfield : pathField t2.piPath t2.piDepth = p := by
      rw [hdep, hpp]
      have hl : p.length = d := by rw [hpath]; simp
      apply List.ext_getElem?
      intro i
      by_cases hi' : i < d
      · simp [pathField, hi', List.getElem?_eq_getElem (hl ▸ hi' : i < p.length)]
      · rw [List.getElem?_eq_none (by simp [pathField]; omega), List.getElem?_eq_none (by omega)]
    refine ⟨t2, ⟨?_, p2, ?_⟩, hfield, rfl⟩
    · rw [hp2, f1]; rfl
    · rw [c2]; simp only [setPath_rbits, c1]; omega

/-- What `DRV.RECREAD` does once its depth field is inside the total, the whole stream being inside `IN` and the arena a
tree (45_codec_driver.md R216). -/
theorem drvRecread_cases {s : State} (hok : TreeOk s.nodes) (hp : ReaderPlaced s)
    (hi : s.rbase.toNat + ceilDiv8 s.rtotal.toNat ≤ s.inLen.toNat)
    (h : s.rbits.toNat + s.mdb.toNat ≤ s.rtotal.toNat) {d : Nat}
    (hd : d = bitsToNat (streamBits s.inMem s.rbase.toNat s.rbits.toNat s.mdb.toNat)) {p : List Bool}
    (hpath : p = streamBits s.inMem s.rbase.toNat (s.rbits.toNat + s.mdb.toNat) d) :
    (s.rtotal.toNat < s.rbits.toNat + s.mdb.toNat + d ∧
      ∃ t, drvRecread s = .error .bitCountMismatch t ∧ ReadsTo s s.mdb.toNat t) ∨
    (s.rbits.toNat + s.mdb.toNat + d ≤ s.rtotal.toNat ∧
      ∃ t, ReadsTo (s.setPath d p) (s.mdb.toNat + d) t ∧
        ((∀ m, follow s.nodes 0 p = some m → (s.nodes[m]?).bind (·.val) = none) ∧
            drvRecread s = .error .treeLookupFailure t ∨
          ∃ m x, follow s.nodes 0 p = some m ∧ (s.nodes[m]?).bind (·.val) = some x ∧
            drvRecread s = symAppend x t)) := by
  rcases drvRecread_reads hp hi h hd hpath with h1 | ⟨h1, t, h2, h3, h4⟩
  · exact .inl h1
  · refine .inr ⟨h1, t, h2, ?_⟩
    have hnodes : t.nodes = s.nodes := by rw [h2.frame]; rfl
    rw [h4]
    rcases treeFindvalue_cases (s := t) (by rw [hnodes]; exact hok) with ⟨m, x, h5, h6, h7⟩ | ⟨h5, h6⟩
    · rw [h3, hnodes] at h5
      rw [hnodes] at h6
      exact .inr ⟨m, x, h5, h6, by rw [bind_of_ok h7]⟩
    · rw [h3, hnodes] at h5
      exact .inl ⟨h5, bind_of_error h6⟩

end Sys2Proof.Machine
end

