-- ==== Sys2Proof/Laws/Encode.lean ====
section
/-! SUPPORT. The tables ENCODE makes of its input, each phase said once (45_codec_driver.md R201). -/

namespace Sys2Proof.Machine

/-! ### The alphabet of an input -/

theorem mem_spell {rs : List Run} {x : Sym} (h : ∀ r ∈ rs, 1 ≤ r.count.toNat) :
    x ∈ spell rs ↔ x ∈ rs.map (·.sym) := by
  simp only [spell, List.mem_flatMap, List.mem_replicate, List.mem_map]
  constructor
  · rintro ⟨r, hr, _, rfl⟩; exact ⟨r, hr, rfl⟩
  · rintro ⟨r, hr, rfl⟩; exact ⟨r, hr, by have := h r hr; omega, rfl⟩

theorem eraseDups_replicate_append (n : Nat) (x : Sym) (l : List Sym) (hn : 1 ≤ n) :
    (List.replicate n x ++ l).eraseDups = (x :: l).eraseDups := by
  obtain ⟨k, rfl⟩ : ∃ k, n = k + 1 := ⟨n - 1, by omega⟩
  rw [List.replicate_succ, List.cons_append, List.eraseDups_cons, List.eraseDups_cons, List.filter_append]
  simp

/-- The distinct symbols of a run sequence, in order of first occurrence, are those of the symbols it spells. -/
theorem eraseDups_spell : ∀ (n : Nat) (rs : List Run), rs.length ≤ n → (∀ r ∈ rs, 1 ≤ r.count.toNat) →
    (rs.map (·.sym)).eraseDups = (spell rs).eraseDups := by
  have hf : ∀ (x : Sym) (rs : List Run), (spell rs).filter (fun b => !b == x) = spell (rs.filter fun r => !r.sym == x) := by
    intro x rs
    induction rs with
    | nil => rfl
    | cons r rs ih =>
      simp only [spell, List.flatMap_cons, List.filter_append] at ih ⊢
      rw [ih]
      by_cases h : r.sym = x
      · simp [h]
      · simp [h]
  intro n
  induction n with
  | zero => intro rs hl _; have : rs = [] := List.length_eq_zero_iff.mp (by omega); subst this; rfl
  | succ n ih =>
    intro rs hl hc
    cases rs with
    | nil => rfl
    | cons r rs =>
      have hr := hc r (by simp)
      rw [show spell (r :: rs) = List.replicate r.count.toNat r.sym ++ spell rs from rfl,
        eraseDups_replicate_append _ _ _ hr, List.map_cons, List.eraseDups_cons, List.eraseDups_cons, hf]
      congr 1
      rw [← ih]
      · congr 1
        rw [List.filter_map]; rfl
      · have := List.length_filter_le (fun r' : Run => !r'.sym == r.sym) rs
        simp at hl; omega
      · intro r' h'; exact hc r' (List.mem_cons_of_mem _ (List.mem_filter.mp h').1)

/-- The counts of a symbol's runs sum to its number of occurrences. -/
theorem count_spell (x : Sym) (rs : List Run) :
    ((rs.filter fun r => r.sym = x).map fun r => r.count.toNat).sum = (spell rs).count x := by
  induction rs with
  | nil => rfl
  | cons r rs ih =>
    rw [show spell (r :: rs) = List.replicate r.count.toNat r.sym ++ spell rs from rfl, List.count_append, ← ih,
      List.count_replicate]
    by_cases h : r.sym = x
    · simp [h]
    · simp [h]

/-- Distinct symbols stand in order of first occurrence. -/
theorem eraseDups_order : ∀ (n : Nat) (l : List Sym), l.length ≤ n →
    l.eraseDups.Pairwise fun x y => l.idxOf x < l.idxOf y := by
  intro n
  induction n with
  | zero => intro l hl; have : l = [] := List.length_eq_zero_iff.mp (by omega); subst this; simp
  | succ n ih =>
    intro l hl
    cases l with
    | nil => simp
    | cons a l =>
      rw [List.eraseDups_cons, List.pairwise_cons]
      have hle := List.length_filter_le (fun b => !b == a) l
      refine ⟨fun b hb => ?_, ?_⟩
      · have hb' := List.mem_eraseDups.mp hb
        have hne : b ≠ a := by simpa using (List.mem_filter.mp hb').2
        rw [List.idxOf_cons_self, List.idxOf_cons_ne _ (Ne.symm hne)]
        omega
      · refine List.Pairwise.imp_of_mem (fun {x y} hx hy h => ?_) (ih _ (by simp at hl; omega))
        have hx' : x ≠ a := by simpa using (List.mem_filter.mp (List.mem_eraseDups.mp hx)).2
        have hy' : y ≠ a := by simpa using (List.mem_filter.mp (List.mem_eraseDups.mp hy)).2
        rw [List.idxOf_cons_ne _ (Ne.symm hx'), List.idxOf_cons_ne _ (Ne.symm hy')]
        have key : ∀ (l : List Sym) (x y : Sym), x ≠ a → y ≠ a → (l.filter fun b => !b == a).idxOf x <
            (l.filter fun b => !b == a).idxOf y → l.idxOf x < l.idxOf y := by
          intro l
          induction l with
          | nil => intro x y _ _ h; simp at h
          | cons c l ihl =>
            intro x y hx hy h
            by_cases hca : c = a
            · subst hca
              rw [List.filter_cons_of_neg (by simp)] at h
              have := ihl x y hx hy h
              rw [List.idxOf_cons_ne _ (Ne.symm hx), List.idxOf_cons_ne _ (Ne.symm hy)]; omega
            · rw [List.filter_cons_of_pos (by simp [hca])] at h
              by_cases hcx : c = x
              · subst hcx
                by_cases hcy : c = y
                · subst hcy; simp at h
                · rw [List.idxOf_cons_self, List.idxOf_cons_ne _ hcy]; omega
              · by_cases hcy : c = y
                · subst hcy; rw [List.idxOf_cons_self] at h; omega
                · rw [List.idxOf_cons_ne _ hcx, List.idxOf_cons_ne _ hcy] at h ⊢
                  have := ihl x y hx hy (by omega)
                  omega
        have := key l x y hx' hy' h
        omega

/-- The order of an alphabet is unique (41_alphabet.md R142: "the unique order"). -/
theorem isAlphabet_unique {xs a b : List Sym} (ha : IsAlphabet xs a) (hb : IsAlphabet xs b) : a = b := by
  refine List.Perm.eq_of_pairwise (fun x y _ _ h1 h2 => ?_) ha.2 hb.2 (ha.1.trans hb.1.symm)
  rcases h1 with h1 | ⟨h1, h1'⟩ <;> rcases h2 with h2 | ⟨h2, h2'⟩ <;> omega

theorem isAlphabet_nodup {xs a : List Sym} (ha : IsAlphabet xs a) : a.Nodup :=
  ha.1.nodup_iff.mpr (eraseDups_nodup _ xs (Nat.le_refl _))

theorem isAlphabet_mem {xs a : List Sym} (ha : IsAlphabet xs a) {x : Sym} : x ∈ a ↔ x ∈ xs := by
  rw [ha.1.mem_iff, List.mem_eraseDups]

/-- What folding and sorting make of the runs of an input (41_alphabet.md R143). -/
theorem sortLetters_isAlphabet {xs : List Sym} {l : List Letter} (hs : l.map (·.sym) = xs.eraseDups)
    (hf : ∀ e ∈ l, e.freq = xs.count e.sym) : IsAlphabet xs ((sortLetters l).map (·.sym)) := by
  obtain ⟨hp, hd, hst⟩ := sortLetters_spec l
  refine ⟨hs ▸ hp.map _, ?_⟩
  rw [List.pairwise_map, List.pairwise_iff_forall_sublist]
  intro x y hxy
  have hx : x ∈ l := hp.mem_iff.mp (hxy.subset (by simp))
  have hy : y ∈ l := hp.mem_iff.mp (hxy.subset (by simp))
  have h1 := (List.pairwise_iff_forall_sublist.mp hd) hxy
  rw [← hf x hx, ← hf y hy]
  by_cases he : x.freq = y.freq
  · refine .inr ⟨he, ?_⟩
    have h2 : [x, y].Sublist l := by
      have h3 := hxy.filter fun e : Letter => decide (e.freq = y.freq)
      rw [hst y.freq] at h3
      simp only [List.filter_cons, he, decide_true, if_true, List.filter_nil] at h3
      exact h3.trans List.filter_sublist
    have h4 := eraseDups_order _ xs (Nat.le_refl _)
    rw [← hs, List.pairwise_map, List.pairwise_iff_forall_sublist] at h4
    exact h4 h2
  · exact .inl (by omega)

/-! ### The phases up to the header -/

/-- The inserts of further symbols. -/
theorem inserts_ok (ls : List Letter) : ∀ (ys : List Sym) (s : State), ys ≠ [] → Built s.nodes ys →
    ys.length + ls.length ≤ 256 →
    ∃ t, forEach ls (fun l => treeInsert l.sym) s = .ok () (s.setNodes t) ∧ Built t (ys ++ ls.map (·.sym)) := by
  induction ls with
  | nil => intro ys s _ hb _; exact ⟨s.nodes, rfl, by simpa using hb⟩
  | cons l ls ih =>
    intro ys s h0 hb hlen
    simp only [List.length_cons] at hlen
    obtain ⟨u, hu, hb'⟩ := built_insert hb h0 (by omega) l.sym
    have h1 : treeInsert l.sym s = .ok () (s.setNodes u) := by simp only [treeInsert, hu]
    obtain ⟨t, ht, hb''⟩ := ih (ys ++ [l.sym]) (s.setNodes u) (by simp) hb' (by simp; omega)
    refine ⟨t, ?_, by simpa using hb''⟩
    rw [forEach, bind_of_ok h1, ht]
    rfl

/-- `TREE.INIT` and an insert per letter make the tree of the alphabet (10_state.md R40, phases E_TREE and D_TREE). -/
theorem buildTree_ok {s : State} (h1 : 1 ≤ s.alpha.length) (h2 : s.alpha.length ≤ 256) :
    ∃ t, buildTree s = .ok () (s.setNodes t) ∧ Built t (s.alpha.map (·.sym)) := by
  cases ha : s.alpha with
  | nil => rw [ha] at h1; simp at h1
  | cons l ls =>
    rw [ha] at h2
    obtain ⟨hi, hb⟩ := built_first l.sym
    have h3 : treeInsert l.sym (s.setNodes [emptyRoot]) = .ok () (s.setNodes [{ emptyRoot with val := some l.sym }]) := by
      simp only [treeInsert, setNodes_nodes, hi]
      rfl
    obtain ⟨t, ht, hb'⟩ := inserts_ok ls [l.sym] (s.setNodes [{ emptyRoot with val := some l.sym }]) (by simp) hb
      (by simpa [Nat.add_comm] using h2)
    refine ⟨t, ?_, by simpa using hb'⟩
    have h4 : buildTree s = forEach s.alpha (fun l => treeInsert l.sym) (s.setNodes [emptyRoot]) := rfl
    rw [h4, ha, forEach, bind_of_ok h3, ht]
    rfl

/-- The part of the sequence of `ENCODE` from phase E_HEADER on. -/
def encodeBack : Op Unit := do
  enter .eHeader
  drvHdremit
  enter .eRecords
  encodeRecords
  enter .eFlush
  bswFlush
  enter .eTrailer
  drvTrailemit

/-- The part of the sequence of `ENCODE` from phase E_RLE on. -/
def encodeMiddle : Op Unit := do
  enter .eRle
  rleCollapse
  enter .eFold
  alphaFold
  enter .eSort
  alphaSort
  enter .eTree
  buildTree
  enter .eDepthbits
  encodeDepthbits
  encodeBack

theorem encodeSequence_eq (s : State) : encodeSequence s = (encodeInit >>= fun _ => encodeMiddle) (s.setPhase .eInit) := by
  rfl

/-- All that the input checks of `ENCODE` can do (45_codec_driver.md R202). -/
theorem encodeInit_cases (s : State) :
    (s.inLen.toNat = 0 ∧ encodeInit s = .error .emptyInput (s.setOut s.outMem 0)) ∨
    (s.inLen.toNat ≠ 0 ∧ s.inLen.toNat % s.cfg.w ≠ 0 ∧ encodeInit s = .error .lengthNotMultiple (s.setOut s.outMem 0)) ∨
    (s.inLen.toNat ≠ 0 ∧ s.inLen.toNat % s.cfg.w = 0 ∧ encodeInit s = .ok () (s.setOut s.outMem 0)) := by
  have e : encodeInit s = (raiseIf (fun s => s.inLen.toNat = 0) .emptyInput >>= fun _ =>
    raiseIf (fun s => s.inLen.toNat % s.cfg.w ≠ 0) .lengthNotMultiple) (s.setOut s.outMem 0) := rfl
  rw [e]
  by_cases h1 : s.inLen.toNat = 0
  · exact .inl ⟨h1, bind_of_error (raiseIf_of_true _ (decide_eq_true h1))⟩
  · rw [bind_of_ok (raiseIf_of_false _ (decide_eq_false h1))]
    by_cases h2 : s.inLen.toNat % s.cfg.w = 0
    · exact .inr (.inr ⟨h1, h2, raiseIf_of_false _ (decide_eq_false (not_not_intro h2))⟩)
    · exact .inr (.inl ⟨h1, h2, raiseIf_of_true _ (decide_eq_true h2)⟩)

/-- `ALPHA.FOLD` on the runs of the input (41_alphabet.md R141). -/
theorem alphaFold_cases {s : State} {xs : List Sym} (hr : s.runs = runsOf xs) :
    (xs.eraseDups.length ≤ 256 ∧ ∃ l, alphaFold s = .ok () (s.setAlpha l) ∧ l.map (·.sym) = xs.eraseDups ∧
      ∀ e ∈ l, e.freq = xs.count e.sym) ∨
    (256 < xs.eraseDups.length ∧ ∃ l, alphaFold s = .error .invalidAlphabetSize (s.setAlpha l)) := by
  obtain ⟨h1, h2⟩ := foldRuns_spec s.runs [] (s.setAlpha []) rfl (by simp) (by simp)
  obtain ⟨hsp, hc, _, _⟩ := runsOf_spec xs
  rw [List.nil_append, hr, eraseDups_spell _ _ (Nat.le_refl _) hc, hsp] at h1 h2
  have e : alphaFold s = forEach s.runs foldRun (s.setAlpha []) := rfl
  rw [e, hr]
  rcases Nat.lt_or_ge 256 xs.eraseDups.length with h | h
  · obtain ⟨l, hl⟩ := h2 h
    exact .inr ⟨h, l, hl⟩
  · obtain ⟨l, hl, hs, hf⟩ := h1 h
    refine .inl ⟨h, l, hl, hs, fun e he => ?_⟩
    rw [hf e he, count_spell, hsp]

/-- The state of `ENCODE` before phase E_HEADER. -/
def encodeTables (s : State) (l : List Letter) (t : List Node) : State :=
  { s with runs := runsOf s.inSymbols, alpha := l, nodes := t, height := Nat.log2 l.length,
           mdb := BitVec.ofNat 8 (depthWidth l.length), phase := .eDepthbits }

/-- The letters that folding and sorting make of the symbols `xs`: there is one such list. -/
structure LettersOf (xs : List Sym) (l : List Letter) : Prop where
  /-- They are in the order of the alphabet. -/
  order : IsAlphabet xs (l.map (·.sym))
  /-- Their frequencies are the numbers of occurrences. -/
  freq : ∀ e ∈ l, e.freq = xs.count e.sym

theorem lettersOf_unique {xs : List Sym} {l m : List Letter} (hl : LettersOf xs l) (hm : LettersOf xs m) : l = m := by
  have h := isAlphabet_unique hl.order hm.order
  have key : ∀ (l m : List Letter), l.map (·.sym) = m.map (·.sym) → (∀ e ∈ l, e.freq = xs.count e.sym) →
      (∀ e ∈ m, e.freq = xs.count e.sym) → l = m := by
    intro l
    induction l with
    | nil => intro m h _ _; cases m <;> simp_all
    | cons a l ih =>
      intro m h h1 h2
      cases m with
      | nil => simp at h
      | cons b m =>
        simp only [List.map_cons, List.cons.injEq] at h
        have ha := h1 a (by simp)
        have hb := h2 b (by simp)
        obtain ⟨asym, afreq⟩ := a
        obtain ⟨bsym, bfreq⟩ := b
        simp only at h ha hb
        rw [ih m h.2 (fun e he => h1 e (by simp [he])) (fun e he => h2 e (by simp [he])), ha, hb, h.1]
  exact key l m h hl.freq hm.freq

/-- The symbols of a buffer depend on `IN`, `IN_LEN` and `W` alone (20_memory.md R64). -/
theorem inSymbols_congr {s t : State} (hw : t.cfg.w = s.cfg.w) (hm : t.inMem = s.inMem) (hl : t.inLen = s.inLen) :
    t.inSymbols = s.inSymbols := by
  have h : ∀ k i, t.symsFrom i k = s.symsFrom i k := by
    intro k
    induction k with
    | zero => intro i; rfl
    | succ k ih => intro i; simp only [State.symsFrom, State.symAt, hw, hm, ih]
  simp only [State.inSymbols, State.symCount, hw, hl, h]

/-- Phase E_DEPTHBITS on a tree (45_codec_driver.md R201, R203). -/
theorem encodeDepthbits_ok {s : State} {h : Nat} (hh : heightOf s.nodes 0 = some h) :
    encodeDepthbits s = .ok () ((s.setHeight h).setMdb (BitVec.ofNat 8 (max 1 (bitlen h)))) := by
  have h1 : treeHeight 0 s = .ok h s := by simp only [treeHeight, treeMeasure, hh]
  rw [encodeDepthbits, bind_of_ok h1]
  rfl

/-- All that the phases of `ENCODE` from E_RLE to E_DEPTHBITS can do on a non-empty input. -/
theorem encodeMiddle_cases {s : State} (h0 : s.inSymbols ≠ []) :
    (s.inSymbols.eraseDups.length ≤ 256 ∧ ∃ l t, LettersOf s.inSymbols l ∧ Built t (l.map (·.sym)) ∧
      encodeMiddle s = encodeBack (encodeTables s l t)) ∨
    (256 < s.inSymbols.eraseDups.length ∧ ∃ u, encodeMiddle s = .error .invalidAlphabetSize u ∧
      u.inMem = s.inMem ∧ u.inLen = s.inLen) := by
  have hx : (s.setPhase .eRle).inSymbols = s.inSymbols := inSymbols_congr rfl rfl rfl
  rw [encodeMiddle, bind_of_ok (enter_apply _ _), bind_of_ok (rleCollapse_apply _), hx, bind_of_ok (enter_apply _ _)]
  obtain ⟨s1, hs1⟩ : ∃ s1, s1 = ((s.setPhase .eRle).setRuns (runsOf s.inSymbols)).setPhase .eFold := ⟨_, rfl⟩
  rw [← hs1]
  rcases alphaFold_cases (s := s1) (xs := s.inSymbols) (by rw [hs1]; rfl) with ⟨h1, l, h2, h3, h4⟩ | ⟨h1, l, h2⟩
  · refine .inl ⟨h1, sortLetters l, ?_⟩
    obtain ⟨hp, _, _⟩ := sortLetters_spec l
    have hlo : LettersOf s.inSymbols (sortLetters l) :=
      ⟨sortLetters_isAlphabet h3 h4, fun e he => h4 e (hp.mem_iff.mp he)⟩
    have hlen : (sortLetters l).length = s.inSymbols.eraseDups.length := by
      rw [hp.length_eq, ← h3, List.length_map]
    have hpos : 1 ≤ (sortLetters l).length := by
      cases hxs : s.inSymbols with
      | nil => exact absurd hxs h0
      | cons x xs => rw [hlen, hxs, List.eraseDups_cons]; simp
    rw [bind_of_ok h2, bind_of_ok (enter_apply _ _), bind_of_ok (alphaSort_apply _), bind_of_ok (enter_apply _ _)]
    obtain ⟨s2, hs2⟩ : ∃ s2, s2 = (((s1.setAlpha l).setPhase .eSort).setAlpha
      (sortLetters ((s1.setAlpha l).setPhase .eSort).alpha)).setPhase .eTree := ⟨_, rfl⟩
    have ha2 : s2.alpha = sortLetters l := by rw [hs2]; rfl
    rw [← hs2]
    obtain ⟨t, ht, hb⟩ := buildTree_ok (s := s2) (by rw [ha2]; exact hpos) (by rw [ha2, hlen]; exact h1)
    rw [ha2] at hb
    refine ⟨t, hlo, hb, ?_⟩
    have hh : heightOf t 0 = some (Nat.log2 (sortLetters l).length) := by
      have := heightOf_balanced hb.ok hb.balanced t.length 0 _ hb.ok.1 (by omega) hb.count
      rwa [List.length_map] at this
    rw [bind_of_ok ht, bind_of_ok (enter_apply _ _), bind_of_ok (encodeDepthbits_ok (h := Nat.log2 (sortLetters l).length) hh)]
    have hx : (((s2.setNodes t).setPhase .eDepthbits).setHeight (Nat.log2 (sortLetters l).length)).setMdb
        (BitVec.ofNat 8 (max 1 (bitlen (Nat.log2 (sortLetters l).length)))) = encodeTables s (sortLetters l) t := by
      rw [hs2, hs1]
      simp only [encodeTables, depthWidth, State.setMdb, State.setHeight, State.setPhase, State.setNodes, State.setAlpha,
        State.setRuns]
    rw [hx]
  · refine .inr ⟨h1, s1.setAlpha l, by rw [bind_of_error h2], ?_⟩
    rw [hs1]
    exact ⟨rfl, rfl⟩

end Sys2Proof.Machine
end

