-- ==== Sys2Proof/Laws/Decode.lean ====
section
/-! SUPPORT. What the phases of DECODE leave, each said once (45_codec_driver.md R211). -/

namespace Sys2Proof.Machine

/-! ### The phases up to the records -/

/-- The state in which the record loop of `DECODE` starts: `a` is the alphabet of the header (45_codec_driver.md R211). -/
structure DecodeReady (s : State) (a : List Sym) (u : State) : Prop where
  /-- The depth width is not 0. -/
  wide : 1 ≤ u.mdb.toNat
  /-- It is byte 0. -/
  mdb : u.mdb = s.inMem.read 0
  /-- The alphabet is the one of the header. -/
  letters : a = (headerLetters s 0 ((s.inMem.read 1).toNat + 1)).map (·.sym)
  /-- The tree of the alphabet. -/
  built : Built u.nodes a
  /-- The reader stands at the first bit. -/
  placed : ReaderPlaced u
  /-- No bit has been read. -/
  fresh : u.rbits.toNat = 0
  /-- The bit stream starts behind the header. -/
  base : u.rbase.toNat = 2 + a.length * s.cfg.w
  /-- The total is the trailer's. -/
  total : u.rtotal.toNat = s.inMem.load (s.inLen.toNat - 4) 4
  /-- The whole bit stream is inside `IN`. -/
  inside : u.rbase.toNat + ceilDiv8 u.rtotal.toNat + 4 ≤ s.inLen.toNat
  /-- Nothing else has changed. -/
  frame : u = { s with outLen := 0, mdb := u.mdb, nsym := u.nsym, alpha := u.alpha, rtotal := u.rtotal, nodes := u.nodes,
                       rbase := u.rbase, ridx := u.ridx, rcur := u.rcur, rbits := u.rbits, phase := .dRecords }

/-- In the tree of an alphabet every path that leads to a node is the path of a rank (42_path_tree.md R156). -/
theorem follow_built {t : List Node} {a : List Sym} (h : Built t a) {p : List Bool} {m : Nat} :
    follow t 0 p = some m ↔ m < a.length ∧ p = rankPath m := by
  constructor
  · intro hf
    have hm : m < a.length := by rw [← h.size]; exact follow_lt h.ok h.ok.1 hf
    exact ⟨hm, follow_unique h.ok (m + 1) m (by omega) _ _ hf (h.path m hm)⟩
  · rintro ⟨hm, rfl⟩
    exact h.path m hm

/-- Every outcome of the phases of `DECODE` up to the record loop (45_codec_driver.md R213 to R215). -/
theorem decodeSequence_cases (s : State) :
    ((s.inLen.toNat < 2 ∨ s.inLen.toNat < 2 + ((s.inMem.read 1).toNat + 1) * s.cfg.w + 4 ∨
        s.inLen.toNat < 2 + ((s.inMem.read 1).toNat + 1) * s.cfg.w +
          ceilDiv8 (s.inMem.load (s.inLen.toNat - 4) 4) + 4) ∧
      ∃ u, decodeSequence s = .error .truncatedInput u) ∨
    (2 + ((s.inMem.read 1).toNat + 1) * s.cfg.w + ceilDiv8 (s.inMem.load (s.inLen.toNat - 4) 4) + 4 ≤ s.inLen.toNat ∧
      ((s.inMem.read 0 = 0 ∧ ∃ u, decodeSequence s = .error .invalidDepthWidth u) ∨
        s.inMem.read 0 ≠ 0 ∧ ∃ a u, DecodeReady s a u ∧ decodeSequence s = readRecords u.rtotal.toNat u)) := by
  have hb := (s.inMem.read 1).isLt
  have hw := width_le_four s.cfg.width
  change 1 ≤ s.cfg.w ∧ s.cfg.w ≤ 4 at hw
  obtain ⟨s0, hs0⟩ : ∃ s0, s0 = ((s.setPhase .dInit).setOut s.outMem 0).setPhase .dHeader := ⟨_, rfl⟩
  have e0 : decodeSequence s = (drvHdrparse >>= fun _ => (do
      enter .dTrailer
      decodeTrailer
      enter .dTree
      decodeTree
      enter .dRecords
      decodeRecords : Op Unit)) s0 := by rw [hs0]; rfl
  rw [e0]
  have hc := drvHdrparse_cases s0
  have i0 : s0.inLen = s.inLen := by rw [hs0]; rfl
  have m0 : s0.inMem = s.inMem := by rw [hs0]; rfl
  have c0 : s0.cfg = s.cfg := by rw [hs0]; rfl
  rw [i0, m0, c0] at hc
  rcases hc with ⟨h, hf⟩ | ⟨h, h', hf⟩ | ⟨h, hf⟩
  · exact .inl ⟨.inl h, _, bind_of_error hf⟩
  · exact .inl ⟨.inr (.inl h'), _, bind_of_error hf⟩
  · obtain ⟨s1, hs1⟩ : ∃ s1, s1 = (((s0.setMdb (s.inMem.read 0)).setNsym
        (BitVec.ofNat 9 ((s.inMem.read 1).toNat + 1))).setAlpha
          (headerLetters s0 0 ((s.inMem.read 1).toNat + 1))).setPhase .dTrailer := ⟨_, rfl⟩
    have n1 : s1.nsym.toNat = (s.inMem.read 1).toNat + 1 := by
      rw [hs1]
      change (BitVec.ofNat 9 ((s.inMem.read 1).toNat + 1)).toNat = _
      rw [BitVec.toNat_ofNat, Nat.mod_eq_of_lt (by omega)]
    have a1 : s1.alpha = headerLetters s 0 ((s.inMem.read 1).toNat + 1) := by
      rw [hs1]
      change headerLetters s0 0 _ = _
      have hh : ∀ n k, headerLetters s0 k n = headerLetters s k n := by
        intro n
        induction n with
        | zero => intro k; rfl
        | succ n ih => intro k; simp only [headerLetters, ih, m0, c0]
      exact hh _ _
    rw [bind_of_ok hf, bind_of_ok (enter_apply _ _), ← hs1]
    have hc := drvTrailread_cases s1
    have i1 : s1.inLen = s.inLen := by rw [hs1, ← i0]; rfl
    have m1 : s1.inMem = s.inMem := by rw [hs1, ← m0]; rfl
    have c1 : s1.cfg = s.cfg := by rw [hs1, ← c0]; rfl
    rw [i1, m1, c1, n1] at hc
    rcases hc with ⟨h4, _⟩ | ⟨h4, total, htot, hc⟩
    · omega
    · rw [← htot]
      rcases hc with ⟨h5, hf⟩ | ⟨h5, hf⟩
      · exact .inl ⟨.inr (.inr h5), _, by rw [decodeTrailer, bind_assoc]; exact bind_of_error hf⟩
      · refine .inr ⟨h5, ?_⟩
        rw [decodeTrailer, bind_assoc, bind_of_ok hf]
        have d1 : (s1.setRtotal total).mdb = s.inMem.read 0 := by rw [hs1]; rfl
        by_cases hz : s.inMem.read 0 = 0
        · refine .inl ⟨hz, s1.setRtotal total, bind_of_error (raiseIf_of_true _ (decide_eq_true ?_))⟩
          rw [d1, hz]; rfl
        · have hz' : (s.inMem.read 0).toNat ≠ 0 := fun h => hz (BitVec.eq_of_toNat_eq h)
          refine .inr ⟨hz, ?_⟩
          rw [bind_of_ok (raiseIf_of_false _ (decide_eq_false (by rw [d1]; exact hz'))), bind_of_ok (enter_apply _ _)]
          obtain ⟨s2, hs2⟩ : ∃ s2, s2 = (s1.setRtotal total).setPhase .dTree := ⟨_, rfl⟩
          rw [← hs2]
          have a2 : s2.alpha = headerLetters s 0 ((s.inMem.read 1).toNat + 1) := by rw [hs2, ← a1]; rfl
          have n2 : s2.nsym.toNat = (s.inMem.read 1).toNat + 1 := by rw [hs2, ← n1]; rfl
          obtain ⟨t, ht, hbt⟩ := buildTree_ok (s := s2) (by rw [a2]; simp) (by rw [a2]; simp; omega)
          have e2 : decodeTree s2 = .ok () (s2.setNodes t) := by
            rw [decodeTree, bind_of_ok (raiseIf_of_false _ (decide_eq_false (by rw [a2, n2]; simp))), ht]
          rw [bind_of_ok e2, bind_of_ok (enter_apply _ _)]
          obtain ⟨s3, hs3⟩ : ∃ s3, s3 = (s2.setNodes t).setPhase .dRecords := ⟨_, rfl⟩
          rw [← hs3]
          have n3 : s3.nsym.toNat = (s.inMem.read 1).toNat + 1 := by rw [hs3, ← n2]; rfl
          have c3 : s3.cfg = s.cfg := by rw [hs3, hs2, ← c1]; rfl
          have hbase : (BitVec.ofNat 32 (2 + s3.nsym.toNat * s3.cfg.w)).toNat =
              2 + ((s.inMem.read 1).toNat + 1) * s.cfg.w := by
            rw [n3, c3, BitVec.toNat_ofNat, Nat.mod_eq_of_lt]
            have : ((s.inMem.read 1).toNat + 1) * s.cfg.w ≤ 256 * 4 := Nat.mul_le_mul (by omega) hw.2
            omega
          have r3 : s3.rtotal = total := by rw [hs3, hs2]; rfl
          refine ⟨s2.alpha.map (·.sym), (s3.setRbase (BitVec.ofNat 32 (2 + s3.nsym.toNat * s3.cfg.w))).setReader 0 0 0,
            ⟨?_, ?_, ?_, ?_, ?_, ?_, ?_, ?_, ?_, ?_⟩, ?_⟩
          · have : s3.mdb = s.inMem.read 0 := by rw [hs3, hs2, ← d1]; rfl
            change 1 ≤ s3.mdb.toNat
            rw [this]; omega
          · change s3.mdb = _
            rw [hs3, hs2, ← d1]; rfl
          · rw [a2]
          · change Built s3.nodes _
            rw [hs3]; exact hbt
          · simp [ReaderPlaced]
          · rfl
          · change (BitVec.ofNat 32 (2 + s3.nsym.toNat * s3.cfg.w)).toNat = _
            rw [hbase, List.length_map, a2, headerLetters_length]
          · change s3.rtotal.toNat = _
            rw [r3, htot]
          · change (BitVec.ofNat 32 (2 + s3.nsym.toNat * s3.cfg.w)).toNat + ceilDiv8 s3.rtotal.toNat + 4 ≤ _
            rw [hbase, r3]; exact h5
          · rw [hs3, hs2, hs1, hs0]
            simp only [State.setPhase, State.setNodes, State.setRtotal, State.setAlpha, State.setNsym, State.setMdb,
              State.setOut, State.setRbase, State.setReader]
          · rfl

/-! ### The record loop -/

/-- The record loop can go on: a tree, the reader in place, the whole bit stream inside `IN`, a depth width of at
least 1. -/
structure ReadReady (s : State) : Prop where
  /-- The arena is a tree. -/
  ok : TreeOk s.nodes
  /-- The reader's count agrees with its place. -/
  placed : ReaderPlaced s
  /-- The bit stream is inside `IN`. -/
  inside : s.rbase.toNat + ceilDiv8 s.rtotal.toNat ≤ s.inLen.toNat
  /-- Every record has at least one bit. -/
  wide : 1 ≤ s.mdb.toNat

/-- The depth of the record at the reader's place. -/
def nextDepth (s : State) : Nat := bitsToNat (streamBits s.inMem s.rbase.toNat s.rbits.toNat s.mdb.toNat)

/-- The path of the record at the reader's place. -/
def nextPath (s : State) : List Bool :=
  streamBits s.inMem s.rbase.toNat (s.rbits.toNat + s.mdb.toNat) (nextDepth s)

/-- The state behind a record that gave the symbol `x`. -/
structure RecordRead (s : State) (x : Sym) (t : State) : Prop where
  /-- Only the path register, the reader and `OUT` have changed. -/
  frame : t = { s with piDepth := t.piDepth, piPath := t.piPath, ridx := t.ridx, rcur := t.rcur, rbits := t.rbits,
                       outMem := s.outMem.store s.outLen s.cfg.w x.toNat, outLen := s.outLen + s.cfg.w }
  /-- The reader stands behind the record. -/
  count : t.rbits.toNat = s.rbits.toNat + s.mdb.toNat + nextDepth s
  /-- The record ends inside the total. -/
  le : t.rbits.toNat ≤ s.rtotal.toNat
  /-- The loop can go on. -/
  ready : ReadReady t

/-- Every outcome of `DRV.RECREAD` in the record loop, by the bits at the reader's place (45_codec_driver.md R216). -/
theorem recread_outcome {s : State} (h : ReadReady s) :
    ((s.rtotal.toNat < s.rbits.toNat + s.mdb.toNat ∨ s.rtotal.toNat < s.rbits.toNat + s.mdb.toNat + nextDepth s) ∧
      ∃ t, drvRecread s = .error .bitCountMismatch t) ∨
    (s.rbits.toNat + s.mdb.toNat + nextDepth s ≤ s.rtotal.toNat ∧
      (((∀ m, follow s.nodes 0 (nextPath s) = some m → (s.nodes[m]?).bind (·.val) = none) ∧
          ∃ t, drvRecread s = .error .treeLookupFailure t) ∨
        ∃ m x, follow s.nodes 0 (nextPath s) = some m ∧ (s.nodes[m]?).bind (·.val) = some x ∧
          ((s.cfg.outFits (s.outLen + s.cfg.w) = false ∧ ∃ t, drvRecread s = .error .outputOverflow t) ∨
            (s.cfg.outFits (s.outLen + s.cfg.w) = true ∧ ∃ t, drvRecread s = .ok () t ∧ RecordRead s x t)))) := by
  rcases Nat.lt_or_ge s.rtotal.toNat (s.rbits.toNat + s.mdb.toNat) with hd | hd
  · exact .inl ⟨.inl hd, s, drvRecread_depth_fault hd⟩
  · rcases drvRecread_cases h.ok h.placed h.inside hd (d := nextDepth s) rfl (p := nextPath s) rfl with
      ⟨h1, t, h2, _⟩ | ⟨h1, t, h2, h3⟩
    · exact .inl ⟨.inr h1, t, h2⟩
    · refine .inr ⟨h1, ?_⟩
      rcases h3 with ⟨h3, h4⟩ | ⟨m, x, h3, h4, h5⟩
      · exact .inl ⟨h3, t, h4⟩
      · refine .inr ⟨m, x, h3, h4, ?_⟩
        have ht := h2.frame
        have hcfg : t.cfg = s.cfg := by rw [ht]; rfl
        have hlen : t.outLen = s.outLen := by rw [ht]; rfl
        have hmem : t.outMem = s.outMem := by rw [ht]; rfl
        have hcount : t.rbits.toNat = s.rbits.toNat + s.mdb.toNat + nextDepth s := by
          rw [h2.count, setPath_rbits]; omega
        cases hf : s.cfg.outFits (s.outLen + s.cfg.w) with
        | false =>
          refine .inl ⟨rfl, t, ?_⟩
          rw [h5, symAppend, outAppend, hcfg, hlen, hf]; rfl
        | true =>
          refine .inr ⟨rfl, t.setOut (t.outMem.store t.outLen t.cfg.w x.toNat) (t.outLen + t.cfg.w), ?_, ?_, ?_, ?_, ?_⟩
          · rw [h5, symAppend, outAppend_of_fits _ (by rw [hcfg, hlen]; exact hf)]
          · rw [hcfg, hlen, hmem, ht]; rfl
          · rw [setOut_rbits, hcount]
          · rw [setOut_rbits, hcount]; exact h1
          · refine ⟨?_, ?_, ?_, ?_⟩
            · rw [setOut_nodes, ht]; exact h.ok
            · exact h2.placed
            · rw [setOut_rbase, setOut_rtotal, setOut_inLen, ht]; exact h.inside
            · rw [setOut_mdb, ht]; exact h.wide

/-- The record loop ends without fault or with one of three faults (45_codec_driver.md R216). -/
theorem readRecords_ends (k : Nat) : ∀ {s : State}, ReadReady s → s.rtotal.toNat ≤ s.rbits.toNat + k →
    (∃ t, readRecords k s = .ok () t) ∨
      ∃ f t, readRecords k s = .error f t ∧ (f = .bitCountMismatch ∨ f = .treeLookupFailure ∨ f = .outputOverflow) := by
  induction k with
  | zero =>
    intro s _ hk
    exact .inl ⟨s, raiseIf_of_false _ (decide_eq_false (by omega))⟩
  | succ k ih =>
    intro s h hk
    unfold readRecords
    by_cases hlt : s.rbits.toNat < s.rtotal.toNat
    · simp only [if_pos hlt]
      rcases recread_outcome h with ⟨_, t, e⟩ | ⟨_, ⟨_, t, e⟩ | ⟨m, x, _, _, ⟨_, t, e⟩ | ⟨_, t, e, hr⟩⟩⟩
      · exact .inr ⟨_, t, by rw [e], .inl rfl⟩
      · exact .inr ⟨_, t, by rw [e], .inr (.inl rfl)⟩
      · exact .inr ⟨_, t, by rw [e], .inr (.inr rfl)⟩
      · rw [e]
        refine ih hr.ready ?_
        have hw := h.wide
        have hc := hr.count
        have : t.rtotal = s.rtotal := by rw [hr.frame]
        rw [this]; omega
    · simp only [if_neg hlt]
      exact .inl ⟨s, rfl⟩

/-! ### A buffer that holds the records of some letters -/

theorem streamBits_add (m : Memory) (base j n k : Nat) :
    streamBits m base j (n + k) = streamBits m base j n ++ streamBits m base (j + n) k := by
  induction n generalizing j with
  | zero => simp [streamBits]
  | succ n ih =>
    rw [show n + 1 + k = (n + k) + 1 by omega, streamBits_succ, streamBits_succ, ih, List.cons_append,
      show j + 1 + n = j + (n + 1) by omega]

/-- A depth field wide enough for the depth gives it back (30_encoding.md R106). -/
theorem bitsToNat_depthField {mdb d : Nat} (h : d < 2 ^ mdb) : bitsToNat (depthField mdb d) = d := by
  apply Nat.eq_of_testBit_eq
  intro i
  rw [testBit_bitsToNat]
  by_cases hi : i < mdb
  · simp [depthField, hi]
  · have h1 : d.testBit i = false :=
      Nat.testBit_lt_two_pow (Nat.lt_of_lt_of_le h (Nat.pow_le_pow_right (by decide) (by omega)))
    simp [depthField, hi, h1]

/-- The little-endian image of a value loads as the value (20_memory.md R63, R68). -/
theorem load_of_bytes {m : Memory} {b n v : Nat} (h : m.bytes b n = leBytes n v) (hv : v < 256 ^ n) : m.load b n = v := by
  induction n generalizing b v with
  | zero => simp [Memory.load] at hv ⊢; omega
  | succ n ih =>
    rw [leBytes_succ, Memory.bytes] at h
    injection h with h1 h2
    rw [Memory.load, h1, ih h2 (by rw [Nat.pow_succ] at hv; omega), BitVec.toNat_ofNat]
    omega

/-- The alphabet of a header that holds the symbols `a` (45_codec_driver.md R213, 30_encoding.md R98). -/
theorem headerLetters_of_bytes {s : State} (a : List Sym) : ∀ {k : Nat}, (∀ x ∈ a, x.fits s.cfg = true) →
    s.inMem.bytes (2 + k * s.cfg.w) (a.length * s.cfg.w) = a.flatMap (fun x => leBytes s.cfg.w x.toNat) →
    (headerLetters s k a.length).map (·.sym) = a := by
  induction a with
  | nil => intro k _ _; rfl
  | cons x a ih =>
    intro k hx h
    rw [List.length_cons, show (a.length + 1) * s.cfg.w = s.cfg.w + a.length * s.cfg.w by ring, bytes_append,
      List.flatMap_cons] at h
    obtain ⟨h1, h2⟩ := List.append_inj h (by simp)
    have hf : x.toNat < 256 ^ s.cfg.w := by
      have := hx x (by simp)
      rw [show (256 : Nat) = 2 ^ 8 from rfl, ← Nat.pow_mul]
      simpa [Sym.fits] using this
    simp only [List.length_cons, headerLetters, List.map_cons]
    rw [load_of_bytes h1 hf, ih (fun y hy => hx y (List.mem_cons_of_mem _ hy)) (by
      rw [show 2 + (k + 1) * s.cfg.w = 2 + k * s.cfg.w + s.cfg.w by ring]; exact h2)]
    simp

/-- The bytes of a place are the image of what it loads as (20_memory.md R63, R65). -/
theorem bytes_eq_leBytes (m : Memory) (b n : Nat) : m.bytes b n = leBytes n (m.load b n) := by
  induction n generalizing b with
  | zero => rfl
  | succ n ih =>
    rw [leBytes_succ, Memory.bytes, Memory.load, ih]
    have := (m.read b).isLt
    congr 1
    · apply BitVec.eq_of_toNat_eq; rw [BitVec.toNat_ofNat]; omega
    · congr 1; omega

/-- The bytes of a buffer of whole symbols are the images of its symbols (20_memory.md R64). -/
theorem bytes_symsFrom (s : State) (k i : Nat) : s.inMem.bytes (i * s.cfg.w) (k * s.cfg.w) =
    (s.symsFrom i k).flatMap fun x => leBytes s.cfg.w x.toNat := by
  induction k generalizing i with
  | zero => simp [Memory.bytes, State.symsFrom]
  | succ k ih =>
    rw [show (k + 1) * s.cfg.w = s.cfg.w + k * s.cfg.w by ring, bytes_append, State.symsFrom, List.flatMap_cons,
      show i * s.cfg.w + s.cfg.w = (i + 1) * s.cfg.w by ring, ih, symAt_toNat, ← bytes_eq_leBytes]

/-- The depth width of an alphabet holds the depth of each of its ranks (45_codec_driver.md R203, R207). -/
theorem rankDepth_lt_depthWidth {n k : Nat} (h : k < n) : rankDepth k < 2 ^ depthWidth n := by
  have h1 : rankDepth k ≤ Nat.log2 n := by
    unfold rankDepth
    have g1 := (Nat.log2_eq_iff (n := k + 1) (k := Nat.log2 (k + 1)) (by omega)).mp rfl
    have g2 := (Nat.log2_eq_iff (n := n) (k := Nat.log2 n) (by omega)).mp rfl
    by_contra hh
    have : 2 ^ (Nat.log2 n + 1) ≤ 2 ^ Nat.log2 (k + 1) := Nat.pow_le_pow_right (by decide) (by omega)
    omega
  have h2 : Nat.log2 n < 2 ^ bitlen (Nat.log2 n) := by
    unfold bitlen
    split
    · omega
    · exact Nat.lt_log2_self
  have h3 : 2 ^ bitlen (Nat.log2 n) ≤ 2 ^ depthWidth n :=
    Nat.pow_le_pow_right (by decide) (by unfold depthWidth; omega)
  omega

@[simp] theorem depthField_length (mdb d : Nat) : (depthField mdb d).length = mdb := by simp [depthField]

theorem rankRecord_length (mdb k : Nat) : (rankRecord mdb k).length = mdb + rankDepth k := by simp [rankRecord]

/-- `DRV.RECREAD` on the record of the letter of rank `k` (45_codec_driver.md R216, 30_encoding.md R106): it appends the
letter, or raises `OutputOverflow` where `OUT` has no room for it. -/
theorem recread_letter {a : List Sym} {k : Nat} {s : State} (hr : ReadReady s) (hb : Built s.nodes a) (hk : k < a.length)
    (hd : rankDepth k < 2 ^ s.mdb.toNat) (hle : s.rbits.toNat + (s.mdb.toNat + rankDepth k) ≤ s.rtotal.toNat)
    (hs : streamBits s.inMem s.rbase.toNat s.rbits.toNat (s.mdb.toNat + rankDepth k) = rankRecord s.mdb.toNat k) :
    (s.cfg.outFits (s.outLen + s.cfg.w) = false ∧ ∃ t, drvRecread s = .error .outputOverflow t) ∨
      (s.cfg.outFits (s.outLen + s.cfg.w) = true ∧ ∃ t, drvRecread s = .ok () t ∧ RecordRead s (a.getD k 0) t ∧
        t.rbits.toNat = s.rbits.toNat + (s.mdb.toNat + rankDepth k)) := by
  rw [streamBits_add, rankRecord] at hs
  obtain ⟨h1, h2⟩ := List.append_inj hs (by simp)
  have hdepth : nextDepth s = rankDepth k := by rw [nextDepth, h1, bitsToNat_depthField hd]
  have hfollow : follow s.nodes 0 (nextPath s) = some k := by rw [nextPath, hdepth, h2]; exact hb.path k hk
  have hval : (s.nodes[k]?).bind (·.val) = some (a.getD k 0) := by
    rw [hb.val k hk, List.getD_eq_getElem?_getD, List.getElem?_eq_getElem hk]; rfl
  rcases recread_outcome hr with ⟨h, _⟩ | ⟨_, ⟨h, _⟩ | ⟨m, x, g1, g2, ⟨h, t, e⟩ | ⟨h, t, e, hq⟩⟩⟩
  · rw [hdepth] at h; omega
  · have := h k hfollow
    rw [hval] at this; cases this
  · exact .inl ⟨h, t, e⟩
  · rw [hfollow] at g1
    cases g1
    rw [hval] at g2
    cases g2
    exact .inr ⟨h, t, e, hq, by rw [hq.count, hdepth]; omega⟩

/-- Every outcome of the record loop on a bit stream that is the records of the letters of ranks `ks` (45_codec_driver.md
R216, R217): the letters appended where `OUT` has room for all of them, else `OutputOverflow`. -/
theorem readRecords_letters {a : List Sym} (ks : List Nat) : ∀ {n : Nat} {s : State}, ReadReady s → Built s.nodes a →
    (∀ k ∈ ks, k < a.length ∧ rankDepth k < 2 ^ s.mdb.toNat) →
    s.rbits.toNat + (ks.flatMap (rankRecord s.mdb.toNat)).length = s.rtotal.toNat → s.rtotal.toNat ≤ s.rbits.toNat + n →
    streamBits s.inMem s.rbase.toNat s.rbits.toNat (ks.flatMap (rankRecord s.mdb.toNat)).length =
      ks.flatMap (rankRecord s.mdb.toNat) →
    s.cfg.outFits s.outLen = true →
    (s.cfg.outFits (s.outLen + ks.length * s.cfg.w) = false ∧ ∃ t, readRecords n s = .error .outputOverflow t) ∨
    (s.cfg.outFits (s.outLen + ks.length * s.cfg.w) = true ∧
      ∃ t, readRecords n s = .ok () t ∧ t.outLen = s.outLen + ks.length * s.cfg.w ∧
        (s.outMem.wf = true → t.outMem.bytes s.outLen (ks.length * s.cfg.w) =
          ks.flatMap fun k => leBytes s.cfg.w (a.getD k 0).toNat) ∧
        (∀ x, x < s.outLen ∨ t.outLen ≤ x → t.outMem.read x = s.outMem.read x) ∧
        t = { s with piDepth := t.piDepth, piPath := t.piPath, ridx := t.ridx, rcur := t.rcur, rbits := t.rbits,
                     outMem := t.outMem, outLen := t.outLen }) := by
  induction ks with
  | nil =>
    intro n s _ _ _ h1 h2 _ h0
    refine .inr ⟨by simpa using h0, s, ?_, by simp, fun _ => by simp [Memory.bytes], fun _ _ => rfl, rfl⟩
    have hno : ¬s.rbits.toNat < s.rtotal.toNat := by simp at h1; omega
    cases n with
    | zero => exact raiseIf_of_false _ (decide_eq_false hno)
    | succ n => simp only [readRecords, if_neg hno]
  | cons k ks ih =>
    intro n s hr hb hk h1 h2 h3 _
    obtain ⟨hka, hkd⟩ := hk k (by simp)
    have hw := hr.wide
    rw [List.flatMap_cons, List.length_append, rankRecord_length] at h1 h3
    obtain ⟨L, hL⟩ : ∃ L, L = (ks.flatMap (rankRecord s.mdb.toNat)).length := ⟨_, rfl⟩
    rw [← hL] at h1 h3
    rw [streamBits_add] at h3
    obtain ⟨h3, h4⟩ := List.append_inj h3 (by simp [rankRecord_length])
    have hlen : s.outLen + s.cfg.w + ks.length * s.cfg.w = s.outLen + (k :: ks).length * s.cfg.w := by
      rw [List.length_cons]; ring
    cases n with
    | zero => omega
    | succ n =>
      have hlt : s.rbits.toNat < s.rtotal.toNat := by omega
      simp only [readRecords, if_pos hlt]
      rcases recread_letter hr hb hka hkd (by omega) h3 with ⟨hno, t, e⟩ | ⟨hfit, t, e, hq, hcnt⟩
      · refine .inl ⟨?_, t, by rw [e]⟩
        rw [← hlen]
        cases hf : s.cfg.outFits (s.outLen + s.cfg.w + ks.length * s.cfg.w) with
        | false => rfl
        | true => rw [outFits_mono hf (by omega)] at hno; cases hno
      · rw [e]
        have f := hq.frame
        have c1 : t.cfg = s.cfg := by rw [f]
        have c2 : t.mdb = s.mdb := by rw [f]
        have c3 : t.rtotal = s.rtotal := by rw [f]
        have c4 : t.rbase = s.rbase := by rw [f]
        have c5 : t.inMem = s.inMem := by rw [f]
        have c6 : t.nodes = s.nodes := by rw [f]
        have c7 : t.outLen = s.outLen + s.cfg.w := by rw [f]
        have c8 : t.outMem = s.outMem.store s.outLen s.cfg.w (a.getD k 0).toNat := by rw [f]
        have hi := ih (n := n) hq.ready (by rw [c6]; exact hb)
          (by rw [c2]; exact fun j hj => hk j (List.mem_cons_of_mem _ hj)) (by rw [c2, c3, hcnt, ← hL]; omega)
          (by rw [c3]; omega) (by rw [c2, c4, c5, hcnt, ← hL, ← h4]) (by rw [c1, c7]; exact hfit)
        rw [c1, c7, hlen] at hi
        rcases hi with ⟨i0, v, i1⟩ | ⟨i0, v, i1, i2, i3, i4, i5⟩
        · exact .inl ⟨i0, v, i1⟩
        · rw [c8] at i4
          refine .inr ⟨i0, v, i1, i2, ?_, ?_, ?_⟩
          · intro hwf
            rw [List.length_cons, show (ks.length + 1) * s.cfg.w = s.cfg.w + ks.length * s.cfg.w by ring, bytes_append,
              List.flatMap_cons, i3 (by rw [c8]; exact wf_store hwf _ _ _), ← bytes_store hwf s.outLen s.cfg.w]
            congr 1
            exact bytes_congr fun x _ hx => i4 x (.inl hx)
          · intro x hx
            rw [i2, ← hlen] at hx
            rw [i4 x (by rw [i2, ← hlen]; omega), read_store_other _ _ (by omega)]
          · rw [i5, f]

end Sys2Proof.Machine
end

