-- ==== Sys2Proof/Laws/Records.lean ====
section
/-! SUPPORT. What the record loop of ENCODE writes, said once as a sequence of puts (45_codec_driver.md R201, R205). -/

namespace Sys2Proof.Machine

/-! ### Records -/

/-- `BSW.PUT` in one expression (44_bitstream.md R181, R182, R185). -/
theorem bswPut_eq (b : Bool) (s : State) : bswPut b s =
    if s.tbits.toNat = 2 ^ 32 - 1 then .error .bitCountOverflow (s.setWriter (withBit s.wbyte s.wcur b) s.wcur s.tbits)
    else if s.wcur.toNat = 7 then
      if s.cfg.outFits (s.outLen + 1) = true then
        .ok () ((s.setOut (s.outMem.write s.outLen (withBit s.wbyte s.wcur b)) (s.outLen + 1)).setWriter 0 0 (s.tbits + 1))
      else .error .outputOverflow (s.setWriter (withBit s.wbyte s.wcur b) s.wcur (s.tbits + 1))
    else .ok () (s.setWriter (withBit s.wbyte s.wcur b) (s.wcur + 1) (s.tbits + 1)) := by
  rw [bswPut, bind_of_ok (bswWritebit_apply b s)]
  rcases bswAdvance_cases (s.setWriter (withBit s.wbyte s.wcur b) s.wcur s.tbits) with
    ⟨h1, h⟩ | ⟨h1, h2, h⟩ | ⟨h1, h2, h3, h⟩ | ⟨h1, h2, h3, h⟩ <;> rw [h]
  · have h1' : s.tbits.toNat = 2 ^ 32 - 1 := h1
    rw [if_pos h1']
  · have h1' : ¬ s.tbits.toNat = 2 ^ 32 - 1 := h1
    have h2' : ¬ s.wcur.toNat = 7 := h2
    rw [if_neg h1', if_neg h2']; rfl
  · have h1' : ¬ s.tbits.toNat = 2 ^ 32 - 1 := h1
    have h2' : s.wcur.toNat = 7 := h2
    have h3' : s.cfg.outFits (s.outLen + 1) = true := h3
    rw [if_neg h1', if_pos h2', if_pos h3']; rfl
  · have h1' : ¬ s.tbits.toNat = 2 ^ 32 - 1 := h1
    have h2' : s.wcur.toNat = 7 := h2
    have h3' : ¬ s.cfg.outFits (s.outLen + 1) = true := by
      have h4 : s.cfg.outFits (s.outLen + 1) = false := h3
      rw [h4]; decide
    rw [if_neg h1', if_pos h2', if_neg h3']; rfl

/-- A state with another path register. -/
def State.onPath (s : State) (f : Bool) (d : Nat) (p : List Bool) : State := (s.setFound f).setPath d p

/-- A result with another path register in its state. -/
def resultOnPath (f : Bool) (d : Nat) (p : List Bool) :
    EStateM.Result FaultCode State Unit → EStateM.Result FaultCode State Unit
  | .ok _ t => .ok () (t.onPath f d p)
  | .error e t => .error e (t.onPath f d p)

/-- The writer does not look at the path register. -/
theorem puts_onPath (bits : List Bool) (s : State) (f : Bool) (d : Nat) (p : List Bool) :
    forEach bits bswPut (s.onPath f d p) = resultOnPath f d p (forEach bits bswPut s) := by
  have h1 : ∀ b s, bswPut b (State.onPath s f d p) = resultOnPath f d p (bswPut b s) := by
    intro b s
    rw [bswPut_eq, bswPut_eq]
    by_cases h1 : s.tbits.toNat = 2 ^ 32 - 1
    · rw [if_pos h1, if_pos (show (s.onPath f d p).tbits.toNat = _ from h1)]; rfl
    · rw [if_neg h1, if_neg (show ¬ (s.onPath f d p).tbits.toNat = _ from h1)]
      by_cases h2 : s.wcur.toNat = 7
      · rw [if_pos h2, if_pos (show (s.onPath f d p).wcur.toNat = _ from h2)]
        by_cases h3 : s.cfg.outFits (s.outLen + 1) = true
        · rw [if_pos h3, if_pos (show (s.onPath f d p).cfg.outFits ((s.onPath f d p).outLen + 1) = true from h3)]; rfl
        · rw [if_neg h3, if_neg (show ¬ (s.onPath f d p).cfg.outFits ((s.onPath f d p).outLen + 1) = true from h3)]; rfl
      · rw [if_neg h2, if_neg (show ¬ (s.onPath f d p).wcur.toNat = _ from h2)]; rfl
  induction bits generalizing s with
  | nil => rfl
  | cons b bits ih =>
    simp only [forEach, bind_apply, h1]
    cases hb : bswPut b s with
    | ok u t => simp only [resultOnPath]; exact ih t
    | error e t => rfl

/-- What the writer leaves alone. -/
theorem puts_frame (bits : List Bool) (s : State) :
    match forEach bits bswPut s with
    | .ok _ t => t = (s.setOut t.outMem t.outLen).setWriter t.wbyte t.wcur t.tbits
    | .error e t => t = (s.setOut t.outMem t.outLen).setWriter t.wbyte t.wcur t.tbits ∧
        (e = .bitCountOverflow ∨ e = .outputOverflow) := by
  induction bits generalizing s with
  | nil => rfl
  | cons b bits ih =>
    simp only [forEach, bind_apply]
    rw [bswPut_eq]
    by_cases h1 : s.tbits.toNat = 2 ^ 32 - 1
    · rw [if_pos h1]; exact ⟨rfl, .inl rfl⟩
    · rw [if_neg h1]
      have key : ∀ u : State, u = (s.setOut u.outMem u.outLen).setWriter u.wbyte u.wcur u.tbits →
          match forEach bits bswPut u with
          | .ok _ t => t = (s.setOut t.outMem t.outLen).setWriter t.wbyte t.wcur t.tbits
          | .error e t => t = (s.setOut t.outMem t.outLen).setWriter t.wbyte t.wcur t.tbits ∧
              (e = .bitCountOverflow ∨ e = .outputOverflow) := by
        intro u hu
        have := ih u
        cases hf : forEach bits bswPut u with
        | ok v t => rw [hf] at this; simp only at this ⊢; rw [this, hu]; rfl
        | error e t => rw [hf] at this; simp only at this ⊢; exact ⟨by rw [this.1, hu]; rfl, this.2⟩
      by_cases h2 : s.wcur.toNat = 7
      · rw [if_pos h2]
        by_cases h3 : s.cfg.outFits (s.outLen + 1) = true
        · rw [if_pos h3]; exact key _ rfl
        · rw [if_neg h3]; exact ⟨rfl, .inr rfl⟩
      · rw [if_neg h2]; exact key _ rfl

/-- `n` times one record (45_codec_driver.md R201, R205). -/
theorem repeat_recemit (n : Nat) (s : State) : repeatOp n drvRecemit s =
    forEach (List.replicate n (depthField s.mdb.toNat s.piDepth ++ pathField s.piPath s.piDepth)).flatten bswPut s := by
  induction n generalizing s with
  | zero => rfl
  | succ n ih =>
    rw [repeatOp, List.replicate_succ, List.flatten_cons, forEach_append, bind_apply, bind_apply, drvRecemit_eq]
    have hf := puts_frame (depthField s.mdb.toNat s.piDepth ++ pathField s.piPath s.piDepth) s
    cases hr : forEach (depthField s.mdb.toNat s.piDepth ++ pathField s.piPath s.piDepth) bswPut s with
    | error e t => rfl
    | ok v t =>
      rw [hr] at hf
      simp only at hf ⊢
      rw [ih t]
      have e1 : t.mdb = s.mdb := by rw [hf]; rfl
      have e2 : t.piDepth = s.piDepth := by rw [hf]; rfl
      have e3 : t.piPath = s.piPath := by rw [hf]; rfl
      rw [e1, e2, e3]

/-- In the tree of an alphabet `TREE.PATHINFO` gives a letter the path of its rank (43_path_codec.md R175). -/
theorem treePathinfo_rank {s : State} {a : List Sym} (hb : Built s.nodes a) (hd : a.Nodup) {x : Sym} (hx : x ∈ a) :
    treePathinfo x s = .ok () (s.onPath true (rankDepth (a.idxOf x)) (rankPath (a.idxOf x))) := by
  have hi := List.idxOf_lt_length_of_mem hx
  rcases treePathinfo_cases hb.ok x with ⟨p, m, h1, h2, h3, _⟩ | ⟨_, h2⟩
  · have hm : m < a.length := by
      rw [← hb.size]; exact follow_lt hb.ok hb.ok.1 h2
    rw [hb.val m hm] at h3
    have hmi : m = a.idxOf x := by
      rw [List.getElem?_eq_getElem hm] at h3
      have h4 : a[m] = x := by simpa using h3
      have h5 : a[a.idxOf x] = x := List.getElem_idxOf hi
      exact (hd.getElem_inj_iff (hi := hm) (hj := hi)).mp (h4.trans h5.symm)
    have hp : p = rankPath m := follow_unique hb.ok (m + 1) m (by omega) _ _ h2 (hb.path m hm)
    rw [h1, hp, rankPath_length, hmi]
    rfl
  · have h3 := hb.val _ hi
    rw [List.getElem?_eq_getElem hi, List.getElem_idxOf hi] at h3
    cases hn : s.nodes[a.idxOf x]? with
    | none => rw [hn] at h3; simp at h3
    | some nd =>
      rw [hn] at h3
      exact absurd (by simpa using h3) (h2 nd (List.mem_of_getElem? hn))

/-- The bits of a run sequence. -/
def runBits (m : Nat) (a : List Sym) (rs : List Run) : List Bool :=
  (spell rs).flatMap fun x => rankRecord m (a.idxOf x)

/-- The record loop of `ENCODE` puts the bits of its runs; afterwards the path register holds something else
(45_codec_driver.md R201). -/
theorem encodeRuns_eq {a : List Sym} (hd : a.Nodup) (rs : List Run) : ∀ {s : State}, Built s.nodes a →
    (∀ r ∈ rs, r.sym ∈ a) → ∃ f d p,
      forEach rs encodeRun s = resultOnPath f d p (forEach (runBits s.mdb.toNat a rs) bswPut s) := by
  induction rs with
  | nil => intro s _ _; exact ⟨s.piFound, s.piDepth, s.piPath, rfl⟩
  | cons r rs ih =>
    intro s hb hm
    have h1 := treePathinfo_rank hb hd (hm r (by simp))
    have h2 : runBits s.mdb.toNat a (r :: rs) =
        (List.replicate r.count.toNat (rankRecord s.mdb.toNat (a.idxOf r.sym))).flatten ++ runBits s.mdb.toNat a rs := by
      simp only [runBits, spell, List.flatMap_cons, List.flatMap_append]
      congr 1
      rw [List.flatMap_replicate]
    obtain ⟨k, hk⟩ : ∃ k, k = a.idxOf r.sym := ⟨_, rfl⟩
    rw [← hk] at h1 h2
    rw [forEach, bind_apply, encodeRun, bind_of_ok h1, bind_of_ok (raiseIf_of_false _ rfl), repeat_recemit]
    have e : depthField (s.onPath true (rankDepth k) (rankPath k)).mdb.toNat
        (s.onPath true (rankDepth k) (rankPath k)).piDepth ++
          pathField (s.onPath true (rankDepth k) (rankPath k)).piPath (s.onPath true (rankDepth k) (rankPath k)).piDepth =
        rankRecord s.mdb.toNat k := by
      show depthField s.mdb.toNat (rankDepth k) ++ pathField (rankPath k) (rankDepth k) = _
      rw [← rankPath_length, pathField_self]
      simp [rankRecord]
    rw [e, puts_onPath, h2, forEach_append, bind_apply]
    have hf := puts_frame (List.replicate r.count.toNat (rankRecord s.mdb.toNat k)).flatten s
    cases hr : forEach (List.replicate r.count.toNat (rankRecord s.mdb.toNat k)).flatten bswPut s with
    | error e t => exact ⟨_, _, _, rfl⟩
    | ok v t =>
      rw [hr] at hf
      simp only [resultOnPath] at hf ⊢
      have e1 : (t.onPath true (rankDepth k) (rankPath k)).nodes = s.nodes := by rw [hf]; rfl
      have e2 : (t.onPath true (rankDepth k) (rankPath k)).mdb = s.mdb := by rw [hf]; rfl
      obtain ⟨f, d, p, hfp⟩ := ih (s := t.onPath true (rankDepth k) (rankPath k)) (by rw [e1]; exact hb)
        (fun r' h' => hm r' (by simp [h']))
      refine ⟨f, d, p, ?_⟩
      rw [hfp, e2, puts_onPath]
      cases forEach (runBits s.mdb.toNat a rs) bswPut t <;> rfl

end Sys2Proof.Machine
end

