-- ==== Sys2Proof/Laws/Run.lean ====
section
/-! SUPPORT. Operations performed one after the other: what `runOps`, `putOps` and `readOps` of Safety.lean come to. -/

namespace Sys2Proof.Machine

/-! ### Sequences of operations -/

/-- Some operations and then others. -/
theorem runOps_append (a b : List Instr) (s : State) : runOps (a ++ b) s = match runOps a s with
   | .next t => runOps b t | .fault r => .fault r | .refused r => .refused r := by
  induction a generalizing s with
  | nil => rfl
  | cons i a ih =>
    simp only [List.cons_append, runOps]
    cases exec i s with
    | next t => exact ih t
    | fault r => rfl
    | refused r => rfl

/-- A sequence of `BSW.PUT` as lines is the loop over the bits. -/
theorem runOps_puts (bits : List Bool) : ∀ {s t : State}, forEach bits bswPut s = .ok () t → runOps (putOps bits) s = .next t := by
  induction bits with
  | nil => intro s t h; cases h; rfl
  | cons b bits ih =>
    intro s t h
    simp only [forEach] at h
    obtain ⟨_, u, h1, h2⟩ := bind_ok h
    have h3 := ih h2
    have e : putOps (b :: bits) = .bswWritebit b :: .bswAdvance :: putOps bits := rfl
    rw [e]
    have e1 : exec (.bswWritebit b) s = .next (s.setWriter (withBit s.wbyte s.wcur b) s.wcur s.tbits) := rfl
    have e2 : exec .bswAdvance (s.setWriter (withBit s.wbyte s.wcur b) s.wcur s.tbits) = .next u := opOutcome_of_ok h1
    simp only [runOps, e1, e2, h3]

/-- An insert that has room, then the rest. -/
theorem runOps_insert {x : Sym} {rest : List Instr} {s : State} {u : List Node} (h : insertNode s.nodes x = some u) :
   runOps (.treeInsert x :: rest) s = runOps rest (s.setNodes u) := by
  have : exec (.treeInsert x) s = .next (s.setNodes u) := by
    change opOutcome (treeInsert x) s = _
    simp [opOutcome, treeInsert, h]
  simp only [runOps, this]

/-! ### The tree measures, performed on their own -/

theorem exec_count {s : State} {x : Option Nat} {v : Nat} (h : countOf s.nodes x = some v) :
    exec (.treeCount x) s = .next (s.setRet (.nat v)) := by
  change retOutcome (treeMeasure (countOf · x)) .nat s = _
  simp [retOutcome, treeMeasure, h]

theorem exec_height {s : State} {x : Nat} {v : Nat} (h : heightOf s.nodes x = some v) :
    exec (.treeHeight x) s = .next (s.setRet (.nat v)) := by
  change retOutcome (treeMeasure (heightOf · x)) .nat s = _
  simp [retOutcome, treeMeasure, h]

theorem exec_depth {s : State} {x : Nat} {v : Nat} (h : depthOf s.nodes x = some v) :
    exec (.treeDepth x) s = .next (s.setRet (.nat v)) := by
  change retOutcome (treeMeasure (depthOf · x)) .nat s = _
  simp [retOutcome, treeMeasure, h]

/-! ### Bits and bytes -/

theorem byte_ext {a b : BitVec 8} (h : ∀ j < 8, a.getLsbD j = b.getLsbD j) : a = b := BitVec.eq_of_getLsbD_eq (fun j hj => h j hj)

theorem ofNat_bits (l : List Bool) (j : Nat) (hj : j < 8) : (BitVec.ofNat 8 (bitsToNat l)).getLsbD j = l.getD j false := by
  rw [BitVec.getLsbD_ofNat, testBit_bitsToNat]; simp [hj]

/-- What a sequence of `BSW.PUT` after `BSW.INIT` leaves (44_bitstream.md R185). -/
theorem puts_init {s0 : State} {bits : List Bool} {t : State} (h : PutsTo (s0.setWriter 0 0 0) bits t) :
   t.wbyte = BitVec.ofNat 8 (bitsToNat (bits.drop (8 * (bits.length / 8)))) ∧ t.wcur = BitVec.ofNat 3 (bits.length % 8) ∧
   t.tbits = BitVec.ofNat 32 bits.length ∧ t.outLen = s0.outLen + bits.length / 8 ∧
   (s0.outMem.wf = true → ∀ j < bits.length / 8, t.outMem.read (s0.outLen + j) = BitVec.ofNat 8 (bitsToNat ((bits.drop (8 * j)).take 8))) ∧
   (∀ a, a < s0.outLen ∨ s0.outLen + bits.length / 8 ≤ a → t.outMem.read a = s0.outMem.read a) ∧
   t = (s0.setOut t.outMem t.outLen).setWriter t.wbyte t.wcur t.tbits := by
  obtain ⟨frame, len, cur, count, wf, out, rest, other⟩ := h
  simp only [setWriter_wcur, setWriter_outLen, setWriter_tbits, setWriter_outMem, setWriter_wbyte] at *
  have z3 : (0 : BitVec 3).toNat = 0 := rfl
  have z32 : (0 : BitVec 32).toNat = 0 := rfl
  rw [z3, Nat.zero_add] at len cur out rest
  rw [z32, Nat.zero_add] at count
  have pend : ∀ i, pending 0 0 bits i = bits.getD i false := by intro i; simp [pending]
  refine ⟨?_, ?_, ?_, len, ?_, ?_, frame⟩
  · apply byte_ext
    intro j hj
    rw [rest (by simp) j hj, pend, ofNat_bits _ _ hj]
    simp
  · apply BitVec.eq_of_toNat_eq; rw [cur, BitVec.toNat_ofNat]; omega
  · apply BitVec.eq_of_toNat_eq; rw [count, BitVec.toNat_ofNat]
    have := t.tbits.isLt; omega
  · intro hw j hj
    apply byte_ext
    intro i hi
    have := out hw (8 * j + i) (by omega)
    rw [show (8 * j + i) / 8 = j by omega, show (8*j+i) % 8 = i by omega, pend] at this
    rw [this, ofNat_bits _ _ hi]
    simp [hi]
  · intro a ha
    exact other a (by rw [len]; exact ha)

/-! ### Reading -/

/-- A placed reader with enough bits left reads the next `n` bits of the stream (44_bitstream.md R187). -/
theorem readOps_placed (n : Nat) : ∀ (u : State), ReaderPlaced u → u.rbits.toNat + n ≤ u.rtotal.toNat →
    u.rbase.toNat + ceilDiv8 (u.rbits.toNat + n) ≤ u.inLen.toNat →
    ∃ w, readOps n u = some (streamBits u.inMem u.rbase.toNat u.rbits.toNat n, w) := by
  induction n with
  | zero => intro u _ _ _; exact ⟨u, rfl⟩
  | succ n ih =>
    intro u hp h1 h2
    unfold ceilDiv8 at h2
    have htot := u.rtotal.isLt
    have hb := bsrReadbit_of_placed hp (by omega) (by omega)
    obtain ⟨g1, g2⟩ := readerNext_placed hp (by omega)
    have e : exec .bsrReadbit u = .next ((readerNext u).setRet (.bit (streamBit u.inMem u.rbase.toNat u.rbits.toNat))) := retOutcome_of_ok hb
    have f := readerNext_eq u
    obtain ⟨w, hw⟩ := ih ((readerNext u).setRet (.bit (streamBit u.inMem u.rbase.toNat u.rbits.toNat))) g1
      (by rw [f] ; change (readerNext u).rbits.toNat + n ≤ u.rtotal.toNat; omega)
      (by unfold ceilDiv8; rw [f]; change u.rbase.toNat + ((readerNext u).rbits.toNat + n + 7)/8 ≤ u.inLen.toNat; omega)
    refine ⟨w, ?_⟩
    simp only [readOps, e]
    have f2 : streamBits (readerNext u).inMem (readerNext u).rbase.toNat (readerNext u).rbits.toNat n = streamBits u.inMem u.rbase.toNat (u.rbits.toNat + 1) n := by
      rw [g2, f]; rfl
    simp only [setRet_ret]
    rw [hw, streamBits_succ]
    simp only [setRet_inMem, setRet_rbase, setRet_rbits, f2]
    rfl

end Sys2Proof.Machine
end

