-- ==== Sys2Proof/Laws/Finish.lean ====
section
/-! SUPPORT. What the phases of ENCODE from E_HEADER on leave in OUT, each said once (45_codec_driver.md R201). -/

namespace Sys2Proof.Machine

/-! ### The end of ENCODE -/

/-- What a fresh writer leaves after the given bits, `OUT` having been `m0` and `OUT_LEN` `base` (44_bitstream.md R185). -/
structure Streamed (m0 : Memory) (base : Nat) (bits : List Bool) (t : State) : Prop where
  /-- The full bytes have been appended. -/
  len : t.outLen = base + bits.length / 8
  /-- The cursor. -/
  cur : t.wcur.toNat = bits.length % 8
  /-- The bits left over. -/
  byte : t.wbyte = BitVec.ofNat 8 (bitsToNat (bits.drop (8 * (bits.length / 8))))
  /-- The count. -/
  count : t.tbits.toNat = bits.length
  /-- The memory keeps its canonical form. -/
  wf : m0.wf = true → t.outMem.wf = true
  /-- The bytes appended. -/
  out : m0.wf = true → ∀ j < bits.length / 8,
    t.outMem.read (base + j) = BitVec.ofNat 8 (bitsToNat ((bits.drop (8 * j)).take 8))
  /-- Every other byte is as it was. -/
  other : ∀ a, a < base ∨ base + bits.length / 8 ≤ a → t.outMem.read a = m0.read a

/-- Every outcome of a sequence of puts into a fresh writer (44_bitstream.md R182, R185). -/
theorem puts_fresh (bits : List Bool) (s : State) (h0 : s.cfg.outFits s.outLen = true) :
    (bits.length < 2 ^ 32 ∧ s.cfg.outFits (s.outLen + bits.length / 8) = true ∧
      ∃ t, forEach bits bswPut (s.setWriter 0 0 0) = .ok () t ∧ Streamed s.outMem s.outLen bits t) ∨
    ((bits.length < 2 ^ 32 ∧ s.cfg.outFits (s.outLen + bits.length / 8) = false ∨
        2 ^ 32 ≤ bits.length ∧ s.cfg.outFits (s.outLen + (2 ^ 32 - 1) / 8) = false) ∧
      ∃ t, forEach bits bswPut (s.setWriter 0 0 0) = .error .outputOverflow t) ∨
    (2 ^ 32 ≤ bits.length ∧ s.cfg.outFits (s.outLen + (2 ^ 32 - 1) / 8) = true ∧
      ∃ t, forEach bits bswPut (s.setWriter 0 0 0) = .error .bitCountOverflow t) := by
  have hz32 : (0 : BitVec 32).toNat = 0 := by decide
  have hz : ∀ n, s.outLen + ((0 : BitVec 3).toNat + n) / 8 = s.outLen + n / 8 := by intro n; simp
  rcases Nat.lt_or_ge bits.length (2 ^ 32) with hn | hn
  · cases hf : s.cfg.outFits (s.outLen + bits.length / 8) with
    | true =>
      obtain ⟨t, ht, hp⟩ := puts_ok bits (s.setWriter 0 0 0) (by simpa using hn) (by
        rw [setWriter_cfg, setWriter_outLen, setWriter_wcur, hz]; exact hf)
      obtain ⟨g1, g2, g3, g4, g5, g6, g7⟩ := puts_init hp
      refine .inl ⟨hn, rfl, t, ht, g4, ?_, g1, ?_, hp.wf, g5, g6⟩
      · rw [g2, BitVec.toNat_ofNat]; omega
      · rw [g3, BitVec.toNat_ofNat]; omega
    | false =>
      refine .inr (.inl ⟨.inl ⟨hn, rfl⟩, ?_⟩)
      exact puts_overflow bits (s.setWriter 0 0 0) (by simpa using hn) (by
        rw [setWriter_cfg, setWriter_outLen, setWriter_wcur, hz]; exact hf) h0
  · obtain ⟨b1, b2, hb, hl⟩ : ∃ b1 b2, bits = b1 ++ b2 ∧ b1.length = 2 ^ 32 - 1 :=
      ⟨bits.take (2 ^ 32 - 1), bits.drop (2 ^ 32 - 1), (List.take_append_drop _ _).symm, by
        rw [List.length_take]; omega⟩
    rw [hb, forEach_append, bind_apply]
    cases hf : s.cfg.outFits (s.outLen + (2 ^ 32 - 1) / 8) with
    | true =>
      obtain ⟨t, ht, hp⟩ := puts_ok b1 (s.setWriter 0 0 0) (by rw [hl, setWriter_tbits, hz32]; omega) (by
        rw [setWriter_cfg, setWriter_outLen, setWriter_wcur, hz, hl]; exact hf)
      have hc := hp.count
      rw [hl] at hc
      refine .inr (.inr ⟨by rw [← hb]; exact hn, rfl, ?_⟩)
      rw [ht]
      cases b2 with
      | nil => rw [hb] at hn; simp at hn; omega
      | cons b b2 =>
        refine ⟨t.setWriter (withBit t.wbyte t.wcur b) t.wcur t.tbits, ?_⟩
        simp only [forEach, bind_apply]
        rw [bswPut_eq, if_pos (by rw [hc, setWriter_tbits, hz32, Nat.zero_add])]
    | false =>
      refine .inr (.inl ⟨.inr ⟨by rw [← hb]; exact hn, rfl⟩, ?_⟩)
      obtain ⟨t, ht⟩ := puts_overflow b1 (s.setWriter 0 0 0) (by rw [hl, setWriter_tbits, hz32]; omega) (by
        rw [setWriter_cfg, setWriter_outLen, setWriter_wcur, hz, hl]; exact hf) h0
      exact ⟨t, by rw [ht]⟩

/-- `BSW.FLUSH` completes the packed stream (44_bitstream.md R183, 30_encoding.md R99). -/
theorem bswFlush_streamed {m0 : Memory} {base : Nat} {bits : List Bool} {t : State} (h : Streamed m0 base bits t) :
    (t.cfg.outFits (base + ceilDiv8 bits.length) = true ∨ bits.length % 8 = 0) ∧ (∃ m,
      bswFlush t = .ok () ((t.setOut m (base + ceilDiv8 bits.length)).setWriter 0 0 t.tbits) ∧
      (m0.wf = true → m.wf = true ∧ m.bytes base (ceilDiv8 bits.length) = packBits bits) ∧
      ∀ a, a < base ∨ base + ceilDiv8 bits.length ≤ a → m.read a = m0.read a) ∨
    t.cfg.outFits (base + ceilDiv8 bits.length) = false ∧ bits.length % 8 ≠ 0 ∧ bswFlush t = .error .outputOverflow t := by
  obtain ⟨len, cur, byte, count, wf, out, other⟩ := h
  have hpack : ∀ (m : Memory), (∀ j < ceilDiv8 bits.length, m.read (base + j) =
      BitVec.ofNat 8 (bitsToNat ((bits.drop (8 * j)).take 8))) → m.bytes base (ceilDiv8 bits.length) = packBits bits := by
    intro m hm
    refine List.ext_getElem? fun j => ?_
    by_cases hj : j < ceilDiv8 bits.length
    · rw [bytes_getElem? _ hj, hm j hj]; simp [packBits, hj]
    · rw [List.getElem?_eq_none (by simp; omega), List.getElem?_eq_none (by simp [packBits]; omega)]
  rcases bswFlush_cases t with ⟨h1, h2⟩ | ⟨h1, h2, h3⟩ | ⟨h1, h2, h3⟩
  · have hc : ceilDiv8 bits.length = bits.length / 8 := by unfold ceilDiv8; omega
    rw [hc]
    refine .inl ⟨.inr (by omega), t.outMem, ?_, fun hw => ⟨wf hw, ?_⟩, ?_⟩
    · rw [h2]
      have e1 : t.wcur = 0 := BitVec.eq_of_toNat_eq (by rw [h1]; rfl)
      have e2 : t.wbyte = 0 := by
        rw [byte, List.drop_eq_nil_of_le (by omega)]; rfl
      congr 1
      rw [← len]
      cases t
      simp only at e1 e2
      subst e1 e2
      rfl
    · rw [← hc]; exact hpack _ fun j hj => out hw j (by omega)
    · exact other
  · have hc : ceilDiv8 bits.length = bits.length / 8 + 1 := by unfold ceilDiv8; omega
    rw [hc]
    refine .inl ⟨.inl (by rw [← Nat.add_assoc, ← len]; exact h2), t.outMem.write t.outLen t.wbyte, ?_, fun hw => ?_, ?_⟩
    · rw [h3, len, Nat.add_assoc]
    · refine ⟨wf_write (wf hw) _ _, ?_⟩
      rw [← hc]
      refine hpack _ fun j hj => ?_
      by_cases hje : j = bits.length / 8
      · rw [hje, ← len, read_write_same (wf hw), byte, List.take_of_length_le]
        rw [List.length_drop]; omega
      · rw [read_write_other _ _ (by omega), out hw j (by omega)]
    · intro a ha
      rw [read_write_other _ _ (by omega), other a (by omega)]
  · have hc : ceilDiv8 bits.length = bits.length / 8 + 1 := by unfold ceilDiv8; omega
    refine .inr ⟨?_, by omega, h3⟩
    rw [hc, ← Nat.add_assoc, ← len]; exact h2

theorem depthWidth_bounds {n : Nat} (h : n ≤ 256) : 1 ≤ depthWidth n ∧ depthWidth n ≤ 4 := by
  have h1 : Nat.log2 n ≤ 8 := by
    by_cases h0 : n = 0
    · subst h0; decide
    · have := (Nat.log2_lt h0 (k := 9)).mpr (by omega)
      omega
  have key : ∀ k ≤ 8, 1 ≤ max 1 (bitlen k) ∧ max 1 (bitlen k) ≤ 4 := by decide
  exact key _ h1

theorem outFits_zero (c : Config) : c.outFits 0 = true := by
  unfold Config.outFits
  split <;> simp

/-- What phase E_HEADER of `ENCODE` finds. -/
structure EncodeReady (u : State) (a xs : List Sym) : Prop where
  /-- The alphabet. -/
  alpha : u.alpha.map (·.sym) = a
  /-- It has at least one letter. -/
  pos : 1 ≤ a.length
  /-- And at most 256. -/
  le : a.length ≤ 256
  /-- No letter twice. -/
  nodup : a.Nodup
  /-- The tree of the alphabet. -/
  built : Built u.nodes a
  /-- The depth width. -/
  mdb : u.mdb = BitVec.ofNat 8 (depthWidth a.length)
  /-- The runs of the input. -/
  runs : u.runs = runsOf xs
  /-- Every symbol of the input is a letter. -/
  mem : ∀ x ∈ xs, x ∈ a
  /-- `OUT` is empty. -/
  out : u.outLen = 0

/-- Phase E_RECORDS puts the bit string of the input into a fresh writer (45_codec_driver.md R201, R207). -/
theorem encodeRecords_eq {u : State} {a xs : List Sym} (hd : a.Nodup) (hb : Built u.nodes a) (hl : a.length ≤ 256)
    (hm : u.mdb = BitVec.ofNat 8 (depthWidth a.length)) (hr : u.runs = runsOf xs) (hx : ∀ x ∈ xs, x ∈ a) :
    ∃ f d p, encodeRecords u = resultOnPath f d p (forEach (streamOf a xs) bswPut (u.setWriter 0 0 0)) := by
  have e : encodeRecords u = forEach u.runs encodeRun (u.setWriter 0 0 0) := rfl
  obtain ⟨f, d, p, h⟩ := encodeRuns_eq hd (runsOf xs) (s := u.setWriter 0 0 0) hb fun r h => hx _ (mem_of_mem_runsOf h)
  refine ⟨f, d, p, ?_⟩
  rw [e, hr, h]
  congr 2
  have h1 := depthWidth_bounds hl
  rw [runBits, (runsOf_spec xs).1, streamOf, setWriter_mdb, hm, BitVec.toNat_ofNat, Nat.mod_eq_of_lt (by omega)]

/-- Every outcome of the phases of `ENCODE` from E_HEADER on (45_codec_driver.md R201, R207, R208, 60_exceptions.md R246,
R249). -/
theorem encodeBack_cases {u : State} {a xs : List Sym} (hu : EncodeReady u a xs) :
    ((streamOf a xs).length < 2 ^ 32 ∧ u.cfg.outFits (encodedBuffer u.cfg.w a xs).length = true ∧
      ∃ v, encodeBack u = .ok () v ∧ v.outLen = (encodedBuffer u.cfg.w a xs).length ∧
        (u.outMem.wf = true → v.result = encodedBuffer u.cfg.w a xs) ∧
        (∀ x, v.outLen ≤ x → v.outMem.read x = u.outMem.read x) ∧
        v = { u with outMem := v.outMem, outLen := v.outLen, piDepth := v.piDepth, piPath := v.piPath,
                     piFound := v.piFound, wbyte := v.wbyte, wcur := v.wcur, tbits := v.tbits, phase := v.phase }) ∨
    (((streamOf a xs).length < 2 ^ 32 ∧ u.cfg.outFits (encodedBuffer u.cfg.w a xs).length = false ∨
        2 ^ 32 ≤ (streamOf a xs).length ∧ u.cfg.outFits (2 + a.length * u.cfg.w + (2 ^ 32 - 1) / 8) = false) ∧
      ∃ v, encodeBack u = .error .outputOverflow v) ∨
    (2 ^ 32 ≤ (streamOf a xs).length ∧ u.cfg.outFits (2 + a.length * u.cfg.w + (2 ^ 32 - 1) / 8) = true ∧
      ∃ v, encodeBack u = .error .bitCountOverflow v) := by
  obtain ⟨halpha, hpos, hle, hd, hb, hm, hr, hx, hout⟩ := hu
  have hal : u.alpha.length = a.length := by rw [← halpha, List.length_map]
  have hlen : (encodedBuffer u.cfg.w a xs).length =
      2 + a.length * u.cfg.w + ceilDiv8 (streamOf a xs).length + 4 := by
    simp [encodedBuffer, packBits, List.length_flatMap]
    omega
  rw [hlen]
  obtain ⟨H, hH⟩ : ∃ H, H = 2 + a.length * u.cfg.w := ⟨_, rfl⟩
  obtain ⟨n, hn⟩ : ∃ n, n = (streamOf a xs).length := ⟨_, rfl⟩
  rw [← hH, ← hn]
  obtain ⟨u1, hu1⟩ : ∃ u1, u1 = u.setPhase .eHeader := ⟨_, rfl⟩
  have e1 : encodeBack u = (drvHdremit >>= fun _ => (do
      enter .eRecords
      encodeRecords
      enter .eFlush
      bswFlush
      enter .eTrailer
      drvTrailemit : Op Unit)) u1 := by
    rw [encodeBack, bind_of_ok (enter_apply _ _), hu1]
  rw [e1]
  have hceil : n / 8 ≤ ceilDiv8 n := by unfold ceilDiv8; omega
  cases hf : u.cfg.outFits H with
  | false =>
    obtain ⟨m, k, h⟩ := drvHdremit_overflow (s := u1) (by rw [hu1]; change 1 ≤ u.alpha.length; omega)
      (by rw [hu1]; change u.alpha.length ≤ 256; omega)
      (by rw [hu1]; change u.cfg.outFits (u.outLen + 2 + u.alpha.length * u.cfg.w) = false; rw [hout, hal, Nat.zero_add, ← hH]; exact hf)
    have hno : ∀ k, H ≤ k → u.cfg.outFits k = false := by
      intro k hk
      cases hc : u.cfg.outFits k with
      | false => rfl
      | true => rw [outFits_mono hc hk] at hf; cases hf
    refine .inr (.inl ⟨?_, _, bind_of_error h⟩)
    rcases Nat.lt_or_ge n (2 ^ 32) with h1 | h1
    · exact .inl ⟨h1, hno _ (by omega)⟩
    · exact .inr ⟨h1, hno _ (by omega)⟩
  | true =>
    obtain ⟨m, h, hw, ho⟩ := drvHdremit_ok (s := u1) (by rw [hu1]; change 1 ≤ u.alpha.length; omega)
      (by rw [hu1]; change u.alpha.length ≤ 256; omega)
      (by rw [hu1]; change u.cfg.outFits (u.outLen + 2 + u.alpha.length * u.cfg.w) = true; rw [hout, hal, Nat.zero_add, ← hH]; exact hf)
    rw [bind_of_ok h, bind_of_ok (enter_apply _ _)]
    obtain ⟨u2, hu2⟩ : ∃ u2, u2 = (u1.setOut m (u1.outLen + 2 + u1.alpha.length * u1.cfg.w)).setPhase .eRecords := ⟨_, rfl⟩
    rw [← hu2]
    have f2 : u2 = { u with outMem := m, outLen := H, phase := .eRecords } := by
      rw [hu2, hu1, hH, ← hal]
      simp only [State.setPhase, State.setOut, hout, Nat.zero_add]
    obtain ⟨f, d, p, hrec⟩ := encodeRecords_eq (u := u2) (a := a) (xs := xs) hd (by rw [f2]; exact hb) hle (by rw [f2]; exact hm)
      (by rw [f2]; exact hr) hx
    have c2 : u2.cfg = u.cfg := by rw [f2]
    have o2 : u2.outLen = H := by rw [f2]
    have m2 : u2.outMem = m := by rw [f2]
    rcases puts_fresh (streamOf a xs) u2 (by rw [c2, o2]; exact hf) with ⟨h1, h2, t, h3, h4⟩ | ⟨h1, t, h3⟩ | ⟨h1, h2, t, h3⟩
    · rw [← hn] at h1
      rw [c2, o2, ← hn] at h2
      rw [h3] at hrec
      have hfr := puts_frame (streamOf a xs) (u2.setWriter 0 0 0)
      rw [h3] at hfr
      simp only [resultOnPath] at hrec hfr
      rw [o2, m2] at h4
      have h4' : Streamed m H (streamOf a xs) ((t.onPath f d p).setPhase .eFlush) :=
        ⟨h4.len, h4.cur, h4.byte, h4.count, h4.wf, h4.out, h4.other⟩
      rw [bind_of_ok hrec, bind_of_ok (enter_apply _ _)]
      obtain ⟨u3, hu3⟩ : ∃ u3, u3 = (t.onPath f d p).setPhase .eFlush := ⟨_, rfl⟩
      rw [← hu3] at h4' ⊢
      have f3 : u3 = { u with outMem := u3.outMem, outLen := u3.outLen, piDepth := u3.piDepth, piPath := u3.piPath,
                              piFound := u3.piFound, wbyte := u3.wbyte, wcur := u3.wcur, tbits := u3.tbits,
                              phase := .eFlush } := by
        rw [hu3, hfr, f2]
        rfl
      have c3 : u3.cfg = u.cfg := by rw [f3]
      rcases bswFlush_streamed h4' with ⟨g1, m3, g2, g3, g4⟩ | ⟨g1, g2, g3⟩
      · rw [bind_of_ok g2, bind_of_ok (enter_apply _ _)]
        rw [← hn] at g3 g4
        obtain ⟨u4, hu4⟩ : ∃ u4, u4 = ((u3.setOut m3 (H + ceilDiv8 n)).setWriter 0 0 u3.tbits).setPhase .eTrailer := ⟨_, rfl⟩
        rw [← hn, ← hu4]
        have f4 : u4 = { u with outMem := m3, outLen := H + ceilDiv8 n, piDepth := u4.piDepth, piPath := u4.piPath,
                                piFound := u4.piFound, wbyte := 0, wcur := 0, tbits := u3.tbits, phase := .eTrailer } := by
          rw [hu4, f3]
          rfl
        have c4 : u4.cfg = u.cfg := by rw [f4]
        have o4 : u4.outLen = H + ceilDiv8 n := by rw [f4]
        have m4 : u4.outMem = m3 := by rw [f4]
        have t4 : u4.tbits.toNat = n := by rw [f4, hn]; exact h4'.count
        have e5 : drvTrailemit u4 = outAppend 4 u4.tbits.toNat u4 := rfl
        rw [e5]
        cases hf4 : u.cfg.outFits (H + ceilDiv8 n + 4) with
        | true =>
          refine .inl ⟨h1, rfl, _, outAppend_of_fits _ (by rw [c4, o4]; exact hf4), by rw [setOut_outLen, o4], ?_, ?_, ?_⟩
          · intro hwf
            obtain ⟨w1, w2⟩ := hw (by rw [hu1]; exact hwf)
            have w2' : m.bytes 0 H = [u.mdb, BitVec.ofNat 8 (u.alpha.length - 1)] ++
                u.alpha.flatMap (fun l => leBytes u.cfg.w l.sym.toNat) := by
              rw [hu1] at w2
              have : m.bytes u.outLen (2 + u.alpha.length * u.cfg.w) = _ := w2
              rw [hout, hal, ← hH] at this
              rw [this]; rfl
            obtain ⟨w3, w4⟩ := g3 w1
            have w5 := wf_store w3 (H + ceilDiv8 n) 4 n
            rw [State.result, setOut_outMem, setOut_outLen, o4, m4, t4]
            rw [bytes_append, bytes_append, Nat.zero_add, Nat.zero_add]
            have b1 : (m3.store (H + ceilDiv8 n) 4 n).bytes 0 H = m.bytes 0 H := bytes_congr fun x _ hxx => by
              rw [read_store_other _ _ (by omega), g4 x (by omega)]
            have b2 : (m3.store (H + ceilDiv8 n) 4 n).bytes H (ceilDiv8 n) = m3.bytes H (ceilDiv8 n) :=
              bytes_congr fun x _ hxx => by rw [read_store_other _ _ (by omega)]
            rw [b1, b2, w2', w4, bytes_store w3, encodedBuffer, ← hn, hm, hal, ← halpha, List.flatMap_map]
          · intro x hxx
            rw [setOut_outLen, o4] at hxx
            rw [setOut_outMem, o4, m4, read_store_other _ _ (by omega), g4 x (by omega), ho x (by
              rw [hu1]; change x < u.outLen ∨ u.outLen + 2 + u.alpha.length * u.cfg.w ≤ x; rw [hout, hal]; omega), hu1]
            rfl
          · rw [f4]; rfl
        | false =>
          refine .inr (.inl ⟨.inl ⟨h1, rfl⟩, u4, ?_⟩)
          unfold outAppend
          rw [c4, o4, hf4]; rfl
      · refine .inr (.inl ⟨.inl ⟨h1, ?_⟩, _, bind_of_error g3⟩)
        rw [c3, ← hn] at g1
        cases hc : u.cfg.outFits (H + ceilDiv8 n + 4) with
        | false => rfl
        | true => rw [outFits_mono hc (by omega)] at g1; cases g1
    · rw [h3] at hrec
      rw [c2, o2, ← hn] at h1
      refine .inr (.inl ⟨?_, _, bind_of_error hrec⟩)
      rcases h1 with ⟨h1, h2⟩ | ⟨h1, h2⟩
      · refine .inl ⟨h1, ?_⟩
        cases hc : u.cfg.outFits (H + ceilDiv8 n + 4) with
        | false => rfl
        | true => rw [outFits_mono hc (by omega)] at h2; cases h2
      · exact .inr ⟨h1, h2⟩
    · rw [h3] at hrec
      rw [c2, o2] at h2
      exact .inr (.inr ⟨by rw [hn]; exact h1, h2, _, bind_of_error hrec⟩)

end Sys2Proof.Machine
end

