-- ==== Sys2Proof/Laws/PerInstr.lean ====
section
/-! SUPPORT. A statement made of every operation, one lemma for each constructor of Instr. -/

namespace Sys2Proof.Laws.EncodingInTable

/-- The word of an operation carries the code of the operation's row of the table of 30_encoding.md R91. -/
def Statement (i : Instr) : Prop := (i.mnemonic, (Sys2Proof.encode i).code) ∈ opcodeTable

theorem encode : Statement .encode := by simp [Statement, Sys2Proof.encode, OpWord.ofCode, Instr.mnemonic, opcodeTable]
theorem decode : Statement .decode := by simp [Statement, Sys2Proof.encode, OpWord.ofCode, Instr.mnemonic, opcodeTable]
theorem rleCollapse : Statement .rleCollapse := by simp [Statement, Sys2Proof.encode, OpWord.ofCode, Instr.mnemonic, opcodeTable]
theorem alphaFold : Statement .alphaFold := by simp [Statement, Sys2Proof.encode, OpWord.ofCode, Instr.mnemonic, opcodeTable]
theorem alphaSort : Statement .alphaSort := by simp [Statement, Sys2Proof.encode, OpWord.ofCode, Instr.mnemonic, opcodeTable]
theorem treeInit : Statement .treeInit := by simp [Statement, Sys2Proof.encode, OpWord.ofCode, Instr.mnemonic, opcodeTable]
theorem treeInsert (x : Sym) : Statement (.treeInsert x) := by simp [Statement, Sys2Proof.encode, OpWord.ofCode, Instr.mnemonic, opcodeTable]
theorem treeCount (x : Option Nat) : Statement (.treeCount x) := by cases x <;> simp [Statement, Sys2Proof.encode, OpWord.ofCode, Instr.mnemonic, opcodeTable]
theorem treeHeight (n : Nat) : Statement (.treeHeight n) := by simp [Statement, Sys2Proof.encode, OpWord.ofCode, Instr.mnemonic, opcodeTable]
theorem treeDepth (n : Nat) : Statement (.treeDepth n) := by simp [Statement, Sys2Proof.encode, OpWord.ofCode, Instr.mnemonic, opcodeTable]
theorem treePathinfo (x : Sym) : Statement (.treePathinfo x) := by simp [Statement, Sys2Proof.encode, OpWord.ofCode, Instr.mnemonic, opcodeTable]
theorem treeFindvalue : Statement .treeFindvalue := by simp [Statement, Sys2Proof.encode, OpWord.ofCode, Instr.mnemonic, opcodeTable]
theorem bswInit : Statement .bswInit := by simp [Statement, Sys2Proof.encode, OpWord.ofCode, Instr.mnemonic, opcodeTable]
theorem bswWritebit (b : Bool) : Statement (.bswWritebit b) := by simp [Statement, Sys2Proof.encode, OpWord.ofCode, Instr.mnemonic, opcodeTable]
theorem bswAdvance : Statement .bswAdvance := by simp [Statement, Sys2Proof.encode, OpWord.ofCode, Instr.mnemonic, opcodeTable]
theorem bswFlush : Statement .bswFlush := by simp [Statement, Sys2Proof.encode, OpWord.ofCode, Instr.mnemonic, opcodeTable]
theorem bsrInit (base : BitVec 32) : Statement (.bsrInit base) := by simp [Statement, Sys2Proof.encode, OpWord.ofCode, Instr.mnemonic, opcodeTable]
theorem bsrReadbit : Statement .bsrReadbit := by simp [Statement, Sys2Proof.encode, OpWord.ofCode, Instr.mnemonic, opcodeTable]
theorem drvDepthbits : Statement .drvDepthbits := by simp [Statement, Sys2Proof.encode, OpWord.ofCode, Instr.mnemonic, opcodeTable]
theorem drvHdremit : Statement .drvHdremit := by simp [Statement, Sys2Proof.encode, OpWord.ofCode, Instr.mnemonic, opcodeTable]
theorem drvRecemit : Statement .drvRecemit := by simp [Statement, Sys2Proof.encode, OpWord.ofCode, Instr.mnemonic, opcodeTable]
theorem drvTrailemit : Statement .drvTrailemit := by simp [Statement, Sys2Proof.encode, OpWord.ofCode, Instr.mnemonic, opcodeTable]
theorem drvHdrparse : Statement .drvHdrparse := by simp [Statement, Sys2Proof.encode, OpWord.ofCode, Instr.mnemonic, opcodeTable]
theorem drvTrailread : Statement .drvTrailread := by simp [Statement, Sys2Proof.encode, OpWord.ofCode, Instr.mnemonic, opcodeTable]
theorem drvRecread : Statement .drvRecread := by simp [Statement, Sys2Proof.encode, OpWord.ofCode, Instr.mnemonic, opcodeTable]

end Sys2Proof.Laws.EncodingInTable
end

