-- ==== Sys2Proof/Laws/Step.lean ====
section
/-! SUPPORT. What a step can do: its cases, said once, and one induction over everything that any operation, command or
host transaction writes (`Writes`). -/

namespace Sys2Proof.Machine

/-! ### The writes of every operation -/

/-- A relation between states that every register write of every operation and of every phase stays within. -/
structure OpWrites (R : State → State → Prop) : Prop extends Chains R where
  /-- A command starts, or a fault is taken. -/
  outClear : ∀ s, R s (s.setOut s.outMem 0)
  /-- `OutAppend`. -/
  append : ∀ s n v, s.cfg.outFits (s.outLen + n) = true →
    R s (s.setOut (s.outMem.store s.outLen n v) (s.outLen + n))
  /-- `RLE.COLLAPSE`. -/
  runs : ∀ s, R s (s.setRuns (runsOf s.inSymbols))
  /-- The alphabet. -/
  alpha : ∀ s a, R s (s.setAlpha a)
  /-- `TREE.INIT`. -/
  root : ∀ s, R s (s.setNodes [emptyRoot])
  /-- `TREE.INSERT`. -/
  insert : ∀ s x t, insertNode s.nodes x = some t → R s (s.setNodes t)
  /-- The path register. -/
  path : ∀ s d p, R s (s.setPath d p)
  /-- `PI_FOUND`. -/
  found : ∀ s b, R s (s.setFound b)
  /-- `BSW.INIT`. -/
  writer : ∀ s, R s (s.setWriter 0 0 0)
  /-- `BSW.WRITEBIT`. -/
  writebit : ∀ s b, R s (s.setWriter (withBit s.wbyte s.wcur b) s.wcur s.tbits)
  /-- `BSW.ADVANCE` counts the bit. -/
  count : ∀ s, s.tbits.toNat ≠ 2 ^ 32 - 1 → R s (s.setWriter s.wbyte s.wcur (s.tbits + 1))
  /-- `BSW.ADVANCE` moves the cursor. -/
  cursor : ∀ s, s.wcur.toNat ≠ 7 → R s (s.setWriter s.wbyte (s.wcur + 1) s.tbits)
  /-- A byte has been appended. -/
  clear : ∀ s, R s (s.setWriter 0 0 s.tbits)
  /-- `BSR.INIT`. -/
  reader : ∀ s b, R s ((s.setRbase b).setReader 0 0 0)
  /-- `BSR.READBIT`. -/
  read : ∀ s, s.rbits.toNat < s.rtotal.toNat → R s (readerNext s)
  /-- `DRV.TRAILREAD`. -/
  total : ∀ s t, R s (s.setRtotal t)
  /-- `MDB`. -/
  mdb : ∀ s b, R s (s.setMdb b)
  /-- `HEIGHT`. -/
  height : ∀ s h, R s (s.setHeight h)
  /-- `NSYM`. -/
  nsym : ∀ s n, R s (s.setNsym n)

/-- The same of the writes of the commands, which move the sequencer too. -/
structure Writes (R : State → State → Prop) : Prop extends OpWrites R where
  /-- The sequencer. -/
  phase : ∀ s p, R s (s.setPhase p)

section
variable {R : State → State → Prop} (w : OpWrites R)
include w

theorem within_treeInsert (x : Sym) : Within R (treeInsert x) := by
  intro s
  rcases treeInsert_cases x s with ⟨u, h1, h2⟩ | ⟨_, h2⟩
  · rw [h2]; exact w.insert s x u h1
  · rw [h2]; exact w.refl s

theorem within_treeMeasure (f : List Node → Option Nat) : Within R (treeMeasure f) := by
  intro s
  rcases treeMeasure_cases f s with ⟨v, _, h2⟩ | ⟨_, h2⟩ <;> rw [h2] <;> exact w.refl s

theorem within_buildTree : Within R buildTree :=
  within_bind w.toChains (within_update w.root) fun _ =>
    within_bind w.toChains (within_look w.toChains _) fun _ =>
      within_forEach w.toChains _ fun l _ => within_treeInsert w l.sym

theorem within_foldRun (r : Run) : Within R (foldRun r) := by
  intro s
  unfold foldRun
  cases addToLetter r.sym r.count.toNat s.alpha with
  | some a => exact w.alpha s a
  | none =>
    by_cases h : s.alpha.length = alphaMax
    · simpa [h] using w.refl s
    · simpa [h] using w.alpha s _

theorem within_alphaFold : Within R alphaFold :=
  within_bind w.toChains (within_update fun s => w.alpha s []) fun _ =>
    within_bind w.toChains (within_look w.toChains _) fun _ =>
      within_forEach w.toChains _ fun r _ => within_foldRun w r

theorem within_treePathinfo (x : Sym) : Within R (treePathinfo x) := by
  intro s
  unfold treePathinfo
  rcases search s.nodes x with p | _ | _
  · exact w.trans _ _ _ (w.found s true) (w.path _ _ _)
  · exact w.trans _ _ _ (w.found s false) (w.path _ _ _)
  · exact w.refl s

theorem within_treeFindvalue : Within R treeFindvalue := by
  intro s
  unfold treeFindvalue
  cases walk s.nodes s.piPath s.piDepth 0 0 <;> exact w.refl s

theorem within_append (n v : Nat) : Within R (outAppend n v) :=
  within_outAppend w.toChains n v fun s h => w.append s n v h

theorem within_symAppend (x : Sym) : Within R (symAppend x) := fun s => within_append w s.cfg.w x.toNat s

theorem within_bswAdvance : Within R bswAdvance := by
  intro s
  have key : ∀ h : s.tbits.toNat ≠ 2 ^ 32 - 1, R s (s.setWriter s.wbyte s.wcur (s.tbits + 1)) := fun h => w.count s h
  rcases bswAdvance_cases s with ⟨_, h⟩ | ⟨h1, h2, h⟩ | ⟨h1, h2, h3, h⟩ | ⟨h1, _, _, h⟩
  · rw [h]; exact w.refl s
  · rw [h]; exact w.trans _ _ _ (key h1) (w.cursor _ h2)
  · rw [h]
    have h4 := w.append _ 1 s.wbyte.toNat (show (s.setWriter s.wbyte s.wcur (s.tbits + 1)).cfg.outFits
      ((s.setWriter s.wbyte s.wcur (s.tbits + 1)).outLen + 1) = true from h3)
    have h5 := w.trans _ _ _ (key h1) (w.trans _ _ _ h4 (w.clear _))
    simp only [Memory.store, BitVec.ofNat_toNat, BitVec.setWidth_eq] at h5
    exact h5
  · rw [h]; exact key h1

theorem within_bswPut (b : Bool) : Within R (bswPut b) :=
  within_bind w.toChains (within_update fun s => w.writebit s b) fun _ => within_bswAdvance w

theorem within_bswFlush : Within R bswFlush := by
  intro s
  rcases bswFlush_cases s with ⟨_, h⟩ | ⟨h1, h2, h⟩ | ⟨_, _, h⟩
  · rw [h]; exact w.refl s
  · rw [h]
    have h3 := w.trans _ _ _ (w.append s 1 s.wbyte.toNat h2) (w.clear _)
    simpa [Memory.store] using h3
  · rw [h]; exact w.refl s

theorem within_bsrReadbit : Within R bsrReadbit := by
  intro s
  rcases bsrReadbit_cases s with ⟨h1, _, h⟩ | ⟨_, h⟩
  · rw [h]; exact w.read s h1
  · rw [h]; exact w.refl s

theorem within_drvHdremit : Within R drvHdremit :=
  within_bind w.toChains (within_look w.toChains _) fun _ =>
    within_bind w.toChains (within_append w _ _) fun _ =>
      within_bind w.toChains (within_raiseIf w.toChains _ _) fun _ =>
        within_bind w.toChains (within_look w.toChains _) fun _ =>
          within_bind w.toChains (within_append w _ _) fun _ =>
            within_forEach w.toChains _ fun l _ => within_symAppend w l.sym

theorem within_drvRecemit : Within R drvRecemit :=
  within_bind w.toChains (within_look w.toChains _) fun _ =>
    within_bind w.toChains (within_look w.toChains _) fun _ =>
      within_bind w.toChains (within_look w.toChains _) fun _ =>
        within_bind w.toChains (within_countUp w.toChains _ _ fun _ => within_bswPut w _) fun _ =>
          within_countUp w.toChains _ _ fun _ => within_bswPut w _

theorem within_drvTrailemit : Within R drvTrailemit :=
  within_bind w.toChains (within_look w.toChains _) fun _ => within_append w _ _

theorem within_drvHdrparse : Within R drvHdrparse :=
  within_bind w.toChains (within_raiseIf w.toChains _ _) fun _ =>
    within_bind w.toChains (within_memRead w.toChains _ _) fun _ =>
      within_bind w.toChains (within_update fun s => w.mdb s _) fun _ =>
        within_bind w.toChains (within_memRead w.toChains _ _) fun _ =>
          within_bind w.toChains (within_update fun s => w.nsym s _) fun _ =>
            within_bind w.toChains (within_raiseIf w.toChains _ _) fun _ =>
              within_update fun s => w.alpha s _

theorem within_drvTrailread : Within R drvTrailread :=
  within_bind w.toChains (within_raiseIf w.toChains _ _) fun _ =>
    within_bind w.toChains (within_look w.toChains _) fun _ =>
      within_bind w.toChains (within_memRead w.toChains _ _) fun _ =>
        within_bind w.toChains (within_update fun s => w.total s _) fun _ =>
          within_raiseIf w.toChains _ _

theorem within_readDepth (k i d : Nat) : Within R (readDepth k i d) := by
  induction k generalizing i d with
  | zero => exact within_pure w.toChains _
  | succ k ih => exact within_bind w.toChains (within_bsrReadbit w) fun _ => ih _ _

theorem within_drvRecread : Within R drvRecread :=
  within_bind w.toChains (within_raiseIf w.toChains _ _) fun _ =>
    within_bind w.toChains (within_look w.toChains _) fun _ =>
      within_bind w.toChains (within_readDepth w _ _ _) fun _ =>
        within_bind w.toChains (within_raiseIf w.toChains _ _) fun _ =>
          within_bind w.toChains (within_update fun s => w.path s _ _) fun _ =>
            within_bind w.toChains (within_repeatOp w.toChains _ (within_bind w.toChains (within_bsrReadbit w) fun _ =>
              within_update fun s => w.path s _ _)) fun _ =>
              within_bind w.toChains (within_treeFindvalue w) fun _ => within_symAppend w _

theorem within_readRecords (k : Nat) : Within R (readRecords k) := by
  induction k with
  | zero => exact within_raiseIf w.toChains _ _
  | succ k ih =>
    intro s
    unfold readRecords
    by_cases h : s.rbits.toNat < s.rtotal.toNat
    · simp only [if_pos h]
      have h1 := within_drvRecread w s
      cases hx : drvRecread s with
      | error f t => simpa [hx] using h1
      | ok v t =>
        rw [hx] at h1
        have h2 := ih t
        simp only at h1 ⊢
        cases hy : readRecords k t with
        | ok v u => rw [hy] at h2; exact w.trans _ _ _ h1 h2
        | error f u => rw [hy] at h2; exact w.trans _ _ _ h1 h2
    · simpa [if_neg h] using w.refl s

/-- Every phase of a command stays within. -/
theorem within_phaseBody (p : Phase) : Within R (phaseBody p) := by
  cases p with
  | idle => exact within_pure w.toChains ()
  | eInit =>
    exact within_bind w.toChains (within_update w.outClear) fun _ =>
      within_bind w.toChains (within_raiseIf w.toChains _ _) fun _ => within_raiseIf w.toChains _ _
  | eRle => exact within_update w.runs
  | eFold => exact within_alphaFold w
  | eSort => exact within_update fun s => w.alpha s _
  | eTree => exact within_buildTree w
  | eDepthbits =>
    exact within_bind w.toChains (within_treeMeasure w _) fun _ =>
      within_bind w.toChains (within_update fun s => w.height s _) fun _ => within_update fun s => w.mdb s _
  | eHeader => exact within_drvHdremit w
  | eRecords =>
    exact within_bind w.toChains (within_update w.writer) fun _ =>
      within_bind w.toChains (within_look w.toChains _) fun _ =>
        within_forEach w.toChains _ fun r _ =>
          within_bind w.toChains (within_treePathinfo w _) fun _ =>
            within_bind w.toChains (within_raiseIf w.toChains _ _) fun _ =>
              within_repeatOp w.toChains _ (within_drvRecemit w)
  | eFlush => exact within_bswFlush w
  | eTrailer => exact within_drvTrailemit w
  | dInit => exact within_update w.outClear
  | dHeader => exact within_drvHdrparse w
  | dTrailer =>
    exact within_bind w.toChains (within_drvTrailread w) fun _ => within_raiseIf w.toChains _ _
  | dTree =>
    exact within_bind w.toChains (within_raiseIf w.toChains _ _) fun _ => within_buildTree w
  | dRecords =>
    exact within_bind w.toChains (within_look w.toChains _) fun _ =>
      within_bind w.toChains (within_update fun s => w.reader s _) fun _ =>
        within_bind w.toChains (within_look w.toChains _) fun _ => within_readRecords w _

/-- What a micro-operation performed on its own leaves: some writes, then the fault entry, a value returned, or nothing
more. -/
theorem operation_cases (i : Instr) (h : ¬IsCommand i) (s : State) : ∃ t u, exec i s = .next t ∧ R s u ∧
    (t = u ∨ (∃ r, t = u.setRet r) ∨ ∃ f, t = faultEntry f u) := by
  have hop : ∀ {body : Op Unit}, Within R body → ∃ t u, opOutcome body s = .next t ∧ R s u ∧
      (t = u ∨ (∃ r, t = u.setRet r) ∨ ∃ f, t = faultEntry f u) := by
    intro body h
    have h1 := h s
    unfold opOutcome
    cases hb : body s with
    | ok v t => rw [hb] at h1; exact ⟨t, t, rfl, h1, .inl rfl⟩
    | error f t => rw [hb] at h1; exact ⟨_, t, rfl, h1, .inr (.inr ⟨f, rfl⟩)⟩
  have hval : ∀ {α : Type} {body : Op α} (wrap : α → Ret), Within R body → ∃ t u, retOutcome body wrap s = .next t ∧
      R s u ∧ (t = u ∨ (∃ r, t = u.setRet r) ∨ ∃ f, t = faultEntry f u) := by
    intro α body wrap h
    have h1 := h s
    unfold retOutcome
    cases hb : body s with
    | ok v t => rw [hb] at h1; exact ⟨_, t, rfl, h1, .inr (.inl ⟨_, rfl⟩)⟩
    | error f t => rw [hb] at h1; exact ⟨_, t, rfl, h1, .inr (.inr ⟨f, rfl⟩)⟩
  cases i with
  | encode => exact absurd (.inl rfl) h
  | decode => exact absurd (.inr rfl) h
  | rleCollapse => exact hop (within_phaseBody w .eRle)
  | alphaFold => exact hop (within_phaseBody w .eFold)
  | alphaSort => exact hop (within_phaseBody w .eSort)
  | treeInit => exact hop (within_update w.root)
  | treeInsert x => exact hop (within_treeInsert w x)
  | treeCount x => exact hval _ (within_treeMeasure w _)
  | treeHeight n => exact hval _ (within_treeMeasure w _)
  | treeDepth n => exact hval _ (within_treeMeasure w _)
  | treePathinfo x => exact hop (within_treePathinfo w x)
  | treeFindvalue => exact hval _ (within_treeFindvalue w)
  | bswInit => exact hop (within_update w.writer)
  | bswWritebit b => exact hop (within_update fun s => w.writebit s b)
  | bswAdvance => exact hop (within_bswAdvance w)
  | bswFlush => exact hop (within_bswFlush w)
  | bsrInit base => exact hop (within_update fun s => w.reader s base)
  | bsrReadbit => exact hval _ (within_bsrReadbit w)
  | drvDepthbits => exact hop (within_update fun s => w.mdb s _)
  | drvHdremit => exact hop (within_drvHdremit w)
  | drvRecemit => exact hop (within_drvRecemit w)
  | drvTrailemit => exact hop (within_drvTrailemit w)
  | drvHdrparse => exact hop (within_drvHdrparse w)
  | drvTrailread => exact hop (within_drvTrailread w)
  | drvRecread => exact hop (within_drvRecread w)

end

section
variable {R : State → State → Prop} (w : Writes R)
include w

theorem within_encodeSequence : Within R encodeSequence := by
  have e : ∀ p, Within R (enter p) := fun p => within_update fun s => w.phase s p
  have b := within_phaseBody w.toOpWrites
  exact within_bind w.toChains (e _) fun _ => within_bind w.toChains (b .eInit) fun _ =>
    within_bind w.toChains (e _) fun _ => within_bind w.toChains (b .eRle) fun _ =>
    within_bind w.toChains (e _) fun _ => within_bind w.toChains (b .eFold) fun _ =>
    within_bind w.toChains (e _) fun _ => within_bind w.toChains (b .eSort) fun _ =>
    within_bind w.toChains (e _) fun _ => within_bind w.toChains (b .eTree) fun _ =>
    within_bind w.toChains (e _) fun _ => within_bind w.toChains (b .eDepthbits) fun _ =>
    within_bind w.toChains (e _) fun _ => within_bind w.toChains (b .eHeader) fun _ =>
    within_bind w.toChains (e _) fun _ => within_bind w.toChains (b .eRecords) fun _ =>
    within_bind w.toChains (e _) fun _ => within_bind w.toChains (b .eFlush) fun _ =>
    within_bind w.toChains (e _) fun _ => b .eTrailer

theorem within_decodeSequence : Within R decodeSequence := by
  have e : ∀ p, Within R (enter p) := fun p => within_update fun s => w.phase s p
  have b := within_phaseBody w.toOpWrites
  exact within_bind w.toChains (e _) fun _ => within_bind w.toChains (b .dInit) fun _ =>
    within_bind w.toChains (e _) fun _ => within_bind w.toChains (b .dHeader) fun _ =>
    within_bind w.toChains (e _) fun _ => within_bind w.toChains (b .dTrailer) fun _ =>
    within_bind w.toChains (e _) fun _ => within_bind w.toChains (b .dTree) fun _ =>
    within_bind w.toChains (e _) fun _ => b .dRecords

/-! ### The outcome of an operation -/

/-- What a command leaves: the writes of its sequence, then its end or the fault entry. -/
theorem command_cases (i : Instr) (h : IsCommand i) (s : State) : ∃ t u, exec i s = .next t ∧ R s u ∧
    (t = commandDone u ∨ ∃ f, t = faultEntry f u) := by
  have hcmd : ∀ {body : Op Unit}, Within R body → ∃ t u, commandOutcome body s = .next t ∧ R s u ∧
      (t = commandDone u ∨ ∃ f, t = faultEntry f u) := by
    intro body h
    have h1 := h s
    unfold commandOutcome
    cases hb : body s with
    | ok v t => rw [hb] at h1; exact ⟨_, t, rfl, h1, .inl rfl⟩
    | error f t => rw [hb] at h1; exact ⟨_, t, rfl, h1, .inr ⟨f, rfl⟩⟩
  rcases h with rfl | rfl
  · exact hcmd (within_encodeSequence w)
  · exact hcmd (within_decodeSequence w)

/-- Every instruction answers a next state, within the writes. -/
theorem exec_within (hstatus : ∀ s v, (v = statusOk ∨ ∃ f, v = statusErr f) → R s (s.setStatus v))
    (hret : ∀ s r, R s (s.setRet r)) (i : Instr) (s : State) : ∃ t, exec i s = .next t ∧ R s t := by
  have hfault : ∀ f t, R s t → R s (faultEntry f t) := fun f t h =>
    w.trans _ _ _ h (w.trans _ _ _ (w.outClear t) (w.trans _ _ _ (hstatus _ _ (.inr ⟨f, rfl⟩)) (w.phase _ _)))
  by_cases h : IsCommand i
  · obtain ⟨t, u, h1, h2, rfl | ⟨f, rfl⟩⟩ := command_cases w i h s
    · exact ⟨_, h1, w.trans _ _ _ h2 (w.trans _ _ _ (hstatus u _ (.inl rfl)) (w.phase _ _))⟩
    · exact ⟨_, h1, hfault f u h2⟩
  · obtain ⟨t, u, h1, h2, rfl | ⟨r, rfl⟩ | ⟨f, rfl⟩⟩ := operation_cases w.toOpWrites i h s
    · exact ⟨_, h1, h2⟩
    · exact ⟨_, h1, w.trans _ _ _ h2 (hret u r)⟩
    · exact ⟨_, h1, hfault f u h2⟩

/-- One phase of a running command stays within. -/
theorem phaseStep_within (hstatus : ∀ s v, (v = statusOk ∨ ∃ f, v = statusErr f) → R s (s.setStatus v)) (s : State) :
    R s (phaseStep s) := by
  have h1 := within_phaseBody w.toOpWrites s.phase s
  unfold phaseStep
  cases hb : phaseBody s.phase s with
  | ok v t =>
    rw [hb] at h1
    simp only
    split
    · exact w.trans _ _ _ h1 (w.trans _ _ _ (hstatus t _ (.inl rfl)) (w.phase _ _))
    · exact w.trans _ _ _ h1 (w.phase _ _)
  | error f t =>
    rw [hb] at h1
    exact w.trans _ _ _ h1 (w.trans _ _ _ (w.outClear t) (w.trans _ _ _ (hstatus _ _ (.inr ⟨f, rfl⟩)) (w.phase _ _)))

end

/-- No operation writes `IN`, `IN_LEN`, `CMD`, `STATUS`, the parameters or the model's own fields; `STATUS` is written at
the end of a command and by the fault entry only (10_state.md R41 to R43, 20_memory.md R61). -/
theorem writes_untouched : Writes (Same fun s =>
    (s.inMem, s.inLen, s.cfg, s.cmd, s.status, s.ret, s.script, s.replies)) where
  toChains := same_chains _
  phase _ _ := rfl
  outClear _ := rfl
  append _ _ _ _ := rfl
  runs _ := rfl
  alpha _ _ := rfl
  root _ := rfl
  insert _ _ _ _ := rfl
  path _ _ _ := rfl
  found _ _ := rfl
  writer _ := rfl
  writebit _ _ := rfl
  count _ _ := rfl
  cursor _ _ := rfl
  clear _ := rfl
  reader _ _ := rfl
  read s _ := by rw [Same, readerNext_eq]; rfl
  total _ _ := rfl
  mdb _ _ := rfl
  height _ _ := rfl
  nsym _ _ := rfl

/-- No operation performed on its own and no phase moves the sequencer or touches the host's side (10_state.md R40, R42). -/
theorem writes_keep_phase : OpWrites (Same fun s => (s.phase, s.cmd, s.script)) where
  toChains := same_chains _
  outClear _ := rfl
  append _ _ _ _ := rfl
  runs _ := rfl
  alpha _ _ := rfl
  root _ := rfl
  insert _ _ _ _ := rfl
  path _ _ _ := rfl
  found _ _ := rfl
  writer _ := rfl
  writebit _ _ := rfl
  count _ _ := rfl
  cursor _ _ := rfl
  clear _ := rfl
  reader _ _ := rfl
  read s _ := by rw [Same, readerNext_eq]; rfl
  total _ _ := rfl
  mdb _ _ := rfl
  height _ _ := rfl
  nsym _ _ := rfl

/-! ### The cases of a step -/

/-- All that `HostLoad` can do (10_state.md R45). -/
theorem hostLoad_cases (b : List Byte) (s : State) :
    (b.length ≤ s.cfg.inCap.toNat ∧ hostLoad b s = .next (s.setIn (Memory.ofBytes b) (BitVec.ofNat 32 b.length)) ∧
      (BitVec.ofNat 32 b.length).toNat = b.length) ∨
    (s.cfg.inCap.toNat < b.length ∧ hostLoad b s = .refused .loadOverCapacity) := by
  unfold hostLoad
  by_cases h : b.length ≤ s.cfg.inCap.toNat
  · have := s.cfg.inCap.isLt
    exact .inl ⟨h, by rw [if_pos h], by rw [BitVec.toNat_ofNat, Nat.mod_eq_of_lt (by omega)]⟩
  · exact .inr ⟨by omega, by rw [if_neg h]⟩

/-- `LOADRESULT` finds the newest result among the replies (30_encoding.md R112 d). -/
theorem lastResult_of_newest {newer older : List Reply} {b : List Byte} (h : ∀ r ∈ newer, ∀ c, r ≠ .result c) :
    lastResult (newer ++ .result b :: older) = some b := by
  induction newer with
  | nil => rfl
  | cons r newer ih =>
    cases r with
    | status x e => exact ih fun r hr => h r (List.mem_cons_of_mem _ hr)
    | result c => exact absurd rfl (h _ List.mem_cons_self c)

/-- With no result among the replies `LOADRESULT` finds none. -/
theorem lastResult_of_none {rs : List Reply} (h : ∀ r ∈ rs, ∀ c, r ≠ .result c) : lastResult rs = none := by
  induction rs with
  | nil => rfl
  | cons r rs ih =>
    cases r with
    | status x e => exact ih fun r hr => h r (List.mem_cons_of_mem _ hr)
    | result c => exact absurd rfl (h _ List.mem_cons_self c)

/-- All that a step which answers a next state can have done. -/
theorem step_cases {s t : State} (h : step s = .next t) :
    (s.phase ≠ .idle ∧ t = phaseStep s) ∨
    (s.phase = .idle ∧ s.cmd = none ∧ s.script = [] ∧ t = s) ∨
    (s.phase = .idle ∧ ∃ u, (u = s.setCmd none ∨ ∃ rest, s.cmd = none ∧ u = s.setScript rest) ∧
      ((∃ i, exec i u = .next t ∧ i.wf u.cfg = true) ∨ t = faultEntry .illegalCommand u ∨
        (∃ b, t = u.setIn (Memory.ofBytes b) (BitVec.ofNat 32 b.length) ∧ b.length ≤ u.cfg.inCap.toNat ∧
          (BitVec.ofNat 32 b.length).toNat = b.length) ∨
        (∃ r, t = u.setReplies r) ∨ t = u.afterReset)) := by
  have hcmd : ∀ c u v, u.cmd = none → hostCmd c u = .next v →
      (∃ i, exec i u = .next v ∧ i.wf u.cfg = true) ∨ v = faultEntry .illegalCommand u := by
    intro c u v hu hv
    have hu' : u.setCmd none = u := by
      cases u; cases hu; rfl
    unfold hostCmd at hv
    rw [hu'] at hv
    cases hc : decodeCommand c with
    | none => rw [hc] at hv; cases hv; exact .inr rfl
    | some i =>
      rw [hc] at hv
      refine .inl ⟨i, hv, ?_⟩
      unfold decodeCommand at hc
      split at hc <;> cases hc <;> rfl
  have hload : ∀ b u v, hostLoad b u = .next v →
      ∃ b, v = u.setIn (Memory.ofBytes b) (BitVec.ofNat 32 b.length) ∧ b.length ≤ u.cfg.inCap.toNat ∧
        (BitVec.ofNat 32 b.length).toNat = b.length := by
    intro b u v hv
    rcases hostLoad_cases b u with ⟨h1, h2, h3⟩ | ⟨_, h2⟩
    · rw [h2] at hv; cases hv; exact ⟨b, rfl, h1, h3⟩
    · rw [h2] at hv; cases hv
  unfold step at h
  by_cases hp : s.phase = .idle
  · rw [if_pos hp] at h
    refine .inr ?_
    cases hc : s.cmd with
    | some c =>
      rw [hc] at h
      refine .inr ⟨hp, s.setCmd none, .inl rfl, ?_⟩
      have h' : hostCmd c (s.setCmd none) = .next t := h
      rcases hcmd c (s.setCmd none) t rfl h' with h1 | h1
      · exact .inl h1
      · exact .inr (.inl h1)
    | none =>
      rw [hc] at h
      cases hs : s.script with
      | nil => rw [hs] at h; cases h; exact .inl ⟨hp, rfl, rfl, rfl⟩
      | cons l rest =>
        rw [hs] at h
        refine .inr ⟨hp, s.setScript rest, .inr ⟨rest, rfl, rfl⟩, ?_⟩
        cases l with
        | load b => exact .inr (.inr (.inl (hload b _ _ h)))
        | cmd c =>
          rcases hcmd c (s.setScript rest) t hc h with h1 | h1
          · exact .inl h1
          · exact .inr (.inl h1)
        | status => cases h; exact .inr (.inr (.inr (.inl ⟨_, rfl⟩)))
        | result => cases h; exact .inr (.inr (.inr (.inl ⟨_, rfl⟩)))
        | reset => cases h; exact .inr (.inr (.inr (.inr rfl)))
        | loadResult =>
          simp only [performLine, hostLoadResult] at h
          cases hr : lastResult (s.setScript rest).replies with
          | none => rw [hr] at h; cases h
          | some b => rw [hr] at h; exact .inr (.inr (.inl (hload b _ _ h)))
        | op w =>
          simp only [performLine, performWord] at h
          cases hd : decodeWord w with
          | error c => rw [hd] at h; cases h
          | ok i =>
            rw [hd] at h
            simp only at h
            by_cases hw : i.wf (s.setScript rest).cfg = true
            · rw [if_pos hw] at h; exact .inl ⟨i, h, hw⟩
            · rw [if_neg hw] at h; cases h
  · rw [if_neg hp] at h
    cases h
    exact .inl ⟨hp, rfl⟩

theorem reset_memory_canonical : MemoryCanonical State.reset := by decide

/-- An invariant that the writes, the status, the model's own fields, a load and a reset keep is kept by every step. -/
theorem step_kept {P : State → Prop} (w : Writes (Kept P))
    (hst : ∀ s v, (v = statusOk ∨ ∃ f, v = statusErr f) → P s → P (s.setStatus v))
    (hret : ∀ s r, P s → P (s.setRet r)) (hcmd : ∀ s, P s → P (s.setCmd none)) (hscr : ∀ s l, P s → P (s.setScript l))
    (hrep : ∀ s l, P s → P (s.setReplies l)) (hreset : ∀ s, P s → P s.afterReset)
    (hin : ∀ s b, b.length ≤ s.cfg.inCap.toNat → (BitVec.ofNat 32 b.length).toNat = b.length → P s →
      P (s.setIn (Memory.ofBytes b) (BitVec.ofNat 32 b.length)))
    {s t : State} (h : step s = .next t) (hs : P s) : P t := by
  rcases step_cases h with ⟨_, rfl⟩ | ⟨_, _, _, rfl⟩ | ⟨_, u, hu, hc⟩
  · exact phaseStep_within w hst s hs
  · exact hs
  · have hu' : P u := by
      rcases hu with rfl | ⟨rest, _, rfl⟩
      · exact hcmd _ hs
      · exact hscr _ _ hs
    rcases hc with ⟨i, h1, _⟩ | rfl | ⟨b, rfl, h1, h2⟩ | ⟨r, rfl⟩ | rfl
    · obtain ⟨v, h2, h3⟩ := exec_within w hst hret i u
      rw [h1] at h2; cases h2
      exact h3 hu'
    · exact w.phase _ _ (hst _ _ (.inr ⟨_, rfl⟩) (w.outClear _ hu'))
    · exact hin _ _ h1 h2 hu'
    · exact hrep _ _ hu'
    · exact hreset _ hu'

end Sys2Proof.Machine
end

