-- ==== Sys2Proof/Tests/Slice0.lean ====
section
/-! SUPPORT. The model's own tests: the words of the encoding table written out bit by bit, ill-formed operations refused,
vectors of 95_test_vectors.md (named in each comment), and for every statement with hypotheses a state that meets them. -/

namespace Sys2Proof.Tests

open Sys2Proof Sys2Proof.Machine

/-! ### States -/

/-- Bytes from numbers. -/
def bytes (l : List Nat) : List Byte := l.map (BitVec.ofNat 8)

/-- A block of width `w` with the bytes loaded. -/
def loaded (w : Width) (l : List Nat) : State :=
  { State.reset with
    cfg := { defaultConfig with width := w }
    inMem := Memory.ofBytes (bytes l)
    inLen := BitVec.ofNat 32 l.length }

/-- The block after reset with room for `n` bytes in `OUT`. -/
def roomFor (n : Nat) : State := { State.reset with cfg := { defaultConfig with outCap := some n } }

/-- The next state, where there is one. -/
def next? : Host.Outcome State Fault Refusal → Option State
  | .next t => some t
  | _ => none

/-- Status word and result of an outcome. -/
def seen (o : Host.Outcome State Fault Refusal) : Option (BitVec 16 × List Byte) :=
  (next? o).map fun t => (t.status, t.result)

/-- An outcome's returned value. -/
def returned (o : Host.Outcome State Fault Refusal) : Option Ret := (next? o).map (·.ret)

/-- The final arena of vector T1 of 95_test_vectors.md. -/
def arenaT1 : List Node :=
  [{ parent := 0, val := some 0x10, left := some 1, right := some 2 },
   { parent := 0, val := some 0x20, left := some 3, right := some 5 },
   { parent := 0, val := some 0x30, left := some 4, right := some 6 },
   { parent := 1, val := some 0x40, left := none, right := none },
   { parent := 2, val := some 0x50, left := none, right := none },
   { parent := 1, val := some 0x60, left := none, right := none },
   { parent := 2, val := some 0x70, left := none, right := none }]

/-- A block holding the arena of vector T1. -/
def onT1 : State := State.reset.setNodes arenaT1

/-- The tree of `n + 1` inserted symbols, `0` to `n`. -/
def grown : Nat → List Node
  | 0 => [{ emptyRoot with val := some 0 }]
  | n + 1 => (insertNode (grown n) (BitVec.ofNat 32 (n + 1))).getD (grown n)

theorem grown_built (n : Nat) (h : n < 256) : ∃ xs : List Sym, xs.length = n + 1 ∧ Built (grown n) xs := by
  induction n with
  | zero => exact ⟨[0], rfl, (built_first 0).2⟩
  | succ n ih =>
    obtain ⟨xs, hl, hb⟩ := ih (by omega)
    obtain ⟨u, hu, hb'⟩ := built_insert hb (by rintro rfl; simp at hl) (by omega) (BitVec.ofNat 32 (n + 1))
    refine ⟨xs ++ [BitVec.ofNat 32 (n + 1)], by simp [hl], ?_⟩
    rw [grown, hu]; exact hb'

/-! ### Words written out from the table of 30_encoding.md R91 -/

theorem test_word_encode : decodeTableWord 8 0b00000001 = some .encode := by decide
theorem test_word_decode : decodeTableWord 8 0b00000010 = some .decode := by decide
theorem test_word_rleCollapse : decodeTableWord 8 0b00010000 = some .rleCollapse := by decide
theorem test_word_alphaFold : decodeTableWord 8 0b00011000 = some .alphaFold := by decide
theorem test_word_alphaSort : decodeTableWord 8 0b00011001 = some .alphaSort := by decide
theorem test_word_treeInit : decodeTableWord 8 0b00100000 = some .treeInit := by decide
theorem test_word_treeInsert : decodeTableWord 8 0b00100001 = some (.treeInsert 0) := by decide
theorem test_word_treeCount : decodeTableWord 8 0b00100010 = some (.treeCount none) := by decide
theorem test_word_treeHeight : decodeTableWord 8 0b00100011 = some (.treeHeight 0) := by decide
theorem test_word_treeDepth : decodeTableWord 8 0b00100100 = some (.treeDepth 0) := by decide
theorem test_word_treePathinfo : decodeTableWord 8 0b00101000 = some (.treePathinfo 0) := by decide
theorem test_word_treeFindvalue : decodeTableWord 8 0b00101001 = some .treeFindvalue := by decide
theorem test_word_bswInit : decodeTableWord 8 0b00110000 = some .bswInit := by decide
theorem test_word_bswWritebit : decodeTableWord 8 0b00110001 = some (.bswWritebit false) := by decide
theorem test_word_bswAdvance : decodeTableWord 8 0b00110010 = some .bswAdvance := by decide
theorem test_word_bswFlush : decodeTableWord 8 0b00110011 = some .bswFlush := by decide
theorem test_word_bsrInit : decodeTableWord 8 0b00111000 = some (.bsrInit 0) := by decide
theorem test_word_bsrReadbit : decodeTableWord 8 0b00111001 = some .bsrReadbit := by decide
theorem test_word_drvDepthbits : decodeTableWord 8 0b01000000 = some .drvDepthbits := by decide
theorem test_word_drvHdremit : decodeTableWord 8 0b01000001 = some .drvHdremit := by decide
theorem test_word_drvRecemit : decodeTableWord 8 0b01000010 = some .drvRecemit := by decide
theorem test_word_drvTrailemit : decodeTableWord 8 0b01000011 = some .drvTrailemit := by decide
theorem test_word_drvHdrparse : decodeTableWord 8 0b01001000 = some .drvHdrparse := by decide
theorem test_word_drvTrailread : decodeTableWord 8 0b01001001 = some .drvTrailread := by decide
theorem test_word_drvRecread : decodeTableWord 8 0b01001010 = some .drvRecread := by decide

/-- Operands come from their lines. -/
theorem test_word_operands :
    decodeWord { OpWord.ofCode 0b00100001 with sym := 0x41 } = .ok (.treeInsert 0x41) ∧
    decodeWord { OpWord.ofCode 0b00100010 with nodePresent := true, node := 3 } = .ok (.treeCount (some 3)) ∧
    decodeWord { OpWord.ofCode 0b00110001 with bit := true } = .ok (.bswWritebit true) ∧
    decodeWord { OpWord.ofCode 0b00111000 with base := 7 } = .ok (.bsrInit 7) := by decide

/-- Codes of no operation, and codes that are no commands (30_encoding.md R92; vectors H5 to H7). -/
theorem test_word_illegal :
    decodeTableWord 8 0x00 = none ∧ decodeTableWord 8 0x03 = none ∧ decodeTableWord 8 0x4B = none ∧
    decodeTableWord 8 0xFF = none ∧ decodeCommand 0x00 = none ∧ decodeCommand 0x21 = none ∧
    decodeCommand 0xFF = none := by decide

theorem test_opcodes_distinct : (opcodeTable.map (·.2)).Nodup ∧ opcodeTable.length = 25 := by decide

/-! ### Ill-formed operations -/

theorem test_wf_insert_wide : (Instr.treeInsert 0x100).wf { defaultConfig with width := .one } = false := by decide
theorem test_wf_pathinfo_wide : (Instr.treePathinfo 0x10000).wf { defaultConfig with width := .two } = false := by decide
theorem test_wf_count_wide : (Instr.treeCount (some 256)).wf defaultConfig = false := by decide
theorem test_wf_height_wide : (Instr.treeHeight 256).wf defaultConfig = false := by decide
theorem test_wf_depth_wide : (Instr.treeDepth 256).wf defaultConfig = false := by decide
theorem test_width_three : Width.ofBytes 3 = none := by decide

/-- The step refuses an operation whose operand does not fit its line. -/
theorem test_wf_step_refuses :
    (match step (State.reset.setScript [.op (encode (.treeInsert 0x100))]) with
      | .refused .operandTooWide => true
      | _ => false) = true := by decide

/-! ### Run-Length Collapser and Alphabet Builder -/

/-- Vectors R4 and R10. -/
theorem test_rle_runs :
    runsOf [1, 1, 2, 2, 2, 1] = [⟨1, 2⟩, ⟨2, 3⟩, ⟨1, 1⟩] ∧
    (next? (exec .rleCollapse (loaded .two [0x34, 0x12, 0x34, 0x12, 0x78, 0x56]))).map (·.runs) =
      some [⟨0x1234, 2⟩, ⟨0x5678, 1⟩] := by decide

/-- Vector R6. -/
theorem test_rle_cap : runsOf (List.replicate 256 7) = [⟨7, 255⟩, ⟨7, 1⟩] := by decide +kernel

/-- Vectors A3 and A4. -/
theorem test_fold :
    (next? (exec .alphaFold (State.reset.setRuns [⟨0x42, 1⟩, ⟨0x41, 2⟩, ⟨0x42, 1⟩]))).map (·.alpha) =
      some [⟨0x42, 2⟩, ⟨0x41, 2⟩] ∧
    (next? (exec .alphaFold (State.reset.setRuns [⟨0, 255⟩, ⟨0, 45⟩]))).map (·.alpha) = some [⟨0, 300⟩] := by decide

/-- Vectors A5 and A7. -/
theorem test_sort :
    (next? (exec .alphaSort (State.reset.setAlpha [⟨3, 1⟩, ⟨1, 2⟩, ⟨2, 2⟩, ⟨4, 1⟩]))).map (·.alpha) =
      some [⟨1, 2⟩, ⟨2, 2⟩, ⟨3, 1⟩, ⟨4, 1⟩] ∧
    (next? (exec .alphaSort (State.reset.setAlpha [⟨1, 2⟩, ⟨2, 2⟩, ⟨3, 2⟩, ⟨4, 3⟩]))).map (·.alpha) =
      some [⟨4, 3⟩, ⟨1, 2⟩, ⟨2, 2⟩, ⟨3, 2⟩] := by decide

/-! ### Balanced Path Tree and Path Codec -/

/-- Vector T2. -/
theorem test_tree_init : (next? (exec .treeInit onT1)).map (·.nodes) =
    some [{ parent := 0, val := none, left := none, right := none }] := by decide

/-- The arena of vector T1 before its last insert. -/
def arenaT1before : List Node := (arenaT1.take 6).modify 2 fun nd => { nd with right := none }

/-- Vector T1, the last insert. -/
theorem test_tree_insert :
    (next? (exec (.treeInsert 0x70) (State.reset.setNodes arenaT1before))).map (·.nodes) = some arenaT1 ∧
    (next? (exec (.treeInsert 0x10) State.reset)).map (·.nodes) =
      some [{ parent := 0, val := some 0x10, left := none, right := none }] := by decide +kernel

/-- Vector T1, the columns `COUNT`, `HEIGHT` and `DEPTH`. -/
theorem test_tree_measures :
    returned (exec (.treeCount (some 1)) onT1) = some (.nat 3) ∧ returned (exec (.treeCount none) onT1) = some (.nat 0) ∧
    returned (exec (.treeHeight 0) onT1) = some (.nat 2) ∧ returned (exec (.treeHeight 5) onT1) = some (.nat 0) ∧
    returned (exec (.treeDepth 6) onT1) = some (.nat 2) ∧ returned (exec (.treeDepth 0) onT1) = some (.nat 0) := by
  decide +kernel

/-- Vectors P5, P6 and P8. -/
theorem test_pathinfo :
    (next? (exec (.treePathinfo 0x50) onT1)).map (fun t => (t.piFound, t.piDepth, t.piPath)) =
      some (true, 2, [true, false]) ∧
    (next? (exec (.treePathinfo 0x60) onT1)).map (fun t => (t.piFound, t.piDepth, t.piPath)) =
      some (true, 2, [false, true]) ∧
    (next? (exec (.treePathinfo 0x99) onT1)).map (fun t => (t.piFound, t.piDepth, t.piPath)) = some (false, 0, []) := by
  decide +kernel

/-- Vectors F3 and F4. -/
theorem test_findvalue :
    returned (exec .treeFindvalue (onT1.setPath 2 [false, true])) = some (.sym 0x60) ∧
    (next? (exec .treeFindvalue (onT1.setPath 3 [false, false, false]))).map (·.status) = some 0x0302 := by decide +kernel

/-! ### Bit Stream Writer and Reader -/

/-- What `BSW.INIT` clears. -/
theorem test_writer_init :
    (next? (exec .bswInit (State.reset.setWriter 0x4D 7 9))).map (fun t => (t.wbyte, t.wcur, t.tbits)) =
      some (0, 0, 0) := by decide

/-- Vector B4. -/
theorem test_writebit :
    (next? (exec (.bswWritebit true) (State.reset.setWriter 1 0 0))).map (fun t => (t.wbyte, t.tbits)) = some (1, 0) ∧
    (next? (exec (.bswWritebit false) (State.reset.setWriter 1 0 0))).map (·.wbyte) = some 0 := by decide

/-- Vector B1, the seventh and the eighth bit. -/
theorem test_advance :
    (next? (exec .bswAdvance (State.reset.setWriter 0x4D 6 6))).map (fun t => (t.wbyte, t.wcur, t.tbits, t.result)) =
      some (0x4D, 7, 7, []) ∧
    (next? (exec .bswAdvance (State.reset.setWriter 0x4D 7 7))).map (fun t => (t.wbyte, t.wcur, t.tbits, t.result)) =
      some (0, 0, 8, [0x4D]) := by decide

/-- Vector B6. -/
theorem test_advance_overflow :
    (next? (exec .bswAdvance (State.reset.setWriter 0 0 0xFFFFFFFF))).map (·.status) = some 0x0602 := by decide

/-- Vectors B1 and B3. -/
theorem test_flush :
    (next? (exec .bswFlush (State.reset.setWriter 7 3 11))).map (fun t => (t.wbyte, t.wcur, t.tbits, t.result)) =
      some (0, 0, 11, [0x07]) ∧
    (next? (exec .bswFlush (State.reset.setWriter 0 0 0))).map (·.outLen) = some 0 := by decide

/-- `BSR.INIT` leaves `RTOTAL` alone. -/
theorem test_reader_init :
    (next? (exec (.bsrInit 2) ((State.reset.setRtotal 11).setReader 1 3 11))).map
      (fun t => (t.rbase, t.ridx, t.rcur, t.rbits, t.rtotal)) = some (2, 0, 0, 0, 11) := by decide

/-- The reader of vector B5, `base` 2, after `n` bits. -/
def reading (n : Nat) : State :=
  (((loaded .one [0xFF, 0xFF, 0x4D, 0x07]).setRtotal 11).setRbase 2).setReader (BitVec.ofNat 32 (n / 8))
    (BitVec.ofNat 3 (n % 8)) (BitVec.ofNat 32 n)

/-- Vector B5, the seventh, the eighth and the ninth bit. -/
theorem test_readbit :
    (next? (exec .bsrReadbit (reading 6))).map (fun t => (t.ret, t.ridx, t.rcur, t.rbits)) = some (.bit true, 0, 7, 7) ∧
    (next? (exec .bsrReadbit (reading 7))).map (fun t => (t.ret, t.ridx, t.rcur, t.rbits)) = some (.bit false, 1, 0, 8) ∧
    (next? (exec .bsrReadbit (reading 8))).map (fun t => (t.ret, t.ridx, t.rcur, t.rbits)) = some (.bit true, 1, 1, 9) := by
  decide

/-! ### Codec Driver -/

/-- Vector V1. -/
theorem test_depthbits :
    [0, 1, 2, 3, 4, 7, 8].map (fun h => (next? (exec .drvDepthbits (State.reset.setHeight h))).map (·.mdb)) =
      [some 1, some 1, some 2, some 2, some 3, some 3, some 4] := by decide

/-- Vector V3. -/
theorem test_hdremit :
    (next? (exec .drvHdremit (((loaded .two []).setMdb 1).setAlpha [⟨0x1234, 3⟩, ⟨0x5678, 1⟩]))).map (·.result) =
      some (bytes [0x01, 0x01, 0x34, 0x12, 0x78, 0x56]) := by decide +kernel

/-- Vector V6: bits `0 1 1 0`. -/
theorem test_recemit :
    (next? (exec .drvRecemit ((State.reset.setMdb 2).setPath 2 [true, false]))).map (fun t => (t.wbyte, t.tbits)) =
      some (0b0110, 4) := by decide +kernel

/-- Vectors V9 and V10. -/
theorem test_trailemit :
    (next? (exec .drvTrailemit (State.reset.setWriter 0 0 5))).map (·.result) = some (bytes [5, 0, 0, 0]) ∧
    (next? (exec .drvTrailemit (State.reset.setWriter 0 0 2570))).map (·.result) =
      some (bytes [0x0A, 0x0A, 0, 0]) := by decide +kernel

/-- Vectors D1 and D15. -/
theorem test_hdrparse :
    (next? (exec .drvHdrparse (loaded .one [1, 1, 0x41, 0x42, 8, 5, 0, 0, 0]))).map (fun t => (t.mdb, t.nsym, t.alpha)) =
      some (1, 2, [⟨0x41, 0⟩, ⟨0x42, 0⟩]) ∧
    (next? (exec .drvHdrparse (loaded .one [1, 1, 0x41, 0x42, 0, 0, 0]))).map (·.status) = some 0x0102 := by
  decide +kernel

/-- Vectors D1 and D17. -/
theorem test_trailread :
    (next? (exec .drvTrailread ((loaded .one [1, 1, 0x41, 0x42, 8, 5, 0, 0, 0]).setNsym 2))).map (·.rtotal) = some 5 ∧
    (next? (exec .drvTrailread ((loaded .one [1, 0, 0x41, 0, 9, 0, 0, 0]).setNsym 1))).map (·.status) =
      some 0x0102 := by decide +kernel

/-- The block before the fourth record of vector D1: bits `1 0`, depth 1, path left. -/
def beforeRecord : State :=
  (((((loaded .one [1, 1, 0x41, 0x42, 8, 5, 0, 0, 0]).setMdb 1).setRtotal 5).setRbase 4).setReader 0 3 3).setNodes
    [{ parent := 0, val := some 0x41, left := some 1, right := none },
     { parent := 0, val := some 0x42, left := none, right := none }]

/-- Vectors D1 and D20. -/
theorem test_recread :
    (next? (exec .drvRecread beforeRecord)).map (fun t => (t.result, t.rbits, t.piDepth, t.piPath)) =
      some (bytes [0x42], 5, 1, [false]) ∧
    (next? (exec .drvRecread (beforeRecord.setRtotal 4))).map (·.status) = some 0x0702 := by decide +kernel

/-! ### The commands -/

/-- Vectors E4 and E16. -/
theorem test_encode :
    seen (exec .encode (loaded .one [0x41, 0x42, 0x52, 0x41, 0x43, 0x41, 0x44, 0x41, 0x42, 0x52, 0x41])) =
      some (0x0001, bytes [2, 4, 0x41, 0x42, 0x52, 0x43, 0x44, 0xA4, 0x08, 0x46, 0x0A, 0x1E, 0, 0, 0]) ∧
    seen (exec .encode (loaded .two [0x34, 0x12, 0x34, 0x12, 0x78, 0x56])) =
      some (0x0001, bytes [1, 1, 0x34, 0x12, 0x78, 0x56, 4, 4, 0, 0, 0]) := by decide +kernel

/-- Vectors E21, E22 and E11. -/
theorem test_encode_more :
    seen (exec .encode (loaded .one [])) = some (0x0402, []) ∧
    seen (exec .encode (loaded .two [1, 2, 3])) = some (0x0502, []) ∧
    seen (exec .encode (loaded .one [1, 1, 2, 2, 3, 3, 4, 4, 4])) =
      some (0x0001, bytes [2, 3, 4, 1, 2, 3, 0x49, 0x2B, 2, 0, 0x1A, 0, 0, 0]) := by decide +kernel

/-- Vectors D3, D5, D7, D9 and D11. -/
theorem test_decode :
    seen (exec .decode (loaded .one [2, 4, 0x41, 0x42, 0x52, 0x43, 0x44, 0xA4, 0x08, 0x46, 0x0A, 0x1E, 0, 0, 0])) =
      some (0x0001, bytes [0x41, 0x42, 0x52, 0x41, 0x43, 0x41, 0x44, 0x41, 0x42, 0x52, 0x41]) ∧
    seen (exec .decode (loaded .four [1, 2, 0, 0, 0, 0, 1, 0, 0, 0, 0xFF, 0xFF, 0xFF, 0xFF, 0x32, 6, 0, 0, 0])) =
      some (0x0001, bytes [0, 0, 0, 0, 1, 0, 0, 0, 0, 0, 0, 0, 0xFF, 0xFF, 0xFF, 0xFF]) ∧
    seen (exec .decode (loaded .one [1, 1, 0x41, 0x42, 8, 0xAA, 0xBB, 5, 0, 0, 0])) =
      some (0x0001, bytes [0x41, 0x41, 0x41, 0x42]) ∧
    seen (exec .decode (loaded .one [3, 1, 0x41, 0x42, 8, 7, 0, 0, 0])) = some (0x0001, bytes [0x41, 0x42]) ∧
    seen (exec .decode (loaded .one [1, 1, 0x41, 0x41, 2, 3, 0, 0, 0])) = some (0x0001, bytes [0x41, 0x41]) := by
  decide +kernel

/-- Vectors D16, D18, D19, D21 and D22. -/
theorem test_decode_faults :
    seen (exec .decode (loaded .one [1, 1, 0x41, 0x42, 8, 5, 0, 0])) = some (0x0102, []) ∧
    seen (exec .decode (loaded .one [0, 0, 0x41, 0, 1, 0, 0, 0])) = some (0x0802, []) ∧
    seen (exec .decode (loaded .one [1, 1, 0x41, 0x42, 3, 2, 0, 0, 0])) = some (0x0302, []) ∧
    seen (exec .decode (loaded .one [2, 0, 0x41, 0, 1, 0, 0, 0])) = some (0x0702, []) ∧
    seen (exec .decode (loaded .one [4, 0, 0x41, 0x0F, 4, 0, 0, 0])) = some (0x0702, []) := by decide +kernel

/-! ### The host -/

/-- One step that performs the command `c` on the byte 41 (vectors H5 and H6). -/
theorem test_illegal_command :
    seen (step ((loaded .one [0x41]).setScript [.cmd 0x00])) = some (0x0A02, []) ∧
    seen (step ((loaded .one [0x41]).setScript [.cmd 0x21])) = some (0x0A02, []) := by decide

/-- The word of each command and of a micro-operation, placed where the step fetches, is performed first after reset. -/
theorem test_fetch :
    seen (step (State.reset.withFetchWord 8 0x01)) = some (0x0402, []) ∧
    seen (step (State.reset.withFetchWord 8 0x02)) = some (0x0102, []) ∧
    (next? (step ((State.reset.setAlpha [⟨1, 0⟩, ⟨2, 1⟩]).withFetchWord 8 0x19))).map (·.alpha) =
      some [⟨2, 1⟩, ⟨1, 0⟩] := by decide

/-- The first phase of a command, on its own (10_state.md R40). -/
theorem test_phase :
    (next? (step ((loaded .one [0x41]).setPhase .eRle))).map (fun t => (t.runs, t.phase.code)) =
      some ([⟨0x41, 1⟩], 0x12) := by decide

/-! ### States that meet the hypotheses of the statements -/

/-- A waiting block with the script `l`. -/
def waiting (l : List Line) : State := State.reset.setScript l

theorem witness_StepRunsTheDecodedOperation :
    (waiting [.op (encode (.treeInsert 0xFF))]).phase = .idle ∧ (waiting [.op (encode (.treeInsert 0xFF))]).cmd = none ∧
    (waiting [.op (encode (.treeInsert 0xFF))]).script = .op (encode (.treeInsert 0xFF)) :: [] ∧
    decodeWord (encode (.treeInsert 0xFF)) = .ok (.treeInsert 0xFF) ∧
    (Instr.treeInsert 0xFF).wf (waiting [.op (encode (.treeInsert 0xFF))]).cfg = true := by decide

theorem witness_HostCmdPerformsTheWholeCommand :
    (∀ c ∈ ([0x00, 0x01, 0x02, 0x03] : List Byte), (waiting [.cmd c]).phase = .idle ∧ (waiting [.cmd c]).cmd = none ∧
      (waiting [.cmd c]).script = .cmd c :: []) ∧
    (∀ c ∈ ([0x00, 0x01, 0x02, 0x03] : List Byte), (State.reset.setCmd (some c)).phase = .idle ∧
      (State.reset.setCmd (some c)).cmd = some c) ∧
    (0x00 : Byte) ≠ 0x01 ∧ (0x00 : Byte) ≠ 0x02 ∧ (0x03 : Byte) ≠ 0x01 ∧ (0x03 : Byte) ≠ 0x02 := by decide

/-- A block whose `IN` holds two bytes at most, before a load of `n` bytes. -/
def smallIn (n : Nat) : State :=
  { State.reset with cfg := { defaultConfig with inCap := 2 }, script := [.load (List.replicate n 0x41)] }

theorem witness_HostLoadReplacesInAndItsLength :
    (∀ n ∈ [2, 3], (smallIn n).phase = .idle ∧ (smallIn n).cmd = none ∧
      (smallIn n).script = .load (List.replicate n 0x41) :: []) ∧
    (List.replicate 2 (0x41 : Byte)).length ≤ (smallIn 2).cfg.inCap.toNat ∧
    (smallIn 3).cfg.inCap.toNat < (List.replicate 3 (0x41 : Byte)).length := by decide

/-- The block of `smallIn` before a LOADRESULT, the given replies having been returned, newest first. -/
def beforeLoadResult (l : List Reply) : State := ((smallIn 0).setScript [.loadResult]).setReplies l

theorem witness_LoadResult :
    let l : List Reply := [.status 1 0, .result [1, 2], .result [3]]
    let tooLong : List Reply := [.result [1, 2, 3]]
    (beforeLoadResult l).phase = .idle ∧ (beforeLoadResult l).cmd = none ∧
    (beforeLoadResult l).script = .loadResult :: [] ∧
    (beforeLoadResult l).replies = [.status 1 0] ++ .result [1, 2] :: [.result [3]] ∧
    (([1, 2] : List Byte).length ≤ (beforeLoadResult l).cfg.inCap.toNat) ∧
    (beforeLoadResult tooLong).replies = [] ++ .result [1, 2, 3] :: [] ∧
    (beforeLoadResult tooLong).cfg.inCap.toNat < ([1, 2, 3] : List Byte).length ∧
    (∀ r ∈ (beforeLoadResult [.status 1 0]).replies, ∀ c, r ≠ .result c) := by
  refine ⟨rfl, rfl, rfl, rfl, by decide, rfl, by decide, ?_⟩
  intro r hr c h
  have : r = .status 1 0 := by simpa [beforeLoadResult] using hr
  rw [this] at h
  cases h

/-- LOADRESULT loads the newest result, and is refused where there is none (30_encoding.md R112 d). -/
theorem test_load_result :
    (next? (step (beforeLoadResult [.status 1 0, .result [1, 2], .result [3]]))).map (fun t => t.inMem.bytes 0 2) =
      some [1, 2] ∧
    next? (step (beforeLoadResult [.status 1 0])) = none := by decide

theorem witness_StatusAndResultAreReadOut :
    (waiting [.status]).phase = .idle ∧ (waiting [.status]).cmd = none ∧ (waiting [.status]).script = .status :: [] ∧
    (waiting [.result]).phase = .idle ∧ (waiting [.result]).cmd = none ∧ (waiting [.result]).script = .result :: [] := by
  decide

theorem witness_ResetEmptiesTheBlock :
    (waiting [.reset, .status]).phase = .idle ∧ (waiting [.reset, .status]).cmd = none ∧
    (waiting [.reset, .status]).script = .reset :: [.status] := by decide

theorem witness_IdleBlockWaits :
    State.reset.phase = .idle ∧ State.reset.cmd = none ∧ State.reset.script = [] := by decide

theorem witness_MemReadIsLittleEndianInsideIn :
    2 + 2 ≤ (loaded .one [1, 2, 3, 4]).inLen.toNat ∧ (loaded .one [1, 2, 3, 4]).inLen.toNat < 3 + 2 := by decide

theorem witness_OutAppendStoresLittleEndian :
    (roomFor 4).cfg.outFits ((roomFor 4).outLen + 4) = true ∧ (roomFor 4).outMem.wf = true ∧
    (roomFor 4).cfg.outFits ((roomFor 4).outLen + 5) = false := by decide

theorem witness_RawBufferSymbolsAreLittleEndian :
    0 < (loaded .two [0x34, 0x12, 0x78]).inSymbols.length := by decide

theorem witness_RleCollapseMakesMinimalRuns :
    let r := runsOf (List.replicate 256 7)
    r[0]? = some ⟨7, 255⟩ ∧ r[0 + 1]? = some ⟨7, 1⟩ ∧ (⟨7, 255⟩ : Run).sym = (⟨7, 1⟩ : Run).sym := by decide +kernel

theorem witness_EqualSymbolsSplitAtTheCountCap :
    (loaded .one [7, 7, 7]).inSymbols = List.replicate 3 7 ∧ (loaded .one []).inSymbols = List.replicate 0 7 := by decide

/-- `n` runs of pairwise different symbols. -/
def differentRuns (n : Nat) : State := State.reset.setRuns ((List.range n).map fun k => ⟨BitVec.ofNat 32 k, 1⟩)

theorem eraseDups_different (n : Nat) (h : n ≤ 2 ^ 32) :
    ((List.range n).map (BitVec.ofNat 32)).eraseDups = (List.range n).map (BitVec.ofNat 32) := by
  refine eraseDups_of_nodup _ ((List.nodup_map_iff_inj_on List.nodup_range).mpr fun a ha b hb e => ?_)
  have := congrArg BitVec.toNat e
  rw [BitVec.toNat_ofNat, BitVec.toNat_ofNat] at this
  have := List.mem_range.mp ha
  have := List.mem_range.mp hb
  omega

theorem witness_AlphaFoldSumsTheCounts :
    ((differentRuns 256).runs.map (·.sym)).eraseDups.length ≤ 256 ∧
    256 < ((differentRuns 257).runs.map (·.sym)).eraseDups.length := by
  have e : ∀ n, (differentRuns n).runs.map (·.sym) = (List.range n).map (BitVec.ofNat 32) := fun n => by
    simp [differentRuns, Function.comp_def]
  rw [e, e, eraseDups_different _ (by decide), eraseDups_different _ (by decide)]
  simp

theorem witness_InitAndFirstInsertFillTheRoot :
    State.reset.nodes = emptyRoot :: [] ∧ emptyRoot.val = none := by decide

theorem witness_LaterInsertAddsALeafWhereItDescends :
    TreeOk onT1.nodes ∧ (onT1.nodes[0]?).all (·.val != none) = true ∧ onT1.nodes.length < 256 := by decide +kernel

theorem witness_LaterInsertIntoAFullTree :
    TreeOk (grown 255) ∧ ((grown 255)[0]?).bind (·.val) ≠ none ∧ (grown 255).length = 256 := by
  obtain ⟨xs, hl, hb⟩ := grown_built 255 (by decide)
  refine ⟨hb.ok, ?_, by rw [hb.size, hl]⟩
  rw [hb.val 0 (by omega), List.getElem?_eq_getElem (by omega)]
  simp

theorem witness_TreeMeasures :
    TreeOk onT1.nodes ∧ onT1.nodes[0]? = some { parent := 0, val := some 0x10, left := some 1, right := some 2 } ∧
    onT1.nodes[6]? = some { parent := 2, val := some 0x70, left := none, right := none } ∧
    TreeOk arenaT1before ∧
    arenaT1before[2]? = some { parent := 0, val := some 0x30, left := some 4, right := none } := by decide +kernel

theorem witness_BuiltTrees :
    1 ≤ (List.replicate 1 (7 : Sym)).length ∧ (List.replicate 1 (7 : Sym)).length ≤ 256 ∧
    1 ≤ (List.replicate 256 (7 : Sym)).length ∧ (List.replicate 256 (7 : Sym)).length ≤ 256 := by
  simp only [List.length_replicate]; decide

theorem witness_Pathinfo :
    TreeOk onT1.nodes ∧ DistinctSymbols onT1.nodes ∧
    onT1.nodes[4]? = some { parent := 2, val := some 0x50, left := none, right := none } ∧
    TreeOk onT1.nodes ∧ (∀ nd ∈ onT1.nodes, nd.val ≠ some 0x99) := by decide +kernel

theorem witness_FindvalueWalksThePath :
    follow onT1.nodes 0 (pathField [true, false] 2) = some 4 ∧ (onT1.nodes[4]?).bind (·.val) = some 0x50 ∧
    follow onT1.nodes 0 (pathField [false, false, false] 3) = none ∧
    follow State.reset.nodes 0 (pathField [] 0) = some 0 ∧ State.reset.nodes[0]? = some emptyRoot := by decide +kernel

theorem witness_PathinfoInvertsFindvalue :
    TreeOk onT1.nodes ∧ DistinctSymbols onT1.nodes ∧
    follow (onT1.setPath 2 [true, false]).nodes 0 (pathField (onT1.setPath 2 [true, false]).piPath
      (onT1.setPath 2 [true, false]).piDepth) = some 4 ∧ (onT1.nodes[4]?).bind (·.val) = some 0x50 := by decide +kernel

theorem witness_WritebitSetsTheBitAtTheCursor : (3 : Nat) < 8 ∧ 3 ≠ (State.reset.setWriter 0x4D 7 7).wcur.toNat := by decide

theorem witness_AdvanceCountsAndFlushesFullBytes :
    (State.reset.setWriter 0 0 0xFFFFFFFF).tbits.toNat = 2 ^ 32 - 1 ∧
    (State.reset.setWriter 0 6 0xFFFFFFFE).tbits.toNat ≠ 2 ^ 32 - 1 ∧
    (State.reset.setWriter 0 6 0xFFFFFFFE).wcur.toNat ≠ 7 ∧
    ((roomFor 1).setWriter 0x4D 7 7).tbits.toNat ≠ 2 ^ 32 - 1 ∧ ((roomFor 1).setWriter 0x4D 7 7).wcur.toNat = 7 ∧
    ((roomFor 1).setWriter 0x4D 7 7).cfg.outFits (((roomFor 1).setWriter 0x4D 7 7).outLen + 1) = true ∧
    ((roomFor 0).setWriter 0x4D 7 7).cfg.outFits (((roomFor 0).setWriter 0x4D 7 7).outLen + 1) = false := by decide

theorem witness_FlushAppendsAPartialByte :
    (State.reset.setWriter 0 0 8).wcur = 0 ∧ ((roomFor 1).setWriter 1 1 9).wcur ≠ 0 ∧
    ((roomFor 1).setWriter 1 1 9).cfg.outFits (((roomFor 1).setWriter 1 1 9).outLen + 1) = true ∧
    ((roomFor 0).setWriter 1 1 9).cfg.outFits (((roomFor 0).setWriter 1 1 9).outLen + 1) = false := by decide

theorem witness_PutsPackBitsLeastSignificantFirst :
    [true, false, true].length < 2 ^ 32 ∧ (roomFor 0).outMem.wf = true ∧
    (roomFor 0).cfg.outFits ((roomFor 0).outLen + [true, false, true].length / 8) = true := by decide

theorem witness_ReadbitReturnsTheNextStreamBit :
    (reading 10).rbits.toNat < (reading 10).rtotal.toNat ∧ ReaderPlaced (reading 10) ∧
    (reading 10).rbase.toNat + (reading 10).rbits.toNat / 8 < (reading 10).inLen.toNat ∧
    (reading 11).rtotal.toNat ≤ (reading 11).rbits.toNat := by decide

theorem witness_ReaderMirrorsWriter :
    [true].length < 2 ^ 32 ∧ (roomFor 1).outMem.wf = true ∧
    (roomFor 1).cfg.outFits ((roomFor 1).outLen + ceilDiv8 [true].length) = true ∧
    (2 : BitVec 32).toNat + ceilDiv8 [true].length ≤ (reading 0).inLen.toNat ∧
    [true].length ≤ (reading 0).rtotal.toNat := by decide

theorem witness_DepthbitsIsTheLeastWidth :
    (State.reset.setHeight 8).height < 2 ^ 255 ∧ 1 ≤ 4 ∧ (State.reset.setHeight 8).height ≤ 2 ^ 4 - 1 := by decide

/-- A block with an alphabet of `n` letters and room for `room` bytes. -/
def withLetters (n room : Nat) : State :=
  (roomFor room).setAlpha ((List.range n).map fun k => ⟨BitVec.ofNat 32 k, 1⟩)

theorem witness_HdremitWritesTheHeader :
    1 ≤ (withLetters 1 3).alpha.length ∧ (withLetters 256 258).alpha.length ≤ 256 ∧ (withLetters 256 258).outMem.wf = true ∧
    (withLetters 256 258).cfg.outFits ((withLetters 256 258).outLen + 2 + (withLetters 256 258).alpha.length *
      (withLetters 256 258).cfg.w) = true ∧
    (withLetters 256 257).cfg.outFits ((withLetters 256 257).outLen + 2 + (withLetters 256 257).alpha.length *
      (withLetters 256 257).cfg.w) = false := by decide +kernel

theorem witness_RecemitPutsOneRecord :
    let s := ((roomFor 0).setMdb 2).setPath 2 [true, false]
    s.tbits.toNat + s.mdb.toNat + s.piDepth < 2 ^ 32 ∧
    s.cfg.outFits (s.outLen + (s.wcur.toNat + s.mdb.toNat + s.piDepth) / 8) = true := by decide

theorem witness_TrailemitAppendsTheCount :
    (roomFor 4).outMem.wf = true ∧ (roomFor 4).cfg.outFits ((roomFor 4).outLen + 4) = true ∧
    (roomFor 3).cfg.outFits ((roomFor 3).outLen + 4) = false := by decide

theorem witness_HdrparseReadsTheHeader :
    (loaded .one [1]).inLen.toNat < 2 ∧ 2 ≤ (loaded .one [1, 1]).inLen.toNat ∧
    (loaded .one [1, 1, 0x41, 0x42, 0, 0, 0]).inLen.toNat <
      2 + (((loaded .one [1, 1, 0x41, 0x42, 0, 0, 0]).inMem.read 1).toNat + 1) * defaultConfig.w + 4 ∧
    2 + (((loaded .one [1, 1, 0x41, 0x42, 0, 0, 0, 0]).inMem.read 1).toNat + 1) * defaultConfig.w + 4 ≤
      (loaded .one [1, 1, 0x41, 0x42, 0, 0, 0, 0]).inLen.toNat := by decide

theorem witness_TrailreadReadsTheCountFromTheTail :
    let s := (loaded .one [1, 0, 0x41, 0, 8, 0, 0, 0]).setNsym 1
    let u := (loaded .one [1, 0, 0x41, 0, 9, 0, 0, 0]).setNsym 1
    4 ≤ s.inLen.toNat ∧ (8 : BitVec 32).toNat = leValue s.inMem (s.inLen.toNat - 4) 4 ∧
    2 + s.nsym.toNat * s.cfg.w + ((8 : BitVec 32).toNat + 7) / 8 + 4 ≤ s.inLen.toNat ∧
    (9 : BitVec 32).toNat = leValue u.inMem (u.inLen.toNat - 4) 4 ∧
    u.inLen.toNat < 2 + u.nsym.toNat * u.cfg.w + ((9 : BitVec 32).toNat + 7) / 8 + 4 := by decide +kernel

theorem witness_RecreadReadsOneRecord :
    ReaderPlaced beforeRecord ∧
    beforeRecord.rbase.toNat + ceilDiv8 beforeRecord.rtotal.toNat ≤ beforeRecord.inLen.toNat ∧
    1 = bitsToNat (streamBits beforeRecord.inMem beforeRecord.rbase.toNat beforeRecord.rbits.toNat
      beforeRecord.mdb.toNat) ∧
    beforeRecord.rbits.toNat + beforeRecord.mdb.toNat + 1 ≤ beforeRecord.rtotal.toNat ∧
    [false] = streamBits beforeRecord.inMem beforeRecord.rbase.toNat
      (beforeRecord.rbits.toNat + beforeRecord.mdb.toNat) 1 ∧
    follow beforeRecord.nodes 0 [false] = some 1 ∧ (beforeRecord.nodes[1]?).bind (·.val) = some 0x42 ∧
    beforeRecord.outMem.wf = true ∧ beforeRecord.cfg.outFits (beforeRecord.outLen + beforeRecord.cfg.w) = true := by
  decide +kernel

theorem witness_RecreadFaultsInOrder :
    (beforeRecord.setRtotal 3).rtotal.toNat < beforeRecord.rbits.toNat + beforeRecord.mdb.toNat ∧
    ReaderPlaced (beforeRecord.setRtotal 4) ∧
    (beforeRecord.setRtotal 4).rbase.toNat + ceilDiv8 (beforeRecord.setRtotal 4).rtotal.toNat ≤
      (beforeRecord.setRtotal 4).inLen.toNat ∧
    beforeRecord.rbits.toNat + beforeRecord.mdb.toNat ≤ (beforeRecord.setRtotal 4).rtotal.toNat ∧
    (beforeRecord.setRtotal 4).rtotal.toNat < beforeRecord.rbits.toNat + beforeRecord.mdb.toNat + 1 ∧
    beforeRecord.rbits.toNat + beforeRecord.mdb.toNat + 1 ≤ beforeRecord.rtotal.toNat ∧
    TreeOk (beforeRecord.setNodes [{ emptyRoot with val := some 0x41 }]).nodes ∧
    follow (beforeRecord.setNodes [{ emptyRoot with val := some 0x41 }]).nodes 0 (streamBits beforeRecord.inMem
      beforeRecord.rbase.toNat (beforeRecord.rbits.toNat + beforeRecord.mdb.toNat) 1) = none := by decide +kernel

/-- The block of `beforeRecord` at the first bit of its stream, a record of depth 0, with an empty tree. -/
def beforeEmptyTree : State := (beforeRecord.setReader 0 0 0).setNodes [emptyRoot]

/-- The block of `beforeRecord` with no room in `OUT` (vector H10). -/
def recordWithoutRoom : State := { beforeRecord with cfg := { defaultConfig with outCap := some 0 } }

theorem witness_RecreadFaultsInOrder_last :
    (let s := beforeEmptyTree
     let p := streamBits s.inMem s.rbase.toNat (s.rbits.toNat + s.mdb.toNat) 0
     0 = bitsToNat (streamBits s.inMem s.rbase.toNat s.rbits.toNat s.mdb.toNat) ∧ ReaderPlaced s ∧
       s.rbase.toNat + ceilDiv8 s.rtotal.toNat ≤ s.inLen.toNat ∧ s.rbits.toNat + s.mdb.toNat + 0 ≤ s.rtotal.toNat ∧
       TreeOk s.nodes ∧ follow s.nodes 0 p = some 0 ∧ (s.nodes[0]?).bind (·.val) = none) ∧
    (let s := recordWithoutRoom
     let p := streamBits s.inMem s.rbase.toNat (s.rbits.toNat + s.mdb.toNat) 1
     1 = bitsToNat (streamBits s.inMem s.rbase.toNat s.rbits.toNat s.mdb.toNat) ∧ ReaderPlaced s ∧
       s.rbase.toNat + ceilDiv8 s.rtotal.toNat ≤ s.inLen.toNat ∧ s.rbits.toNat + s.mdb.toNat + 1 ≤ s.rtotal.toNat ∧
       TreeOk s.nodes ∧ follow s.nodes 0 p = some 1 ∧ (s.nodes[1]?).bind (·.val) = some 0x42 ∧
       s.cfg.outFits (s.outLen + s.cfg.w) = false) := by decide +kernel

/-- The block of vector E1, with room for `n` bytes. -/
def beforeEncode (n : Nat) : State :=
  { loaded .one [0x41, 0x41, 0x41, 0x42] with cfg := { defaultConfig with outCap := some n } }

theorem witness_EncodeProducesTheWireFormat :
    (beforeEncode 9).inLen.toNat ≠ 0 ∧ (beforeEncode 9).inLen.toNat % (beforeEncode 9).cfg.w = 0 ∧
    (beforeEncode 9).inSymbols = [0x41, 0x41, 0x41, 0x42] ∧
    ([0x41, 0x42] : List Sym) = ([0x41, 0x41, 0x41, 0x42] : List Sym).eraseDups ∧
    ([0x41, 0x42] : List Sym).Pairwise (fun x y =>
      ([0x41, 0x41, 0x41, 0x42] : List Sym).count y < ([0x41, 0x41, 0x41, 0x42] : List Sym).count x) ∧
    ([0x41, 0x42] : List Sym).length ≤ 256 ∧ (streamOf [0x41, 0x42] [0x41, 0x41, 0x41, 0x42]).length < 2 ^ 32 ∧
    (beforeEncode 9).cfg.outFits (encodedBuffer 1 [0x41, 0x42] [0x41, 0x41, 0x41, 0x42]).length = true ∧
    (beforeEncode 8).cfg.outFits (encodedBuffer 1 [0x41, 0x42] [0x41, 0x41, 0x41, 0x42]).length = false ∧
    (beforeEncode 9).outMem.wf = true := by decide +kernel

theorem witness_EncodeRejectsBadInput :
    (loaded .two []).inLen.toNat = 0 ∧ (loaded .two [1]).inLen.toNat ≠ 0 ∧
    (loaded .two [1]).inLen.toNat % (loaded .two [1]).cfg.w ≠ 0 := by decide

/-- Byte `j` of vector E23. -/
def byteE23 (j : Nat) : Byte := BitVec.ofNat 8 (if j % 2 = 0 then j / 2 else j / 512)

/-- A block of two bytes per symbol with 514 bytes loaded. -/
def twoByteBlock (m : Memory) : State :=
  { State.reset with
    cfg := { defaultConfig with width := .two }
    inMem := m
    inLen := 514 }

/-- The block of vector E23: the symbols 0 to 256 once each, two bytes per symbol. -/
def tooManySymbols : State := twoByteBlock (Memory.ofBytes ((List.range 514).map byteE23))

theorem tooManySymbols_inMem : tooManySymbols.inMem = Memory.ofBytes ((List.range 514).map byteE23) := by
  have h : ∀ m, (twoByteBlock m).inMem = m := fun _ => rfl
  rw [tooManySymbols, h]

theorem tooManySymbols_inSymbols : tooManySymbols.inSymbols = (List.range 257).map (BitVec.ofNat 32) := by
  have hl : tooManySymbols.inSymbols.length = 257 := by rw [inSymbols_length]; decide
  have hr : ∀ j < 514, tooManySymbols.inMem.read j = byteE23 j := by
    intro j hj
    have h : (tooManySymbols.inMem.bytes 0 514)[j]? = some (byteE23 j) := by
      have e := bytes_ofBytes ((List.range 514).map byteE23)
      simp only [List.length_map, List.length_range] at e
      rw [tooManySymbols_inMem, e]
      simp [hj]
    rw [bytes_getElem? _ hj] at h
    simpa using h
  refine List.ext_getElem (by simp [hl]) fun j h1 h2 => ?_
  have hj : j < 257 := by omega
  have h3 := inSymbols_getElem? tooManySymbols (j := j) (by rw [← inSymbols_length, hl]; exact hj)
  rw [List.getElem?_eq_getElem h1] at h3
  rw [Option.some.inj h3, List.getElem_map, List.getElem_range]
  apply BitVec.eq_of_toNat_eq
  rw [symAt_toNat, show tooManySymbols.cfg.w = 2 from rfl]
  simp only [Memory.load]
  rw [hr _ (by omega), hr _ (by omega)]
  simp only [byteE23, BitVec.toNat_ofNat]
  rw [if_pos (by omega), if_neg (by omega)]
  omega

theorem witness_EncodeRejectsTooManySymbols :
    tooManySymbols.inLen.toNat ≠ 0 ∧ tooManySymbols.inLen.toNat % tooManySymbols.cfg.w = 0 ∧
    256 < tooManySymbols.inSymbols.eraseDups.length := by
  rw [tooManySymbols_inSymbols, eraseDups_different _ (by decide)]
  refine ⟨by decide, by decide, ?_⟩
  simp

/-- A block with room for `cap` bytes whose `IN` holds `n` bytes, the first 1 and the others 0. -/
def oneThenZeros (n : BitVec 32) (cap : Option Nat) : State :=
  { State.reset with cfg := { defaultConfig with outCap := cap }, inMem := [(0, 1)], inLen := n }

theorem oneThenZeros_inSymbols (n : BitVec 32) (cap : Option Nat) (h : n ≠ 0) :
    (oneThenZeros n cap).inSymbols = 1 :: List.replicate (n.toNat - 1) 0 := by
  have hat : ∀ i, (oneThenZeros n cap).symAt i = if i = 0 then 1 else 0 := by
    intro i
    apply BitVec.eq_of_toNat_eq
    rw [symAt_toNat, show (oneThenZeros n cap).cfg.w = 1 from rfl]
    simp only [Memory.load, Nat.mul_one, Nat.mul_zero, Nat.add_zero]
    rw [show (oneThenZeros n cap).inMem = [(0, 1)] from rfl, read_cons, read_nil]
    by_cases hi : i = 0
    · simp [hi]
    · rw [if_neg (Ne.symm hi), if_neg hi]; rfl
  have hz : ∀ k i, 1 ≤ i → (oneThenZeros n cap).symsFrom i k = List.replicate k 0 := by
    intro k
    induction k with
    | zero => intro i _; rfl
    | succ k ih =>
      intro i hi
      rw [State.symsFrom, ih (i + 1) (by omega), hat, if_neg (by omega), List.replicate_succ]
  have hn : n.toNat ≠ 0 := fun h0 => h (BitVec.eq_of_toNat_eq h0)
  have hc : (oneThenZeros n cap).symCount = (n.toNat - 1) + 1 := by
    rw [State.symCount, show (oneThenZeros n cap).cfg.w = 1 from rfl, Nat.div_one]
    change n.toNat = _
    omega
  rw [State.inSymbols, hc, State.symsFrom, hz _ _ (by omega), hat, if_pos rfl]

theorem oneThenZeros_alphabet (m : Nat) (h : 2 ≤ m) : IsAlphabet (1 :: List.replicate m 0) [0, 1] := by
  obtain ⟨k, rfl⟩ : ∃ k, m = k + 1 := ⟨m - 1, by omega⟩
  have h1 : (1 : Sym) ≠ 0 := by decide
  refine ⟨?_, ?_⟩
  · have e : ((1 : Sym) :: List.replicate (k + 1) 0).eraseDups = [1, 0] := by
      rw [List.eraseDups_cons, List.filter_eq_self.mpr, List.replicate_succ, List.eraseDups_cons]
      · simp
      · intro a ha
        rw [List.eq_of_mem_replicate ha]; decide
    rw [e]
    exact List.Perm.swap _ _ _
  · rw [List.pairwise_pair]
    refine .inl ?_
    rw [List.count_cons, List.count_cons, List.count_replicate, List.count_replicate]
    simp
    omega

theorem oneThenZeros_stream (m : Nat) : (streamOf [0, 1] (1 :: List.replicate m 0)).length = m + 2 := by
  have h0 : (rankRecord (depthWidth 2) (([0, 1] : List Sym).idxOf 0)).length = 1 := by decide
  have h1 : (rankRecord (depthWidth 2) (([0, 1] : List Sym).idxOf 1)).length = 2 := by decide
  have key : ∀ m, ((List.replicate m (0 : Sym)).flatMap fun x =>
      rankRecord (depthWidth 2) (([0, 1] : List Sym).idxOf x)).length = m := by
    intro m
    induction m with
    | zero => rfl
    | succ m ih => rw [List.replicate_succ, List.flatMap_cons, List.length_append, ih, h0]; omega
  change ((1 :: List.replicate m (0 : Sym)).flatMap fun x =>
    rankRecord (depthWidth 2) (([0, 1] : List Sym).idxOf x)).length = _
  rw [List.flatMap_cons, List.length_append, key, h1]
  omega

/-- An input of `2^32 − 1` symbols whose records have `2^32` bits, with an unbounded `OUT` and with one of 100 bytes. -/
theorem witness_EncodeOverflowsTheCount : ∀ cap ∈ ([none, some 100] : List (Option Nat)),
    let s := oneThenZeros 0xFFFFFFFF cap
    s.inLen.toNat ≠ 0 ∧ s.inLen.toNat % s.cfg.w = 0 ∧ IsAlphabet s.inSymbols [0, 1] ∧
    ([0, 1] : List Sym).length ≤ 256 ∧ 2 ^ 32 ≤ (streamOf [0, 1] s.inSymbols).length ∧
    s.cfg.outFits (2 + ([0, 1] : List Sym).length * s.cfg.w + (2 ^ 32 - 1) / 8) = cap.isNone := by
  intro cap hcap
  have hs := oneThenZeros_inSymbols 0xFFFFFFFF cap (by decide)
  rw [show (0xFFFFFFFF : BitVec 32).toNat - 1 = 4294967294 by decide] at hs
  refine ⟨by change (0xFFFFFFFF : BitVec 32).toNat ≠ 0; decide, ?_, ?_, by decide, ?_, ?_⟩
  · change (0xFFFFFFFF : BitVec 32).toNat % 1 = 0
    exact Nat.mod_one _
  · rw [hs]; exact oneThenZeros_alphabet _ (by omega)
  · rw [hs, oneThenZeros_stream]; omega
  · rcases List.mem_cons.mp hcap with rfl | h
    · rfl
    · rw [List.mem_singleton.mp h]
      simp [oneThenZeros, Config.outFits]

theorem witness_OneByteAlphabetsNeverOverflow :
    (loaded .one [0x41]).cfg.width = .one ∧ (next? (exec .encode (loaded .one [0x41]))).isSome = true := by
  decide +kernel

/-- The block of vector D8: padding bits set. -/
def beforeDecode : State := loaded .one [1, 1, 0x41, 0x42, 0xE8, 5, 0, 0, 0]

theorem witness_DecodeRecoversTheRecords :
    let a : List Sym := [0x41, 0x42]
    let bits := [0, 0, 0, 1].flatMap (rankRecord 1)
    1 ≤ 1 ∧ 1 ≤ 255 ∧ 1 ≤ a.length ∧ a.length ≤ 256 ∧ a.all (fun x => x.fits beforeDecode.cfg) = true ∧
    (∀ k ∈ [0, 0, 0, 1], k < a.length ∧ rankDepth k < 2 ^ 1) ∧ bits.length < 2 ^ 32 ∧
    ceilDiv8 bits.length ≤ ([0xE8] : List Byte).length ∧
    (∀ j < bits.length, (([0xE8] : List Byte).getD (j / 8) 0).getLsbD (j % 8) = bits.getD j false) ∧
    beforeDecode.inMem.bytes 0 beforeDecode.inLen.toNat = [BitVec.ofNat 8 1, BitVec.ofNat 8 (a.length - 1)] ++
      a.flatMap (fun x => leBytes beforeDecode.cfg.w x.toNat) ++ [0xE8] ++ leBytes 4 bits.length ∧
    beforeDecode.cfg.outFits (4 * beforeDecode.cfg.w) = true ∧ beforeDecode.outMem.wf = true := by decide +kernel

/-- The block of `beforeDecode` with room for three of its four symbols: the other hypotheses are as above, `IN` and `W`
being the same. -/
def decodeWithoutRoom : State := { beforeDecode with cfg := { defaultConfig with outCap := some 3 } }

theorem witness_DecodeRecoversTheRecords_noRoom :
    decodeWithoutRoom.cfg.w = beforeDecode.cfg.w ∧ decodeWithoutRoom.inMem = beforeDecode.inMem ∧
    decodeWithoutRoom.inLen = beforeDecode.inLen ∧
    decodeWithoutRoom.cfg.outFits (4 * decodeWithoutRoom.cfg.w) = false := by decide +kernel

theorem witness_DecodeRejectsMalformedHeaders :
    (loaded .one [1]).inLen.toNat < 2 ∧
    (loaded .one [1, 1, 0x41, 0x42, 0, 0, 0]).inLen.toNat <
      2 + (((loaded .one [1, 1, 0x41, 0x42, 0, 0, 0]).inMem.read 1).toNat + 1) * defaultConfig.w + 4 ∧
    (let s := loaded .one [1, 0, 0x41, 0, 9, 0, 0, 0]
     s.inLen.toNat < 2 + ((s.inMem.read 1).toNat + 1) * s.cfg.w + (leValue s.inMem (s.inLen.toNat - 4) 4 + 7) / 8 + 4) ∧
    (let s := loaded .one [0, 0, 0x41, 0, 8, 0, 0, 0]
     2 + ((s.inMem.read 1).toNat + 1) * s.cfg.w + (leValue s.inMem (s.inLen.toNat - 4) 4 + 7) / 8 + 4 ≤ s.inLen.toNat ∧
       s.inMem.read 0 = 0) := by decide +kernel

theorem witness_DecodeUndoesEncode :
    let s := loaded .one [0x41]
    let u := loaded .one [1, 0, 0x41, 0, 1, 0, 0, 0]
    seen (exec .encode s) = some (statusOk, u.inMem.bytes 0 u.inLen.toNat) ∧ s.outMem.wf = true ∧
    s.cfg.outFits s.inLen.toNat = true ∧ u.cfg = s.cfg ∧ u.outMem.wf = true := by decide +kernel

theorem witness_CommandsReadOnlyTheInput :
    let s := beforeEncode 9
    let s' := { s with cfg := { s.cfg with inCap := 4, runCap := some 4 }, runs := [⟨7, 7⟩], nodes := arenaT1,
                       wbyte := 0xFF, wcur := 7, tbits := 5, status := 0x0402 }
    IsCommand .encode ∧ s.cfg.width = s'.cfg.width ∧ s.cfg.outCap = s'.cfg.outCap ∧ s.inMem = s'.inMem ∧ s.inLen = s'.inLen ∧ s.outMem.wf = true ∧
    s'.outMem.wf = true ∧ (next? (exec .encode s)).isSome = true ∧ (next? (exec .encode s')).isSome = true := by
  refine ⟨.inl rfl, ?_⟩
  decide +kernel

theorem witness_CommandsNeverBreakAnInvariant :
    IsCommand .decode ∧ (next? (exec .decode beforeDecode)).isSome = true := by
  refine ⟨.inr rfl, ?_⟩
  decide +kernel

theorem witness_PhaseByPhaseIsTheWholeCommand : (beforeEncode 9).cmd = none ∧ (beforeEncode 9).script = [] := by decide

/-- A block in the middle of everything: a tree, a stream half read, a byte half written, an error status, and a line to
perform. -/
def busy : State :=
  { reading 10 with
    script := [.op (encode (.treeInsert 0x80))]
    nodes := arenaT1
    wbyte := 0x0D
    wcur := 4
    tbits := 4
    status := statusErr .emptyInput
    runs := [⟨0x41, 255⟩]
    alpha := [⟨0x41, 255⟩] }

theorem witness_StepInvariants :
    MemoryCanonical busy ∧ WithinCapacities busy ∧ TablesFit busy ∧ TreeOk busy.nodes ∧ TreeBalanced busy.nodes ∧
    ReaderPlaced busy ∧ WriterClean busy ∧ StatusLegal busy ∧ AtRest busy ∧ (next? (step busy)).isSome = true := by
  decide +kernel

end Sys2Proof.Tests
end

section
/-! PROOFS. The step of the block: its branches, the host's transactions, and the sequencer phase by phase against the
whole commands (10_state.md R40 to R50). -/

namespace Sys2Proof.Machine

/-! ### The branches of a step -/

theorem step_of_cmd {s : State} {c : Byte} (hp : s.phase = .idle) (hc : s.cmd = some c) : step s = hostCmd c s := by
  simp [step, hp, hc]

theorem step_of_line {s : State} {l : Line} {rest : List Line} (hp : s.phase = .idle) (hc : s.cmd = none)
    (hs : s.script = l :: rest) : step s = performLine l (s.setScript rest) := by
  simp [step, hp, hc, hs]

theorem step_of_waiting {s : State} (hp : s.phase = .idle) (hc : s.cmd = none) (hs : s.script = []) :
    step s = .next s := by
  simp [step, hp, hc, hs]

theorem step_of_running {s : State} (hp : s.phase ≠ .idle) : step s = .next (phaseStep s) := if_neg hp

theorem phaseStep_of_error {s t : State} {f : FaultCode} (h : phaseBody s.phase s = .error f t) :
    phaseStep s = faultEntry f t := by
  simp [phaseStep, h]

theorem phaseStep_of_last {s t : State} (h : phaseBody s.phase s = .ok () t) (hl : s.phase.succ = .idle) :
    phaseStep s = commandDone t := by
  simp [phaseStep, h, hl]

theorem phaseStep_of_more {s t : State} (h : phaseBody s.phase s = .ok () t) (hl : s.phase.succ ≠ .idle) :
    phaseStep s = t.setPhase s.phase.succ := by
  simp [phaseStep, h, hl]

/-! ### The sequencer, phase by phase (10_state.md R40) -/

/-- The phase `p` and the `n` phases after it, in the order of `Phase.succ`, performed as one sequence. -/
def phasesFrom : (n : Nat) → Phase → Op Unit
  | 0, p => do
    enter p
    phaseBody p
  | n + 1, p => do
    enter p
    phaseBody p
    phasesFrom n p.succ

/-- `ENCODE` performs the ten phases from E_INIT on (45_codec_driver.md R201). -/
theorem encodeSequence_eq_phases : encodeSequence = phasesFrom 9 .eInit := rfl

/-- `DECODE` performs the five phases from D_INIT on (45_codec_driver.md R211). -/
theorem decodeSequence_eq_phases : decodeSequence = phasesFrom 4 .dInit := rfl

/-- Behind the phase `p` stand exactly `n` more phases of its command. -/
def PhasesLeft : (n : Nat) → Phase → Prop
  | 0, p => p ≠ .idle ∧ p.succ = .idle
  | n + 1, p => p ≠ .idle ∧ PhasesLeft n p.succ

theorem PhasesLeft.running {n : Nat} {p : Phase} (h : PhasesLeft n p) : p ≠ .idle := by
  cases n <;> exact h.1

theorem phasesLeft_encode : PhasesLeft 9 .eInit := by simp [PhasesLeft, Phase.succ]

theorem phasesLeft_decode : PhasesLeft 4 .dInit := by simp [PhasesLeft, Phase.succ]

/-- No phase touches `CMD` or the host's script, whether it goes on or raises. -/
theorem within_phaseBody_host (p : Phase) : Within (Same fun s => (s.phase, s.cmd, s.script)) (phaseBody p) :=
  within_phaseBody writes_keep_phase p

theorem run_succ {k : Nat} {s t : State} (h : step s = .next t) :
    Host.Core.run core (k + 1) s = Host.Core.run core k t := by
  have h' : core.step s = .next t := h
  simp only [Host.Core.run, h']

/-- A block that waits still waits after any number of steps (70_reset_and_hazards.md R281). -/
theorem run_of_waiting (k : Nat) {s : State} (hp : s.phase = .idle) (hc : s.cmd = none) (hs : s.script = []) :
    Host.Core.run core k s = .next s := by
  induction k with
  | zero => rfl
  | succ k ih => rw [run_succ (step_of_waiting hp hc hs), ih]

/-- One step per phase is the sequence of the phases: a fault ends both in the fault entry, the later steps waiting; the
last phase ends both in the end of the command (10_state.md R46). -/
theorem run_phases (n : Nat) {p : Phase} {s : State} (h : PhasesLeft n p) (hc : s.cmd = none) (hs : s.script = []) :
    Host.Core.run core (n + 1) (s.setPhase p) = commandOutcome (phasesFrom n p) s := by
  induction n generalizing p s with
  | zero =>
    rw [run_succ (step_of_running h.running), commandOutcome, phasesFrom, bind_of_ok (enter_apply p s)]
    cases hb : phaseBody p (s.setPhase p) with
    | error f t => rw [phaseStep_of_error hb]; rfl
    | ok u t => rw [phaseStep_of_last hb h.2]; rfl
  | succ n ih =>
    rw [run_succ (step_of_running h.running), commandOutcome, phasesFrom, bind_of_ok (enter_apply p s)]
    cases hb : phaseBody p (s.setPhase p) with
    | error f t =>
      have hk := (within_phaseBody_host p).error hb
      simp only [Same, setPhase_cmd, setPhase_script, hc, hs, Prod.mk.injEq] at hk
      obtain ⟨_, hcmd, hscript⟩ := hk
      rw [phaseStep_of_error hb, bind_of_error hb]
      exact run_of_waiting _ rfl hcmd hscript
    | ok u t =>
      have hk := (within_phaseBody_host p).ok hb
      simp only [Same, setPhase_cmd, setPhase_script, hc, hs, Prod.mk.injEq] at hk
      obtain ⟨_, hcmd, hscript⟩ := hk
      rw [phaseStep_of_more hb h.2.running, bind_of_ok hb]
      exact ih h.2 hcmd hscript

/-- Settles O54: each command is the sequence of its phases, and the run performs one phase per step. -/
theorem phaseByPhaseIsTheWholeCommand : Obligations.PhaseByPhaseIsTheWholeCommand := by
  intro s hc hs
  constructor
  · rw [run_phases 9 phasesLeft_encode hc hs, ← encodeSequence_eq_phases]
    rfl
  · rw [run_phases 4 phasesLeft_decode hc hs, ← decodeSequence_eq_phases]
    rfl

/-! ### The host's transactions (10_state.md R45 to R49) -/

/-- What `HostLoad` comes to, whatever line of the script asked for it (10_state.md R45). -/
theorem stepLoads_of_hostLoad {s : State} {rest : List Line} {b : List Byte}
    (h : step s = hostLoad b (s.setScript rest)) : StepLoads s rest b := by
  rcases hostLoad_cases b (s.setScript rest) with ⟨hle, hload, hlen⟩ | ⟨hlt, hload⟩
  · have hle' : b.length ≤ s.cfg.inCap.toNat := hle
    exact ⟨fun _ => ⟨Memory.ofBytes b, h.trans hload, hlen, bytes_ofBytes b, wf_ofBytes b⟩, fun hlt => by omega⟩
  · have hlt' : s.cfg.inCap.toNat < b.length := hlt
    exact ⟨fun hle => by omega, fun _ => h.trans hload⟩

/-- Settles O5: `LOAD` is `HostLoad` of its bytes, `LOADRESULT` is `HostLoad` of the newest result among the replies. -/
theorem hostLoadReplacesInAndItsLength : Obligations.HostLoadReplacesInAndItsLength := by
  intro s rest hp hc
  refine ⟨fun b hs => stepLoads_of_hostLoad (step_of_line hp hc hs), fun hs =>
    ⟨fun newer older b hr hn => ?_, fun hn => ?_⟩⟩
  · refine stepLoads_of_hostLoad ?_
    rw [step_of_line hp hc hs]
    simp only [performLine, hostLoadResult, setScript_replies, hr, lastResult_of_newest hn]
  · rw [step_of_line hp hc hs]
    simp only [performLine, hostLoadResult, setScript_replies, lastResult_of_none hn]

/-- Writing nothing into an empty `CMD` changes nothing. -/
theorem setCmd_none_of_empty {s : State} (h : s.cmd = none) : s.setCmd none = s := by
  cases s
  cases h
  rfl

/-- Every word but the two commands decodes to none (30_encoding.md R92). -/
theorem decodeCommand_illegal {c : Byte} (h1 : c ≠ 0x01) (h2 : c ≠ 0x02) : decodeCommand c = none := by
  unfold decodeCommand
  split
  · next h => exact absurd (BitVec.eq_of_toNat_eq h) h1
  · next h => exact absurd (BitVec.eq_of_toNat_eq h) h2
  · rfl

/-- The three cases of `HostCmd` (10_state.md R46, 60_exceptions.md R251). -/
theorem hostCmd_spec (c : Byte) (s : State) :
    (c = 0x01 → hostCmd c s = exec .encode (s.setCmd none)) ∧
    (c = 0x02 → hostCmd c s = exec .decode (s.setCmd none)) ∧
    (c ≠ 0x01 → c ≠ 0x02 → hostCmd c s = .next (faultEntry .illegalCommand (s.setCmd none))) := by
  refine ⟨?_, ?_, fun h1 h2 => ?_⟩
  · rintro rfl; rfl
  · rintro rfl; rfl
  · simp only [hostCmd, decodeCommand_illegal h1 h2]

/-- Settles O2: a `CMD` line and a word in `CMD` are both performed by `HostCmd`. -/
theorem hostCmdPerformsTheWholeCommand : Obligations.HostCmdPerformsTheWholeCommand := by
  intro s c hp
  refine ⟨fun rest hc hs => ?_, fun hc => ?_⟩
  · have hstep : step s = hostCmd c (s.setScript rest) := step_of_line hp hc hs
    have hspec := hostCmd_spec c (s.setScript rest)
    rwa [← hstep, setCmd_none_of_empty (s := s.setScript rest) hc] at hspec
  · rw [step_of_cmd hp hc]
    exact hostCmd_spec c s

/-- Settles O6: each line adds one reply, `STATUS` the two fields, `RESULT` the bytes of `OUT` below `OUT_LEN`. -/
theorem statusAndResultAreReadOut : Obligations.StatusAndResultAreReadOut := by
  intro s rest hp hc
  refine ⟨fun hs => step_of_line hp hc hs, fun hs =>
    ⟨s.result, step_of_line hp hc hs, bytes_length _ _ _, fun i hi => ?_⟩⟩
  have h := bytes_getElem? s.outMem (a := 0) hi
  rwa [Nat.zero_add] at h

/-- On an empty `IN` the command ENCODE ends with `EmptyInput` (60_exceptions.md R244). -/
theorem execEncode_of_empty {s : State} (h : s.inLen.toNat = 0) :
    ∃ u, exec .encode s = .next (faultEntry .emptyInput u) := by
  rcases encodeInit_cases (s.setPhase .eInit) with ⟨_, he⟩ | ⟨hne, _⟩ | ⟨hne, _⟩
  · exact ⟨_, commandOutcome_of_error ((encodeSequence_eq s).trans (bind_of_error he))⟩
  · exact absurd h hne
  · exact absurd h hne

/-- On an empty `IN` the command DECODE ends with `TruncatedInput` (60_exceptions.md R241). -/
theorem execDecode_of_empty {s : State} (h : s.inLen.toNat = 0) :
    ∃ u, exec .decode s = .next (faultEntry .truncatedInput u) := by
  rcases decodeSequence_cases s with ⟨_, u, hu⟩ | ⟨hlen, _⟩
  · exact ⟨u, commandOutcome_of_error hu⟩
  · omega

/-- Settles O7: the step is the reset, and an empty `IN` is what both commands reject first. -/
theorem resetEmptiesTheBlock : Obligations.ResetEmptiesTheBlock := by
  intro s rest hp hc hs
  obtain ⟨u, hu⟩ := execEncode_of_empty (s := (s.setScript rest).afterReset) rfl
  obtain ⟨v, hv⟩ := execDecode_of_empty (s := (s.setScript rest).afterReset) rfl
  exact ⟨(s.setScript rest).afterReset, step_of_line hp hc hs, rfl, rfl, rfl, rfl, rfl, rfl, rfl, rfl, rfl, rfl,
    ⟨_, hu, rfl, rfl⟩, ⟨_, hv, rfl, rfl⟩⟩

/-! ### `RLE.COLLAPSE` (10_state.md R25) -/

/-- Settles O13: the runs are `runsOf` of the input symbols, whose law is `runsOf_spec`; a count has 8 bits. -/
theorem rleCollapseMakesMinimalRuns : Obligations.RleCollapseMakesMinimalRuns := by
  intro s
  obtain ⟨hspell, hpos, hcap, _⟩ := runsOf_spec s.inSymbols
  refine ⟨runsOf s.inSymbols, opOutcome_of_ok (rleCollapse_apply s), hspell, fun x hx => ⟨hpos x hx, ?_⟩, hcap⟩
  have := x.count.isLt
  omega

end Sys2Proof.Machine
end

section
/-! PROOFS. What every step keeps: the block at rest, the balanced tree, the stream registers and `STATUS`
(10_state.md R28 to R43), each one use of `step_kept`. -/

namespace Sys2Proof.Machine

/-! ### The block at rest (10_state.md R40, R42) -/

/-- An operation performed on a block at rest leaves it at rest: a command ends with PHASE IDLE, a micro-operation does
not move the sequencer, the fault entry writes IDLE. -/
theorem exec_atRest {i : Instr} {s t : State} (h : exec i s = .next t) (hs : AtRest s) : AtRest t := by
  obtain ⟨hp, hc⟩ := hs
  by_cases hi : IsCommand i
  · obtain ⟨t', u, he, hu, ht⟩ := command_cases writes_untouched i hi s
    rw [h] at he
    cases he
    simp only [Same, Prod.mk.injEq] at hu
    obtain ⟨_, _, _, hcmd, _⟩ := hu
    rcases ht with rfl | ⟨f, rfl⟩
    · exact ⟨rfl, hcmd.trans hc⟩
    · exact ⟨rfl, hcmd.trans hc⟩
  · obtain ⟨t', u, he, hu, ht⟩ := operation_cases writes_keep_phase i hi s
    rw [h] at he
    cases he
    simp only [Same, Prod.mk.injEq] at hu
    obtain ⟨hphase, hcmd, _⟩ := hu
    rcases ht with rfl | ⟨r, rfl⟩ | ⟨f, rfl⟩
    · exact ⟨hphase.trans hp, hcmd.trans hc⟩
    · exact ⟨hphase.trans hp, hcmd.trans hc⟩
    · exact ⟨rfl, hcmd.trans hc⟩

/-- Settles O60, by the cases of a step: an operation (`exec_atRest`) or a transaction that touches neither register. -/
theorem stepLeavesTheBlockAtRest : Obligations.StepLeavesTheBlockAtRest := by
  intro s t hs h
  rcases step_cases h with ⟨hp, _⟩ | ⟨_, _, _, rfl⟩ | ⟨_, u, hu, ht⟩
  · exact absurd hs.1 hp
  · exact hs
  · have hrest : AtRest u := by
      rcases hu with rfl | ⟨rest, _, rfl⟩
      · exact ⟨hs.1, rfl⟩
      · exact hs
    rcases ht with ⟨i, he, _⟩ | rfl | ⟨b, rfl, _⟩ | ⟨r, rfl⟩ | rfl
    · exact exec_atRest he hrest
    · exact ⟨rfl, hrest.2⟩
    · exact hrest
    · exact hrest
    · exact ⟨rfl, rfl⟩

/-! ### The tree (10_state.md R28, R30) -/

/-- The arena is a tree, balanced at every node. -/
def BalancedArena (s : State) : Prop := TreeOk s.nodes ∧ TreeBalanced s.nodes

theorem balancedArena_emptyRoot {s : State} (h : s.nodes = [emptyRoot]) : BalancedArena s := by
  unfold BalancedArena
  rw [h]
  exact ⟨treeOk_emptyRoot, treeBalanced_emptyRoot⟩

/-- `TREE.INIT` and `TREE.INSERT` keep a balanced tree; nothing else writes the arena. -/
theorem writes_balancedArena : Writes (Kept BalancedArena) where
  toChains := kept_chains _
  root _ _ := balancedArena_emptyRoot rfl
  insert _ _ _ hu h := ⟨insertNode_treeOk h.1 hu, insertNode_balanced h.1 h.2 hu⟩
  phase _ _ h := h
  outClear _ h := h
  append _ _ _ _ h := h
  runs _ h := h
  alpha _ _ h := h
  path _ _ _ h := h
  found _ _ h := h
  writer _ h := h
  writebit _ _ h := h
  count _ _ h := h
  cursor _ _ h := h
  clear _ h := h
  reader _ _ h := h
  read s _ h := by rw [readerNext_eq]; exact h
  total _ _ h := h
  mdb _ _ h := h
  height _ _ h := h
  nsym _ _ h := h

/-- Settles O58: the only two writes of the arena are `TREE.INIT` and `TREE.INSERT`. -/
theorem stepKeepsTheTreeBalanced : Obligations.StepKeepsTheTreeBalanced := by
  intro s t hok hbal h
  exact step_kept writes_balancedArena (hst := fun _ _ _ h => h) (hret := fun _ _ h => h) (hcmd := fun _ h => h)
    (hscr := fun _ _ h => h) (hrep := fun _ _ h => h) (hreset := fun _ _ => balancedArena_emptyRoot rfl)
    (hin := fun _ _ _ _ h => h) h ⟨hok, hbal⟩

/-! ### The stream registers and `STATUS` (10_state.md R36, R38, R43) -/

/-- The reader's count agrees with its place, the working byte is clean above the cursor, `STATUS` is legal. -/
def StreamsAndStatus (s : State) : Prop := ReaderPlaced s ∧ WriterClean s ∧ StatusLegal s

/-- A working byte of no bits is clean. -/
theorem writerClean_zero {s : State} (h : s.wbyte = 0) : WriterClean s := by
  intro j _ _
  rw [h]
  exact BitVec.getLsbD_zero

/-- `BSW.WRITEBIT` writes no bit above the cursor (44_bitstream.md R181). -/
theorem writerClean_writebit {s : State} (b : Bool) (h : WriterClean s) :
    WriterClean (s.setWriter (withBit s.wbyte s.wcur b) s.wcur s.tbits) := by
  intro j hj hlt
  have hlt' : s.wcur.toNat < j := hlt
  have hbit := withBit_getLsbD s.wbyte s.wcur b j hj
  rw [if_neg (by omega)] at hbit
  exact hbit.trans (h j hj hlt')

/-- Moving the cursor up leaves fewer bits above it (44_bitstream.md R182). -/
theorem writerClean_cursor {s : State} (hc : s.wcur.toNat ≠ 7) (h : WriterClean s) :
    WriterClean (s.setWriter s.wbyte (s.wcur + 1) s.tbits) := by
  intro j hj hlt
  have hcur := s.wcur.isLt
  have hnext : (s.wcur + 1).toNat = s.wcur.toNat + 1 := by
    rw [BitVec.toNat_add]
    change (s.wcur.toNat + 1) % 2 ^ 3 = _
    omega
  have hlt' : (s.wcur + 1).toNat < j := hlt
  exact h j hj (by omega)

theorem faultCode_range (f : FaultCode) : 1 ≤ f.code.toNat ∧ f.code.toNat ≤ 0x0B := by cases f <;> decide

/-- The two words a command can end with are legal (10_state.md R43). -/
theorem statusLegal_of_end {s : State} (h : s.status = statusOk ∨ ∃ f, s.status = statusErr f) : StatusLegal s := by
  rcases h with h | ⟨f, h⟩
  · simp only [StatusLegal, h]
    decide
  · simp only [StatusLegal, h, statusErr, statusReserved_word, statusState_word, statusErrcode_word]
    exact ⟨trivial, by decide, fun hne => absurd rfl hne, fun _ => faultCode_range f⟩

theorem streamsAndStatus_reset {s : State} (hr : s.rbits = 0 ∧ s.ridx = 0 ∧ s.rcur = 0) (hw : s.wbyte = 0)
    (hs : s.status = 0) : StreamsAndStatus s := by
  obtain ⟨hbits, hidx, hcur⟩ := hr
  refine ⟨?_, writerClean_zero hw, ?_⟩
  · simp [ReaderPlaced, hbits, hidx, hcur]
  · simp only [StatusLegal, hs]
    decide

/-- The writes of the writer and of the reader keep the registers in agreement; nothing else touches them. -/
theorem writes_streamsAndStatus : Writes (Kept StreamsAndStatus) where
  toChains := kept_chains _
  writer _ h := ⟨h.1, writerClean_zero rfl, h.2.2⟩
  writebit _ b h := ⟨h.1, writerClean_writebit b h.2.1, h.2.2⟩
  cursor _ hc h := ⟨h.1, writerClean_cursor hc h.2.1, h.2.2⟩
  clear _ h := ⟨h.1, writerClean_zero rfl, h.2.2⟩
  reader _ _ h := ⟨rfl, h.2⟩
  read s hlt h := by
    have hplaced := (readerNext_placed h.1 (by have := s.rtotal.isLt; omega)).1
    rw [readerNext_eq] at hplaced ⊢
    exact ⟨hplaced, h.2⟩
  count _ _ h := h
  phase _ _ h := h
  outClear _ h := h
  append _ _ _ _ h := h
  runs _ h := h
  alpha _ _ h := h
  root _ h := h
  insert _ _ _ _ h := h
  path _ _ _ h := h
  found _ _ h := h
  total _ _ h := h
  mdb _ _ h := h
  height _ _ h := h
  nsym _ _ h := h

/-- Settles O59: the writes keep the registers in agreement, and `STATUS` is written with the words of a command's end
only. -/
theorem stepKeepsStreamRegistersAndStatus : Obligations.StepKeepsStreamRegistersAndStatus := by
  intro s t hr hw hs h
  exact step_kept writes_streamsAndStatus (hst := fun _ _ hv h => ⟨h.1, h.2.1, statusLegal_of_end hv⟩)
    (hret := fun _ _ h => h) (hcmd := fun _ h => h) (hscr := fun _ _ h => h) (hrep := fun _ _ h => h)
    (hreset := fun _ _ => streamsAndStatus_reset ⟨rfl, rfl, rfl⟩ rfl rfl) (hin := fun _ _ _ _ h => h) h
    ⟨hr, hw, hs⟩

end Sys2Proof.Machine
end

section
/-! PROOFS. Every step keeps the contents within the capacities and the tables within their widths (10_state.md R21 to
R28, 00_scope.md R6, R8). -/

namespace Sys2Proof.Machine

/-! ### The capacities (10_state.md R21, R22, R24) -/

/-- The parameters are `c`, and the contents keep to their capacities. -/
def WithinCapacitiesOf (c : Config) (s : State) : Prop := s.cfg = c ∧ WithinCapacities s

theorem runFits_zero (c : Config) : runFits c 0 = true := by
  unfold runFits
  split
  · rfl
  · simp

/-- `RUN_CAP` holds the runs of every input within `IN_CAP`, a run holding at least one symbol (00_scope.md R8). -/
theorem runFits_runsOf {s : State} (h : WithinCapacities s) : runFits s.cfg (runsOf s.inSymbols).length = true := by
  obtain ⟨hwf, hin, _, _⟩ := h
  unfold runFits
  unfold Config.wf at hwf
  cases hcap : s.cfg.runCap with
  | none => rfl
  | some cap =>
    rw [hcap] at hwf
    have hcapacity : s.cfg.inCap.toNat / s.cfg.w ≤ cap := of_decide_eq_true hwf
    obtain ⟨_, _, _, hruns⟩ := runsOf_spec s.inSymbols
    refine decide_eq_true ?_
    calc (runsOf s.inSymbols).length ≤ s.inSymbols.length := hruns
      _ = s.inLen.toNat / s.cfg.w := inSymbols_length s
      _ ≤ s.cfg.inCap.toNat / s.cfg.w := Nat.div_le_div_right hin
      _ ≤ cap := hcapacity

/-- `OutAppend` tests the room, `RLE.COLLAPSE` needs no test, a command and the fault entry empty `OUT`; nothing else
writes a content that has a capacity, and nothing writes the parameters. -/
theorem writes_withinCapacities (c : Config) : Writes (Kept (WithinCapacitiesOf c)) where
  toChains := kept_chains _
  outClear _ := fun ⟨hc, hwf, hin, _, hruns⟩ => ⟨hc, hwf, hin, outFits_zero _, hruns⟩
  append _ _ _ hroom := fun ⟨hc, hwf, hin, _, hruns⟩ => ⟨hc, hwf, hin, hroom, hruns⟩
  runs _ := fun ⟨hc, hwf, hin, hout, hruns⟩ => ⟨hc, hwf, hin, hout, runFits_runsOf ⟨hwf, hin, hout, hruns⟩⟩
  phase _ _ h := h
  alpha _ _ h := h
  root _ h := h
  insert _ _ _ _ h := h
  path _ _ _ h := h
  found _ _ h := h
  writer _ h := h
  writebit _ _ h := h
  count _ _ h := h
  cursor _ _ h := h
  clear _ h := h
  reader _ _ h := h
  read s _ h := by rw [readerNext_eq]; exact h
  total _ _ h := h
  mdb _ _ h := h
  height _ _ h := h
  nsym _ _ h := h

theorem step_keeps_withinCapacities {c : Config} {s t : State} (hs : WithinCapacitiesOf c s) (h : step s = .next t) :
    WithinCapacitiesOf c t :=
  step_kept (writes_withinCapacities c) (hst := fun _ _ _ h => h) (hret := fun _ _ h => h) (hcmd := fun _ h => h)
    (hscr := fun _ _ h => h) (hrep := fun _ _ h => h)
    (hreset := fun s ⟨hc, hwf, _⟩ => ⟨hc, hwf, Nat.zero_le _, outFits_zero _, runFits_zero s.cfg⟩)
    (hin := fun _ _ hle hlen ⟨hc, hwf, _, hrest⟩ => ⟨hc, hwf, hlen.trans_le hle, hrest⟩) h hs

/-! ### The operations that write no table

`OpWrites` allows a write of any alphabet, so that the widths need an induction of their own. Its easy half: outside
RUNS, ALPHA and NODE an operation keeps what `TablesFit` reads. -/

/-- What `TablesFit` reads of the state. -/
def tablesOf (s : State) : Config × List Run × List Letter × List Node := (s.cfg, s.runs, s.alpha, s.nodes)

/-- Going on or raising, the operation leaves the parameters and the tables as they were. -/
abbrev KeepsTables {α : Type} (x : Op α) : Prop := Within (Same tablesOf) x

theorem sameTables : Chains (Same tablesOf) := same_chains tablesOf

theorem keepsTables_outAppend (n v : Nat) : KeepsTables (outAppend n v) :=
  within_outAppend sameTables n v fun _ _ => rfl

theorem keepsTables_symAppend (x : Sym) : KeepsTables (symAppend x) :=
  fun s => keepsTables_outAppend s.cfg.w x.toNat s

theorem keepsTables_bswAdvance : KeepsTables bswAdvance :=
  within_bind sameTables (within_raiseIf sameTables _ _) fun _ =>
    within_bind sameTables (within_update fun _ => rfl) fun _ =>
      within_bind sameTables (within_look sameTables _) fun _ =>
        within_ite _
          (within_bind sameTables (within_look sameTables _) fun _ =>
            within_bind sameTables (keepsTables_outAppend _ _) fun _ => within_update fun _ => rfl)
          (within_update fun _ => rfl)

theorem keepsTables_bswPut (b : Bool) : KeepsTables (bswPut b) :=
  within_bind sameTables (within_update fun _ => rfl) fun _ => keepsTables_bswAdvance

theorem keepsTables_bswFlush : KeepsTables bswFlush :=
  within_bind sameTables (within_look sameTables _) fun _ =>
    within_ite _
      (within_bind sameTables (within_look sameTables _) fun _ =>
        within_bind sameTables (keepsTables_outAppend _ _) fun _ => within_update fun _ => rfl)
      (within_pure sameTables ())

theorem keepsTables_bsrReadbit : KeepsTables bsrReadbit := by
  intro s
  rcases bsrReadbit_cases s with ⟨_, _, h⟩ | ⟨_, h⟩
  · rw [h, readerNext_eq]; rfl
  · rw [h]; rfl

theorem keepsTables_treeMeasure (f : List Node → Option Nat) : KeepsTables (treeMeasure f) := by
  intro s
  rcases treeMeasure_cases f s with ⟨v, _, h⟩ | ⟨_, h⟩
  · rw [h]; rfl
  · rw [h]; rfl

theorem keepsTables_treePathinfo (x : Sym) : KeepsTables (treePathinfo x) := by
  intro s
  unfold treePathinfo
  cases search s.nodes x <;> rfl

theorem keepsTables_treeFindvalue : KeepsTables treeFindvalue := by
  intro s
  unfold treeFindvalue
  cases walk s.nodes s.piPath s.piDepth 0 0 <;> rfl

theorem keepsTables_drvHdremit : KeepsTables drvHdremit :=
  within_bind sameTables (within_look sameTables _) fun _ =>
    within_bind sameTables (keepsTables_outAppend _ _) fun _ =>
      within_bind sameTables (within_raiseIf sameTables _ _) fun _ =>
        within_bind sameTables (within_look sameTables _) fun _ =>
          within_bind sameTables (keepsTables_outAppend _ _) fun _ =>
            within_forEach sameTables _ fun l _ => keepsTables_symAppend l.sym

theorem keepsTables_drvRecemit : KeepsTables drvRecemit :=
  within_bind sameTables (within_look sameTables _) fun _ =>
    within_bind sameTables (within_look sameTables _) fun _ =>
      within_bind sameTables (within_look sameTables _) fun _ =>
        within_bind sameTables (within_countUp sameTables _ _ fun _ => keepsTables_bswPut _) fun _ =>
          within_countUp sameTables _ _ fun _ => keepsTables_bswPut _

theorem keepsTables_encodeRecords : KeepsTables encodeRecords :=
  within_bind sameTables (within_update fun _ => rfl) fun _ =>
    within_bind sameTables (within_look sameTables _) fun _ =>
      within_forEach sameTables _ fun r _ =>
        within_bind sameTables (keepsTables_treePathinfo r.sym) fun _ =>
          within_bind sameTables (within_raiseIf sameTables _ _) fun _ =>
            within_repeatOp sameTables _ keepsTables_drvRecemit

theorem keepsTables_drvTrailemit : KeepsTables drvTrailemit :=
  within_bind sameTables (within_look sameTables _) fun _ => keepsTables_outAppend _ _

theorem keepsTables_drvTrailread : KeepsTables drvTrailread :=
  within_bind sameTables (within_raiseIf sameTables _ _) fun _ =>
    within_bind sameTables (within_look sameTables _) fun _ =>
      within_bind sameTables (within_memRead sameTables _ _) fun _ =>
        within_bind sameTables (within_update fun _ => rfl) fun _ => within_raiseIf sameTables _ _

theorem keepsTables_readDepth (k i d : Nat) : KeepsTables (readDepth k i d) := by
  induction k generalizing i d with
  | zero => exact within_pure sameTables d
  | succ k ih => exact within_bind sameTables keepsTables_bsrReadbit fun _ => ih _ _

theorem keepsTables_drvRecread : KeepsTables drvRecread :=
  within_bind sameTables (within_raiseIf sameTables _ _) fun _ =>
    within_bind sameTables (within_look sameTables _) fun _ =>
      within_bind sameTables (keepsTables_readDepth _ _ _) fun _ =>
        within_bind sameTables (within_raiseIf sameTables _ _) fun _ =>
          within_bind sameTables (within_update fun _ => rfl) fun _ =>
            within_bind sameTables (within_repeatOp sameTables _
              (within_bind sameTables keepsTables_bsrReadbit fun _ => within_update fun _ => rfl)) fun _ =>
              within_bind sameTables keepsTables_treeFindvalue fun _ => keepsTables_symAppend _

theorem keepsTables_readRecords (k : Nat) : KeepsTables (readRecords k) := by
  induction k with
  | zero => exact within_raiseIf sameTables _ _
  | succ k ih =>
    intro s
    by_cases h : s.rbits.toNat < s.rtotal.toNat
    · have hstep : readRecords (k + 1) s = (drvRecread >>= fun _ => readRecords k) s := by
        rw [bind_apply]
        refine (if_pos h).trans ?_
        cases drvRecread s <;> rfl
      rw [hstep]
      exact within_bind sameTables keepsTables_drvRecread (fun _ => ih) s
    · have hstop : readRecords (k + 1) s = .ok () s := if_neg h
      rw [hstop]
      rfl

theorem keepsTables_decodeRecords : KeepsTables decodeRecords :=
  within_bind sameTables (within_look sameTables _) fun _ =>
    within_bind sameTables (within_update fun _ => rfl) fun _ =>
      within_bind sameTables (within_look sameTables _) fun _ => keepsTables_readRecords _

/-! ### The writes of the tables (10_state.md R24, R26, R28) -/

/-- The parameters are `c`, and the tables have their widths. -/
def TablesFitOf (c : Config) (s : State) : Prop := s.cfg = c ∧ TablesFit s

theorem tablesFitOf_congr {c : Config} {s t : State} (h : Same tablesOf s t) (hs : TablesFitOf c s) :
    TablesFitOf c t := by
  simp only [Same, tablesOf, Prod.mk.injEq] at h
  obtain ⟨hcfg, hruns, halpha, hnodes⟩ := h
  simpa only [TablesFitOf, TablesFit, hcfg, hruns, halpha, hnodes] using hs

theorem tablesFitOf_runs {c : Config} {s : State} (h : TablesFitOf c s) :
    TablesFitOf c (s.setRuns (runsOf s.inSymbols)) := by
  obtain ⟨hc, _, hrest⟩ := h
  obtain ⟨_, hpos, _, _⟩ := runsOf_spec s.inSymbols
  exact ⟨hc, fun r hr => ⟨inSymbols_fits s _ (mem_of_mem_runsOf hr), hpos r hr⟩, hrest⟩

theorem tablesFitOf_alpha {c : Config} {s : State} {a : List Letter} (h : TablesFitOf c s)
    (hlen : a.length ≤ alphaMax) (ha : ∀ l ∈ a, l.sym.fits c = true) : TablesFitOf c (s.setAlpha a) := by
  obtain ⟨rfl, hruns, _, _, hnodes⟩ := h
  exact ⟨rfl, hruns, hlen, ha, hnodes⟩

theorem tablesFitOf_nodes {c : Config} {s : State} {u : List Node} (h : TablesFitOf c s)
    (hu : ∀ n ∈ u, n.val.all (·.fits c) = true) : TablesFitOf c (s.setNodes u) := by
  obtain ⟨rfl, hruns, hlen, halpha, _⟩ := h
  exact ⟨rfl, hruns, hlen, halpha, hu⟩

/-- Going on or raising, the operation keeps the parameters and the widths of the tables. -/
abbrev KeepsFit (c : Config) {α : Type} (x : Op α) : Prop := Within (Kept (TablesFitOf c)) x

section
variable {c : Config}

theorem fitChains : Chains (Kept (TablesFitOf c)) := kept_chains _

theorem keepsFit_of_keepsTables {α : Type} {x : Op α} (h : KeepsTables x) : KeepsFit c x := by
  intro s
  cases hx : x s with
  | ok v t => exact tablesFitOf_congr (h.ok hx)
  | error f t => exact tablesFitOf_congr (h.error hx)

/-- What an operation reads of a state whose tables have their widths may be used of the rest. -/
theorem keepsFit_look {α β : Type} {f : State → α} {x : α → Op β}
    (h : ∀ s, TablesFitOf c s → KeepsFit c (x (f s))) : KeepsFit c (look f >>= x) := by
  intro s
  rw [bind_of_ok (look_apply f s)]
  cases hx : x (f s) s with
  | ok v t => exact fun hs => (h s hs).ok hx hs
  | error e t => exact fun hs => (h s hs).error hx hs

/-- A letter added to or a new one, the alphabet gets no symbol but the run's (41_alphabet.md R141). -/
theorem keepsFit_foldRun {r : Run} (hr : r.sym.fits c = true) : KeepsFit c (foldRun r) := by
  intro s
  rcases foldRun_cases r s with ⟨a, ha, h⟩ | ⟨_, hne, h⟩ | ⟨_, _, h⟩
  · rw [h]
    intro hs
    obtain ⟨hsyms, hlen, _⟩ := addToLetter_syms ha
    obtain ⟨rfl, _, hmax, halpha, _⟩ := id hs
    refine tablesFitOf_alpha hs (hlen ▸ hmax) fun l hl => ?_
    have hmem : l.sym ∈ s.alpha.map (·.sym) := hsyms ▸ List.mem_map_of_mem hl
    obtain ⟨k, hk, hsym⟩ := List.mem_map.mp hmem
    exact hsym ▸ halpha k hk
  · rw [h]
    intro hs
    obtain ⟨rfl, _, hmax, halpha, _⟩ := id hs
    refine tablesFitOf_alpha hs (by simp only [List.length_append, List.length_singleton]; omega) fun l hl => ?_
    rcases List.mem_append.mp hl with hl | hl
    · exact halpha l hl
    · rw [List.mem_singleton.mp hl]
      exact hr
  · rw [h]
    exact fun hs => hs

theorem keepsFit_alphaFold : KeepsFit c alphaFold :=
  within_bind fitChains (within_update fun _ hs => tablesFitOf_alpha hs (Nat.zero_le _) (by simp)) fun _ =>
    keepsFit_look fun _ ⟨hc, hruns, _⟩ =>
      within_forEach fitChains _ fun r hr => keepsFit_foldRun (hc ▸ (hruns r hr).1)

/-- Sorting keeps the letters (41_alphabet.md R142). -/
theorem keepsFit_alphaSort : KeepsFit c alphaSort := by
  refine within_update fun s hs => ?_
  obtain ⟨hperm, _, _⟩ := sortLetters_spec s.alpha
  obtain ⟨rfl, _, hmax, halpha, _⟩ := id hs
  exact tablesFitOf_alpha hs (hperm.length_eq ▸ hmax) fun l hl => halpha l (hperm.mem_iff.mp hl)

/-- An entry of a header has the width of a symbol (45_codec_driver.md R213). -/
theorem headerLetters_fits (s : State) (k n : Nat) : ∀ l ∈ headerLetters s k n, l.sym.fits s.cfg = true := by
  induction n generalizing k with
  | zero => simp [headerLetters]
  | succ n ih =>
    intro l hl
    rcases List.mem_cons.mp hl with rfl | hl
    · refine decide_eq_true (Nat.lt_of_le_of_lt ?_ ((load_lt s.inMem (2 + k * s.cfg.w) s.cfg.w).trans_eq ?_))
      · rw [BitVec.toNat_ofNat]
        exact Nat.mod_le _ _
      · rw [Nat.pow_mul]
    · exact ih (k + 1) l hl

/-- The size byte of a header gives at most 256 letters. -/
theorem keepsFit_drvHdrparse : KeepsFit c drvHdrparse := by
  intro s
  rcases drvHdrparse_cases s with ⟨_, h⟩ | ⟨_, _, h⟩ | ⟨_, h⟩
  · rw [h]
    exact fun hs => hs
  · rw [h]
    exact fun hs => hs
  · rw [h]
    intro hs
    obtain ⟨rfl, _⟩ := id hs
    have hsize := (s.inMem.read 1).isLt
    refine tablesFitOf_alpha (s := (s.setMdb _).setNsym _) hs ?_ (headerLetters_fits s 0 _)
    rw [headerLetters_length]
    exact hsize

/-- Every symbol of the arena after an insert was there before or is the one inserted (42_path_tree.md R152). -/
theorem insertNode_val {t u : List Node} {x : Sym} (h : insertNode t x = some u) {n : Node} (hn : n ∈ u) :
    n.val = some x ∨ ∃ m ∈ t, n.val = m.val := by
  unfold insertNode at h
  split at h
  · cases h
  · split at h
    · cases h
      rcases List.mem_or_eq_of_mem_set hn with hn | rfl
      · exact .inr ⟨n, hn, rfl⟩
      · exact .inl rfl
    · split at h
      · cases h
      · unfold attach at h
        split at h
        · cases h
        · cases h
          rcases List.mem_append.mp hn with hn | hn
          · obtain ⟨i, hi⟩ := List.mem_iff_getElem?.mp hn
            rw [List.getElem?_modify] at hi
            obtain ⟨m, hm, rfl⟩ := Option.map_eq_some_iff.mp hi
            refine .inr ⟨m, List.mem_of_getElem? hm, ?_⟩
            split
            · exact withChild_val _ _ _
            · rfl
          · rw [List.mem_singleton.mp hn]
            exact .inl rfl

theorem keepsFit_treeInsert {x : Sym} (hx : x.fits c = true) : KeepsFit c (treeInsert x) := by
  intro s
  rcases treeInsert_cases x s with ⟨u, hu, h⟩ | ⟨_, h⟩
  · rw [h]
    intro hs
    obtain ⟨rfl, _, _, _, hnodes⟩ := id hs
    refine tablesFitOf_nodes hs fun n hn => ?_
    rcases insertNode_val hu hn with hv | ⟨m, hm, hv⟩
    · rw [hv]
      exact hx
    · rw [hv]
      exact hnodes m hm
  · rw [h]
    exact fun hs => hs

theorem keepsFit_treeInit : KeepsFit c treeInit :=
  within_update fun _ hs => tablesFitOf_nodes hs fun n hn => by rw [List.mem_singleton.mp hn]; rfl

theorem keepsFit_buildTree : KeepsFit c buildTree :=
  within_bind fitChains keepsFit_treeInit fun _ =>
    keepsFit_look fun _ ⟨hc, _, _, halpha, _⟩ =>
      within_forEach fitChains _ fun l hl => keepsFit_treeInsert (hc ▸ halpha l hl)

/-! ### Phases, operations and steps -/

theorem keepsFit_rleCollapse : KeepsFit c rleCollapse := within_update fun _ => tablesFitOf_runs

/-- Every phase of a command keeps the widths of the tables. -/
theorem keepsFit_phaseBody (p : Phase) : KeepsFit c (phaseBody p) := by
  cases p with
  | idle => exact within_pure fitChains ()
  | eInit =>
    exact keepsFit_of_keepsTables (within_bind sameTables (within_update fun _ => rfl) fun _ =>
      within_bind sameTables (within_raiseIf sameTables _ _) fun _ => within_raiseIf sameTables _ _)
  | eRle => exact keepsFit_rleCollapse
  | eFold => exact keepsFit_alphaFold
  | eSort => exact keepsFit_alphaSort
  | eTree => exact keepsFit_buildTree
  | eDepthbits =>
    exact keepsFit_of_keepsTables (within_bind sameTables (keepsTables_treeMeasure _) fun _ =>
      within_bind sameTables (within_update fun _ => rfl) fun _ => within_update fun _ => rfl)
  | eHeader => exact keepsFit_of_keepsTables keepsTables_drvHdremit
  | eRecords => exact keepsFit_of_keepsTables keepsTables_encodeRecords
  | eFlush => exact keepsFit_of_keepsTables keepsTables_bswFlush
  | eTrailer => exact keepsFit_of_keepsTables keepsTables_drvTrailemit
  | dInit => exact keepsFit_of_keepsTables (within_update fun _ => rfl)
  | dHeader => exact keepsFit_drvHdrparse
  | dTrailer =>
    exact keepsFit_of_keepsTables (within_bind sameTables keepsTables_drvTrailread fun _ =>
      within_raiseIf sameTables _ _)
  | dTree => exact within_bind fitChains (within_raiseIf fitChains _ _) fun _ => keepsFit_buildTree
  | dRecords => exact keepsFit_of_keepsTables keepsTables_decodeRecords

theorem keepsFit_phasesFrom (n : Nat) (p : Phase) : KeepsFit c (phasesFrom n p) := by
  have henter : ∀ p, KeepsFit c (enter p) := fun p => within_update fun _ hs => hs
  induction n generalizing p with
  | zero => exact within_bind fitChains (henter p) fun _ => keepsFit_phaseBody p
  | succ n ih =>
    exact within_bind fitChains (henter p) fun _ => within_bind fitChains (keepsFit_phaseBody p) fun _ => ih p.succ

theorem commandOutcome_keepsFit {body : Op Unit} {s t : State} (hb : KeepsFit c body) (hs : TablesFitOf c s)
    (h : commandOutcome body s = .next t) : TablesFitOf c t := by
  cases hx : body s with
  | ok v u =>
    rw [commandOutcome_of_ok hx] at h
    cases h
    exact tablesFitOf_congr (s := u) rfl (hb.ok hx hs)
  | error f u =>
    rw [commandOutcome_of_error hx] at h
    cases h
    exact tablesFitOf_congr (s := u) rfl (hb.error hx hs)

theorem opOutcome_keepsFit {body : Op Unit} {s t : State} (hb : KeepsFit c body) (hs : TablesFitOf c s)
    (h : opOutcome body s = .next t) : TablesFitOf c t := by
  cases hx : body s with
  | ok v u =>
    rw [opOutcome_of_ok hx] at h
    cases h
    exact hb.ok hx hs
  | error f u =>
    rw [opOutcome_of_error hx] at h
    cases h
    exact tablesFitOf_congr (s := u) rfl (hb.error hx hs)

theorem retOutcome_keepsFit {α : Type} {body : Op α} {wrap : α → Ret} {s t : State} (hb : KeepsTables body)
    (hs : TablesFitOf c s) (h : retOutcome body wrap s = .next t) : TablesFitOf c t := by
  have hb' : KeepsFit c body := keepsFit_of_keepsTables hb
  cases hx : body s with
  | ok v u =>
    rw [retOutcome_of_ok hx] at h
    cases h
    exact tablesFitOf_congr (s := u) rfl (hb'.ok hx hs)
  | error f u =>
    rw [retOutcome_of_error hx] at h
    cases h
    exact tablesFitOf_congr (s := u) rfl (hb'.error hx hs)

/-- Every operation whose operands fit their lines keeps the widths of the tables; the operand of `TREE.INSERT` is the
one that goes into a table. -/
theorem exec_keepsFit {i : Instr} {s t : State} (hw : i.wf c = true) (hs : TablesFitOf c s)
    (h : exec i s = .next t) : TablesFitOf c t := by
  have quiet : ∀ {body : Op Unit}, KeepsTables body → opOutcome body s = .next t → TablesFitOf c t :=
    fun hb => opOutcome_keepsFit (keepsFit_of_keepsTables hb) hs
  cases i with
  | encode => exact commandOutcome_keepsFit (encodeSequence_eq_phases ▸ keepsFit_phasesFrom 9 .eInit) hs h
  | decode => exact commandOutcome_keepsFit (decodeSequence_eq_phases ▸ keepsFit_phasesFrom 4 .dInit) hs h
  | rleCollapse => exact opOutcome_keepsFit keepsFit_rleCollapse hs h
  | alphaFold => exact opOutcome_keepsFit keepsFit_alphaFold hs h
  | alphaSort => exact opOutcome_keepsFit keepsFit_alphaSort hs h
  | treeInit => exact opOutcome_keepsFit keepsFit_treeInit hs h
  | treeInsert x => exact opOutcome_keepsFit (keepsFit_treeInsert hw) hs h
  | treeCount x => exact retOutcome_keepsFit (keepsTables_treeMeasure _) hs h
  | treeHeight n => exact retOutcome_keepsFit (keepsTables_treeMeasure _) hs h
  | treeDepth n => exact retOutcome_keepsFit (keepsTables_treeMeasure _) hs h
  | treePathinfo x => exact quiet (keepsTables_treePathinfo x) h
  | treeFindvalue => exact retOutcome_keepsFit keepsTables_treeFindvalue hs h
  | bswInit => exact quiet (body := bswInit) (within_update fun _ => rfl) h
  | bswWritebit b => exact quiet (body := bswWritebit b) (within_update fun _ => rfl) h
  | bswAdvance => exact quiet keepsTables_bswAdvance h
  | bswFlush => exact quiet keepsTables_bswFlush h
  | bsrInit base => exact quiet (body := bsrInit base) (within_update fun _ => rfl) h
  | bsrReadbit => exact retOutcome_keepsFit keepsTables_bsrReadbit hs h
  | drvDepthbits => exact quiet (body := drvDepthbits) (within_update fun _ => rfl) h
  | drvHdremit => exact quiet keepsTables_drvHdremit h
  | drvRecemit => exact quiet keepsTables_drvRecemit h
  | drvTrailemit => exact quiet keepsTables_drvTrailemit h
  | drvHdrparse => exact opOutcome_keepsFit keepsFit_drvHdrparse hs h
  | drvTrailread => exact quiet keepsTables_drvTrailread h
  | drvRecread => exact quiet keepsTables_drvRecread h

theorem phaseStep_keepsFit {s : State} (hs : TablesFitOf c s) : TablesFitOf c (phaseStep s) := by
  have hbody : KeepsFit c (phaseBody s.phase) := keepsFit_phaseBody s.phase
  cases hx : phaseBody s.phase s with
  | error f t =>
    rw [phaseStep_of_error hx]
    exact tablesFitOf_congr (s := t) rfl (hbody.error hx hs)
  | ok v t =>
    by_cases hl : s.phase.succ = .idle
    · rw [phaseStep_of_last hx hl]
      exact tablesFitOf_congr (s := t) rfl (hbody.ok hx hs)
    · rw [phaseStep_of_more hx hl]
      exact tablesFitOf_congr (s := t) rfl (hbody.ok hx hs)

/-- Right after reset the tables are empty and the arena holds no symbol. -/
theorem tablesFitOf_afterReset (s : State) : TablesFitOf s.cfg s.afterReset := by
  refine ⟨rfl, ?_, Nat.zero_le _, ?_, ?_⟩
  · exact fun r hr => absurd hr List.not_mem_nil
  · exact fun l hl => absurd hl List.not_mem_nil
  · intro n hn
    rw [List.mem_singleton.mp hn]
    rfl

theorem step_keepsFit {s t : State} (hs : TablesFitOf c s) (h : step s = .next t) : TablesFitOf c t := by
  rcases step_cases h with ⟨_, rfl⟩ | ⟨_, _, _, rfl⟩ | ⟨_, u, hu, ht⟩
  · exact phaseStep_keepsFit hs
  · exact hs
  · have hfit : TablesFitOf c u := by
      rcases hu with rfl | ⟨rest, _, rfl⟩
      · exact hs
      · exact hs
    rcases ht with ⟨i, he, hw⟩ | rfl | ⟨b, rfl, _⟩ | ⟨r, rfl⟩ | rfl
    · exact exec_keepsFit (hfit.1 ▸ hw) hfit he
    · exact hfit
    · exact hfit
    · exact hfit
    · exact hfit.1 ▸ tablesFitOf_afterReset u

end

/-- Settles O57: the capacities by the induction over all writes, the widths by the one over the writes of the
tables. -/
theorem stepKeepsTablesWithinBounds : Obligations.StepKeepsTablesWithinBounds := by
  intro s t hcap hfit h
  obtain ⟨hcfg, hcap'⟩ := step_keeps_withinCapacities ⟨rfl, hcap⟩ h
  exact ⟨hcap', (step_keepsFit ⟨rfl, hfit⟩ h).2, hcfg⟩

/-! ### Reset (10_state.md R50) -/

/-- Settles O55: the buffers and the tables are empty, the arena is the empty tree, the registers are 0. -/
theorem invariantsHoldAfterReset : Obligations.InvariantsHoldAfterReset := by
  obtain ⟨htree, hbalanced⟩ := balancedArena_emptyRoot (s := State.reset) rfl
  obtain ⟨hreader, hwriter, hstatus⟩ := streamsAndStatus_reset (s := State.reset) ⟨rfl, rfl, rfl⟩ rfl rfl
  have hcap : WithinCapacities State.reset := ⟨rfl, Nat.zero_le _, rfl, rfl⟩
  exact ⟨reset_memory_canonical, hcap, (tablesFitOf_afterReset State.reset).2, htree, hbalanced, hreader, hwriter,
    hstatus, rfl, rfl⟩

end Sys2Proof.Machine
end

section
/-! PROOFS. The two address spaces: their canonical form is kept by every step, and the access primitives and the
symbols of the raw buffer are little-endian (20_memory.md R60, R63 to R68). -/

namespace Sys2Proof.Machine

/-! ### The canonical form (20_memory.md R60) -/

/-- `OutAppend` stores into a canonical `OUT`, and the other writes of `OUT` move only `OUT_LEN`; no operation writes
`IN`. -/
theorem writes_memoryCanonical : Writes (Kept MemoryCanonical) where
  toChains := kept_chains _
  append _ _ _ _ := fun ⟨hin, hout⟩ => ⟨hin, wf_store hout _ _ _⟩
  outClear _ h := h
  phase _ _ h := h
  runs _ h := h
  alpha _ _ h := h
  root _ h := h
  insert _ _ _ _ h := h
  path _ _ _ h := h
  found _ _ h := h
  writer _ h := h
  writebit _ _ h := h
  count _ _ h := h
  cursor _ _ h := h
  clear _ h := h
  reader _ _ h := h
  read s _ h := by rw [readerNext_eq]; exact h
  total _ _ h := h
  mdb _ _ h := h
  height _ _ h := h
  nsym _ _ h := h

/-- Settles O56: `OUT` is written by `OutAppend`, `IN` by a load, which builds a canonical memory, and both by a reset,
which empties them. -/
theorem stepKeepsMemoryCanonical : Obligations.StepKeepsMemoryCanonical := by
  intro s t hs h
  exact step_kept writes_memoryCanonical (hst := fun _ _ _ h => h) (hret := fun _ _ h => h) (hcmd := fun _ h => h)
    (hscr := fun _ _ h => h) (hrep := fun _ _ h => h) (hreset := fun _ _ => ⟨rfl, rfl⟩)
    (hin := fun _ b _ _ ⟨_, hout⟩ => ⟨wf_ofBytes b, hout⟩) h hs

/-! ### The access primitives (20_memory.md R63, R65) -/

theorem memRead_of_lt {a n : Nat} {s : State} (h : s.inLen.toNat < a + n) :
    memRead a n s = .error .internalInvariant s := if_neg (by omega)

theorem outAppend_of_full {n : Nat} {s : State} (v : Nat) (h : s.cfg.outFits (s.outLen + n) = false) :
    outAppend n v s = .error .outputOverflow s := if_neg (by rw [h]; decide)

/-- Byte `k` of a number, written as a shift and as a quotient (20_memory.md R65, R68). -/
theorem shiftRight_bytes (v k : Nat) : v >>> (8 * k) = v / 256 ^ k := by
  rw [Nat.shiftRight_eq_div_pow, Nat.pow_mul]

/-- Settles O11: with room the memory is that of the store, whose bytes are `read_store_same` inside the image and
`read_store_other` outside. -/
theorem outAppendStoresLittleEndian : Obligations.OutAppendStoresLittleEndian := by
  intro s n v
  refine ⟨fun hroom => ⟨s.outMem.store s.outLen n v, outAppend_of_fits v hroom, fun hwf k hk => ?_, fun a ha => ?_⟩,
    outAppend_of_full v⟩
  · rw [shiftRight_bytes]
    exact read_store_same hwf v hk
  · exact read_store_other s.outMem v ha

/-- Settles O10: inside `IN` the value is the load, which is the sum of the bytes (`leValue_eq_load`). -/
theorem memReadIsLittleEndianInsideIn : Obligations.MemReadIsLittleEndianInsideIn := by
  intro s a n
  refine ⟨fun hin => ?_, memRead_of_lt⟩
  rw [leValue_eq_load]
  exact memRead_of_le hin

/-! ### The symbols of the raw buffer (20_memory.md R64) -/

/-- Settles O12: symbol `i` is `SymRead(i)`, whose value is the load of `W` bytes at `i * W` and which has the width of a
symbol. -/
theorem rawBufferSymbolsAreLittleEndian : Obligations.RawBufferSymbolsAreLittleEndian := by
  intro s
  refine ⟨inSymbols_length s, fun i hi => ⟨s.symAt i, inSymbols_getElem? s (inSymbols_length s ▸ hi), ?_, ?_⟩⟩
  · rw [leValue_eq_load]
    exact symAt_toNat s i
  · exact of_decide_eq_true (symAt_fits s i)

end Sys2Proof.Machine
end

section
/-! PROOFS. The words of the operations: decoding inverts encoding, rows of the table decode to their operations, and the
step runs what its line decodes to (30_encoding.md R91, R92). -/

namespace Sys2Proof

/-! ### Decoding the word of an operation -/

/-- Each word has the code of its row, and the row takes its operands from the lines that `encode` puts them on; the node
line of `TREE.COUNT` is read as `none` unless its presence bit is set. -/
@[simp] theorem decodeWord_encode (i : Instr) : decodeWord (encode i) = .ok i := by
  cases i with
  | treeCount x =>
    cases x with
    | none => rfl
    | some n => rfl
  | _ => rfl

/-- Settles O3: the inverse law `decodeWord_encode`, at every operation. -/
theorem decodingTheWordOfAnOperationGivesIt : Obligations.DecodingTheWordOfAnOperationGivesIt := decodeWord_encode

/-! ### Rows of the table -/

/-- An 8-bit number is the code of its row. -/
theorem tableCode_of_lt {n : Nat} (h : n < 256) : tableCode 8 n = some (BitVec.ofNat 8 n) := by
  have hmod : n % 2 ^ 8 = n := Nat.mod_eq_of_lt h
  rw [tableCode, hmod, if_pos h]

/-- A row whose code, with every operand line at zero, is the word of an operation decodes to that operation. -/
theorem decodeTableWord_of_encode {n : Nat} {i : Instr} (h : encode i = OpWord.ofCode (BitVec.ofNat 8 n))
    (hn : n < 256 := by decide) : decodeTableWord 8 n = some i := by
  simp only [decodeTableWord, tableCode_of_lt hn, ← h, decodeWord_encode]

theorem decodeTableWord_of_error {n : Nat} {c : Byte} (h : decodeWord (OpWord.ofCode (BitVec.ofNat 8 n)) = .error c)
    (hn : n < 256 := by decide) : decodeTableWord 8 n = none := by
  simp only [decodeTableWord, tableCode_of_lt hn, h]

/-- Settles O4: each of the nine codes is that of its operation's word, 0x00 names no operation, and 0x10 is neither of the
two commands (30_encoding.md R92). -/
theorem wordsOfTheTableDecode : Obligations.WordsOfTheTableDecode :=
  ⟨decodeTableWord_of_encode rfl, decodeTableWord_of_encode rfl, decodeTableWord_of_encode rfl,
    decodeTableWord_of_encode rfl, decodeTableWord_of_encode rfl, decodeTableWord_of_encode rfl,
    decodeTableWord_of_encode rfl, decodeTableWord_of_encode rfl, decodeTableWord_of_encode rfl,
    decodeTableWord_of_error rfl, Machine.decodeCommand_illegal (by decide) (by decide)⟩

end Sys2Proof

namespace Sys2Proof.Machine

/-! ### The step at an operation's line -/

theorem performWord_of_ok {w : OpWord} {i : Instr} {s : State} (hd : decodeWord w = .ok i) (hw : i.wf s.cfg = true) :
    performWord w s = exec i s := by
  simp only [performWord, hd, if_pos hw]

/-- Settles O1: the line is taken off the script and its word performed; taking it off leaves the parameters, so the
operands still fit. -/
theorem stepRunsTheDecodedOperation : Obligations.StepRunsTheDecodedOperation := by
  intro s w i rest hp hc hs hd hw
  calc step s = performWord w (s.setScript rest) := step_of_line hp hc hs
    _ = exec i (s.setScript rest) := performWord_of_ok hd hw

end Sys2Proof.Machine
end

section
/-! PROOFS. How a stretch of one symbol is collapsed: full runs of 255, then one run of the rest (40_run_length.md
R131 b). -/

namespace Sys2Proof.Machine

/-! ### A stretch of one symbol -/

/-- An open run takes in the copies of its symbol that follow, up to the cap (40_run_length.md R130). -/
theorem runsFrom_replicate_append (x : Sym) (xs : List Sym) {n k : Nat} (h : n + k ≤ countCap) :
    runsFrom { sym := x, count := BitVec.ofNat 8 n } (List.replicate k x ++ xs) =
      runsFrom { sym := x, count := BitVec.ofNat 8 (n + k) } xs := by
  induction k generalizing n with
  | zero => rfl
  | succ k ih =>
    have hopen : (BitVec.ofNat 8 n).toNat < countCap := by
      simp only [BitVec.toNat_ofNat]
      exact Nat.lt_of_le_of_lt (Nat.mod_le n _) (by omega)
    calc runsFrom { sym := x, count := BitVec.ofNat 8 n } (List.replicate (k + 1) x ++ xs)
        = runsFrom { sym := x, count := BitVec.ofNat 8 n + 1 } (List.replicate k x ++ xs) := if_pos ⟨rfl, hopen⟩
      _ = runsFrom { sym := x, count := BitVec.ofNat 8 (n + 1) } (List.replicate k x ++ xs) := by
          rw [BitVec.ofNat_add]; rfl
      _ = runsFrom { sym := x, count := BitVec.ofNat 8 (n + (k + 1)) } xs := by
          rw [ih (by omega), Nat.add_right_comm, Nat.add_assoc]

/-- A run at the cap is closed, and the symbols behind it are collapsed afresh. -/
theorem runsFrom_full (x : Sym) (xs : List Sym) :
    runsFrom { sym := x, count := 255 } xs = { sym := x, count := 255 } :: runsOf xs := by
  cases xs with
  | nil => rfl
  | cons y ys => exact if_neg fun h => Nat.lt_irrefl countCap h.2

/-- Up to 255 copies of a symbol open a run that counts them. -/
theorem runsOf_replicate_append (x : Sym) (xs : List Sym) {k : Nat} (hpos : 0 < k) (hcap : k ≤ countCap) :
    runsOf (List.replicate k x ++ xs) = runsFrom { sym := x, count := BitVec.ofNat 8 k } xs := by
  obtain ⟨j, rfl⟩ : ∃ j, k = 1 + j := ⟨k - 1, by omega⟩
  rw [← runsFrom_replicate_append x xs hcap, Nat.add_comm]
  rfl

/-- Every 255 copies of a symbol at the front are one full run. -/
theorem runsOf_full_append (x : Sym) (xs : List Sym) (q : Nat) :
    runsOf (List.replicate (255 * q) x ++ xs) = List.replicate q { sym := x, count := 255 } ++ runsOf xs := by
  induction q with
  | zero => rfl
  | succ q ih =>
    calc runsOf (List.replicate (255 * (q + 1)) x ++ xs)
        = runsOf (List.replicate 255 x ++ (List.replicate (255 * q) x ++ xs)) := by
          rw [← List.append_assoc, ← List.replicate_add, Nat.mul_succ, Nat.add_comm]
      _ = runsFrom { sym := x, count := 255 } (List.replicate (255 * q) x ++ xs) :=
          runsOf_replicate_append x _ (by decide) (Nat.le_refl countCap)
      _ = { sym := x, count := 255 } :: (List.replicate q { sym := x, count := 255 } ++ runsOf xs) := by
          rw [runsFrom_full, ih]

/-- Fewer than 256 copies of a symbol are one run, or none. -/
theorem runsOf_replicate_of_le (x : Sym) {k : Nat} (hcap : k ≤ countCap) :
    runsOf (List.replicate k x) = if k = 0 then [] else [{ sym := x, count := BitVec.ofNat 8 k }] := by
  split
  · next h => rw [h]; rfl
  · next h =>
    have := runsOf_replicate_append x [] (Nat.pos_of_ne_zero h) hcap
    rwa [List.append_nil] at this

/-- The closed form of R131 b. -/
theorem runsOf_replicate (x : Sym) (m : Nat) :
    runsOf (List.replicate m x) = List.replicate (m / 255) { sym := x, count := 255 } ++
      if m % 255 = 0 then [] else [{ sym := x, count := BitVec.ofNat 8 (m % 255) }] := by
  have hrest : m % 255 ≤ countCap := Nat.le_of_lt (Nat.mod_lt m (by decide))
  calc runsOf (List.replicate m x)
      = runsOf (List.replicate (255 * (m / 255)) x ++ List.replicate (m % 255) x) := by
        rw [← List.replicate_add, Nat.div_add_mod]
    _ = _ := by rw [runsOf_full_append, runsOf_replicate_of_le x hrest]

/-- Settles O14: the input is one stretch, and `runsOf_replicate` collapses it. -/
theorem equalSymbolsSplitAtTheCountCap : Obligations.EqualSymbolsSplitAtTheCountCap := by
  intro s m x hin
  rw [← runsOf_replicate, ← hin]
  exact opOutcome_of_ok (rleCollapse_apply s)

end Sys2Proof.Machine
end

section
/-! PROOFS. The Alphabet Builder performed on its own, and the bound on the alphabet of a one-byte input
(41_alphabet.md R141, R142, R144). -/

namespace Sys2Proof.Machine

/-! ### `ALPHA.FOLD` and `ALPHA.SORT` (41_alphabet.md R141, R142) -/

/-- Settles O15: the loop of `ALPHA.FOLD` starts from the empty alphabet, which stands for no run folded yet, and
`foldRuns_spec` says what it makes of all the runs. -/
theorem alphaFoldSumsTheCounts : Obligations.AlphaFoldSumsTheCounts := by
  intro s
  obtain ⟨hfits, hmany⟩ := foldRuns_spec s.runs [] (s.setAlpha []) rfl (by simp) (by simp)
  refine ⟨fun h => ?_, fun h => ?_⟩
  · obtain ⟨a, ha, hsyms, hfreq⟩ := hfits h
    exact ⟨a, opOutcome_of_ok ha, hsyms, hfreq⟩
  · obtain ⟨a, ha⟩ := hmany h
    exact ⟨a, opOutcome_of_error ha⟩

/-- Settles O16: the letters are sorted by insertion, whose law is `sortLetters_spec`. -/
theorem alphaSortIsStableAndDescending : Obligations.AlphaSortIsStableAndDescending := fun s =>
  ⟨sortLetters s.alpha, opOutcome_of_ok (alphaSort_apply s), sortLetters_spec s.alpha⟩

/-! ### When ENCODE raises `InvalidAlphabetSize` (60_exceptions.md R242) -/

/-- An input of at least one symbol's bytes has a symbol (20_memory.md R64). -/
theorem inSymbols_ne_nil {s : State} (hlen : s.inLen.toNat ≠ 0) (hmod : s.inLen.toNat % s.cfg.w = 0) :
    s.inSymbols ≠ [] := by
  have hdiv : s.inLen.toNat / s.cfg.w ≠ 0 := fun h => hlen (by
    rw [← Nat.div_add_mod s.inLen.toNat s.cfg.w, h, hmod, Nat.mul_zero])
  rwa [← List.length_pos_iff, inSymbols_length, Nat.pos_iff_ne_zero]

theorem length_of_isAlphabet {xs a : List Sym} (h : IsAlphabet xs a) : a.length = xs.eraseDups.length := by
  obtain ⟨hperm, _⟩ := h
  exact hperm.length_eq

/-- The tables that the phases up to E_DEPTHBITS leave are what phase E_HEADER needs. -/
theorem encodeReady_of_tables {s : State} {l : List Letter} {t : List Node} (h0 : s.inSymbols ≠ [])
    (hle : s.inSymbols.eraseDups.length ≤ 256) (hout : s.outLen = 0) (hl : LettersOf s.inSymbols l)
    (hb : Built t (l.map (·.sym))) : EncodeReady (encodeTables s l t) (l.map (·.sym)) s.inSymbols where
  alpha := rfl
  pos := by
    obtain ⟨x, hx⟩ := List.exists_mem_of_ne_nil _ h0
    exact List.length_pos_of_mem ((isAlphabet_mem hl.order).mpr hx)
  le := length_of_isAlphabet hl.order ▸ hle
  nodup := isAlphabet_nodup hl.order
  built := hb
  mdb := by rw [List.length_map]; rfl
  runs := rfl
  mem _ := (isAlphabet_mem hl.order).mpr
  out := hout

/-- From E_RLE on, only a 257th distinct symbol raises `InvalidAlphabetSize`: from E_HEADER on the faults are the
writer's. -/
theorem many_symbols_of_encodeMiddle {s u : State} (h0 : s.inSymbols ≠ []) (hout : s.outLen = 0)
    (h : encodeMiddle s = .error .invalidAlphabetSize u) : 256 < s.inSymbols.eraseDups.length := by
  rcases encodeMiddle_cases h0 with ⟨hle, l, t, hl, hb, he⟩ | ⟨hmany, _⟩
  · rw [he] at h
    have hready := encodeReady_of_tables h0 hle hout hl hb
    rcases encodeBack_cases hready with ⟨_, _, v, hv, _⟩ | ⟨_, v, hv⟩ | ⟨_, _, v, hv⟩
    · cases hv.symm.trans h
    · cases hv.symm.trans h
    · cases hv.symm.trans h
  · exact hmany

/-- `ENCODE` raises `InvalidAlphabetSize` for no other reason than more than 256 distinct symbols. -/
theorem many_symbols_of_encode {s u : State} (h : encodeSequence s = .error .invalidAlphabetSize u) :
    256 < s.inSymbols.eraseDups.length := by
  rw [encodeSequence_eq] at h
  rcases encodeInit_cases (s.setPhase .eInit) with ⟨_, he⟩ | ⟨_, _, he⟩ | ⟨hlen, hmod, he⟩
  · cases (bind_of_error he).symm.trans h
  · cases (bind_of_error he).symm.trans h
  · rw [bind_of_ok he] at h
    have hsyms : ((s.setPhase .eInit).setOut s.outMem 0).inSymbols = s.inSymbols := inSymbols_congr rfl rfl rfl
    rw [← hsyms]
    exact many_symbols_of_encodeMiddle (hsyms ▸ inSymbols_ne_nil (s := s) hlen hmod) rfl h

/-! ### One byte per symbol (41_alphabet.md R144) -/

/-- Pigeonhole: symbols below `n` have at most `n` distinct values. -/
theorem eraseDups_length_le {n : Nat} {xs : List Sym} (h : ∀ x ∈ xs, x.toNat < n) : xs.eraseDups.length ≤ n := by
  have hnodup : (xs.eraseDups.map BitVec.toNat).Nodup :=
    (eraseDups_nodup _ xs (Nat.le_refl _)).map fun _ _ => BitVec.eq_of_toNat_eq
  have hsub : xs.eraseDups.map BitVec.toNat ⊆ List.range n := by
    intro v hv
    obtain ⟨x, hx, rfl⟩ := List.mem_map.mp hv
    exact List.mem_range.mpr (h x (List.mem_eraseDups.mp hx))
  simpa using (List.subperm_of_subset hnodup hsub).length_le

/-- A raw buffer of one-byte symbols has at most 256 distinct ones. -/
theorem oneByte_distinct_le {s : State} (hw : s.cfg.width = .one) : s.inSymbols.eraseDups.length ≤ 256 := by
  refine eraseDups_length_le fun x hx => ?_
  have hfits : x.toNat < 2 ^ (8 * s.cfg.width.bytes) := of_decide_eq_true (inSymbols_fits s x hx)
  rwa [hw] at hfits

/-- A command leaves a fault's code in `STATUS` only when its sequence raised that fault (60_exceptions.md R250). -/
theorem error_of_commandOutcome {body : Op Unit} {s t : State} {f : FaultCode} (h : commandOutcome body s = .next t)
    (ht : t.status = statusErr f) : ∃ u, body s = .error f u := by
  cases hx : body s with
  | ok v u =>
    rw [commandOutcome_of_ok hx] at h
    cases h
    exact absurd ht.symm (statusErr_ne_statusOk f)
  | error g u =>
    rw [commandOutcome_of_error hx] at h
    cases h
    rw [← statusErr_inj ht]
    exact ⟨u, rfl⟩

/-- Settles O47: the fault needs more than 256 distinct symbols, and one byte has 256 values. -/
theorem oneByteAlphabetsNeverOverflow : Obligations.OneByteAlphabetsNeverOverflow := by
  intro s t hw h hstatus
  obtain ⟨u, hu⟩ := error_of_commandOutcome h hstatus
  exact absurd (oneByte_distinct_le hw) (Nat.not_le.mpr (many_symbols_of_encode hu))

end Sys2Proof.Machine
end

section
/-! PROOFS. The Balanced Path Tree, performed on its own and built from a list of symbols: the measures obey their
recursions, an insert adds the leaf its descent leads to, and the built tree is the one of the closed form
(42_path_tree.md R151 to R158). -/

namespace Sys2Proof.Machine

/-! ### `TREE.INIT` and `TREE.INSERT`, performed on their own (42_path_tree.md R151, R152) -/

theorem exec_init (s : State) : exec .treeInit s = .next (s.setNodes [emptyRoot]) := rfl

theorem exec_insert {s : State} {x : Sym} {u : List Node} (h : insertNode s.nodes x = some u) :
    exec (.treeInsert x) s = .next (s.setNodes u) := by
  have he : treeInsert x s = .ok () (s.setNodes u) := by simp only [treeInsert, h]
  exact opOutcome_of_ok he

theorem exec_insert_of_none {s : State} {x : Sym} (h : insertNode s.nodes x = none) :
    exec (.treeInsert x) s = .next (faultEntry .internalInvariant s) := by
  have he : treeInsert x s = .error .internalInvariant s := by simp only [treeInsert, h]
  exact opOutcome_of_error he

/-- The first insert only gives the root its value. -/
theorem insertNode_emptyRoot {root : Node} (rest : List Node) (x : Sym) (hv : root.val = none) :
    insertNode (root :: rest) x = some ({ root with val := some x } :: rest) := by
  simp [insertNode, hv]

/-- With a filled root an insert is a descent and an attachment. -/
theorem insertNode_filledRoot {t : List Node} (h : TreeOk t) (hroot : ∀ root, t[0]? = some root → root.val ≠ none)
    (x : Sym) : ∃ p right, Descends t 0 p right ∧ insertNode t x = attach t p right x := by
  rcases insertNode_cases h x with ⟨root, hr, hv, _⟩ | ⟨_, p, right, _, _, hD, he⟩
  · exact absurd hv (hroot root hr)
  · exact ⟨p, right, hD, he⟩

/-- Settles O17: an empty root is filled in place, whatever stands behind it. -/
theorem initAndFirstInsertFillTheRoot : Obligations.InitAndFirstInsertFillTheRoot := by
  intro s
  refine ⟨exec_init s, fun x root rest hs hv => exec_insert ?_⟩
  rw [hs]
  exact insertNode_emptyRoot rest x hv

/-- Settles O18: of the two outcomes of an attachment, the number of nodes decides which one it is. -/
theorem laterInsertAddsALeafWhereItDescends : Obligations.LaterInsertAddsALeafWhereItDescends := by
  intro s x h hroot
  obtain ⟨p, right, hD, hins⟩ := insertNode_filledRoot h hroot x
  rcases attach_cases s.nodes p right x with ⟨hfull, ha⟩ | ⟨hroom, t, ha, hlen, hnew, hpar, hother⟩
  · exact ⟨fun hlt => absurd hfull hlt.ne, fun _ => exec_insert_of_none (hins.trans ha)⟩
  · exact ⟨fun _ => ⟨p, right, t, hD, exec_insert (hins.trans ha), hlen, hnew, hpar, hother⟩,
      fun hfull => absurd hfull hroom⟩

/-! ### The measures, performed on their own (42_path_tree.md R153 to R155) -/

/-- Settles O19: both slots of a node of a tree have a count (`countOf_slot`), and the node's follows from them. -/
theorem treeCountCountsTheSubtree : Obligations.TreeCountCountsTheSubtree := by
  intro s
  refine ⟨exec_count (countOf_none _), fun n nd h hn => ?_⟩
  obtain ⟨a, ha⟩ := countOf_slot h hn (.inl rfl)
  obtain ⟨b, hb⟩ := countOf_slot h hn (.inr rfl)
  exact ⟨a, b, exec_count ha, exec_count hb, exec_count (countOf_succ h hn ha hb)⟩

theorem heightOf_leaf {t : List Node} (h : TreeOk t) {n : Nat} {nd : Node} (hn : t[n]? = some nd)
    (hl : nd.left = none) : heightOf t n = some 0 := by
  simp [heightOf_succ h hn, hl, treeOk_left h hn hl]

theorem heightOf_leftOnly {t : List Node} (h : TreeOk t) {n l a : Nat} {nd : Node} (hn : t[n]? = some nd)
    (hl : nd.left = some l) (hr : nd.right = none) (ha : heightOf t l = some a) : heightOf t n = some (1 + a) := by
  simp [heightOf_succ h hn, hl, hr, ha]

theorem heightOf_bothChildren {t : List Node} (h : TreeOk t) {n l r a b : Nat} {nd : Node} (hn : t[n]? = some nd)
    (hl : nd.left = some l) (hr : nd.right = some r) (ha : heightOf t l = some a) (hb : heightOf t r = some b) :
    heightOf t n = some (1 + max a b) := by
  simp [heightOf_succ h hn, hl, hr, ha, hb]

/-- Settles O20: the height has a value, and each shape of the node says which. -/
theorem treeHeightIsTheLongestWayDown : Obligations.TreeHeightIsTheLongestWayDown := by
  intro s n nd h hn
  obtain ⟨v, hv⟩ := heightOf_node h (List.getElem?_eq_some_iff.mp hn).1
  have hchild : ∀ {c}, nd.left = some c ∨ nd.right = some c → ∃ a, heightOf s.nodes c = some a := fun hc =>
    heightOf_node h (treeOk_child h hn hc).2.1
  have hvalue : ∀ {w}, heightOf s.nodes n = some w → v = w := fun hw => Option.some.inj (hv.symm.trans hw)
  refine ⟨v, exec_height hv, fun hl => hvalue (heightOf_leaf h hn hl), fun l hl hr => ?_, fun l r hl hr => ?_⟩
  · obtain ⟨a, ha⟩ := hchild (.inl hl)
    exact ⟨a, exec_height ha, hvalue (heightOf_leftOnly h hn hl hr ha)⟩
  · obtain ⟨a, ha⟩ := hchild (.inl hl)
    obtain ⟨b, hb⟩ := hchild (.inr hr)
    exact ⟨a, b, exec_height ha, exec_height hb, hvalue (heightOf_bothChildren h hn hl hr ha hb)⟩

/-- Settles O21, by whether the node is the root. -/
theorem treeDepthCountsParents : Obligations.TreeDepthCountsParents := by
  intro s n nd h hn
  refine ⟨fun h0 => ?_, fun h0 => ?_⟩
  · subst h0
    exact exec_depth (depthOf_zero h)
  · obtain ⟨a, ha, hd⟩ := depthOf_succ h hn h0
    exact ⟨a, exec_depth ha, exec_depth hd⟩

/-! ### The tree of a list of symbols (42_path_tree.md R156 to R158) -/

/-- Inserts into a built tree build the tree of the longer list, by induction on the inserts (`built_insert`). -/
theorem runOps_inserts (xs : List Sym) : ∀ {ys : List Sym} {s : State}, ys ≠ [] → Built s.nodes ys →
    ys.length + xs.length ≤ 256 →
    ∃ t, runOps (xs.map .treeInsert) s = .next (s.setNodes t) ∧ Built t (ys ++ xs) := by
  induction xs with
  | nil => intro ys s _ hb _; exact ⟨s.nodes, rfl, by simpa using hb⟩
  | cons x xs ih =>
    intro ys s h0 hb hlen
    simp only [List.length_cons] at hlen
    obtain ⟨u, hu, hbu⟩ := built_insert hb h0 (by omega) x
    obtain ⟨t, ht, hbt⟩ := ih (s := s.setNodes u) (by simp) hbu (by simp; omega)
    exact ⟨t, (runOps_insert hu).trans ht, by simpa using hbt⟩

/-- `TREE.INIT` and the inserts of 1 to 256 symbols build their tree and write nothing else. -/
theorem runOps_build (s : State) {xs : List Sym} (h1 : 1 ≤ xs.length) (h256 : xs.length ≤ 256) :
    ∃ t, runOps (.treeInit :: xs.map .treeInsert) s = .next (s.setNodes t) ∧ Built t xs := by
  cases xs with
  | nil => simp at h1
  | cons x xs =>
    obtain ⟨hfirst, hb⟩ := built_first x
    obtain ⟨t, ht, hbt⟩ := runOps_inserts xs (s := s.setNodes [{ emptyRoot with val := some x }]) (by simp) hb
      (by simpa [Nat.add_comm] using h256)
    refine ⟨t, ?_, hbt⟩
    calc runOps (.treeInit :: (x :: xs).map .treeInsert) s
        = runOps (.treeInsert x :: xs.map .treeInsert) (s.setNodes [emptyRoot]) := rfl
      _ = runOps (xs.map .treeInsert) (s.setNodes [{ emptyRoot with val := some x }]) := runOps_insert hfirst
      _ = .next (s.setNodes t) := ht

/-- The depth of the symbol inserted `k`-th is the length of its path. -/
theorem depthOf_built {t : List Node} {xs : List Sym} (hb : Built t xs) {k : Nat} (hk : k < xs.length) :
    depthOf t k = some (rankDepth k) := by
  simpa using depthOf_follow hb.ok (depthOf_zero hb.ok) (hb.path k hk)

/-- Settles O22: what `Built` says of node `k`. -/
theorem insertedSymbolsHaveTheirClosedFormPositions : Obligations.InsertedSymbolsHaveTheirClosedFormPositions := by
  intro s xs h1 h256
  obtain ⟨t, hrun, hb⟩ := runOps_build s h1 h256
  exact ⟨t, hrun, hb.size, fun k hk =>
    ⟨hb.val k hk, rankPath_length k, hb.path k hk, exec_depth (depthOf_built hb hk)⟩⟩

/-- The height of a built tree is `floor(log2(m))` (42_path_tree.md R157). -/
theorem heightOf_built {t : List Node} {xs : List Sym} (hb : Built t xs) : heightOf t 0 = some (Nat.log2 xs.length) :=
  heightOf_balanced hb.ok hb.balanced _ 0 _ hb.ok.1 (Nat.le_refl _) hb.count

theorem log2_le_eight {n : Nat} (h1 : 1 ≤ n) (h256 : n ≤ 256) : Nat.log2 n ≤ 8 := by
  have hlt : Nat.log2 n < 9 := (Nat.log2_lt (by omega)).mpr (by omega)
  omega

/-- In a balanced tree the counts of the two slots of a node are equal or the left one is one more
(42_path_tree.md R158). -/
theorem countOf_slots_balanced {t : List Node} (h : TreeOk t) (hbal : TreeBalanced t) {nd : Node} (hnd : nd ∈ t) :
    ∃ a b, countOf t nd.left = some a ∧ countOf t nd.right = some b ∧ (a = b ∨ a = b + 1) := by
  obtain ⟨n, hn⟩ := List.mem_iff_getElem?.mp hnd
  obtain ⟨a, ha⟩ := countOf_slot h hn (.inl rfl)
  obtain ⟨b, hb⟩ := countOf_slot h hn (.inr rfl)
  have hcounts := hbal nd hnd
  rw [ha, hb] at hcounts
  exact ⟨a, b, ha, hb, hcounts⟩

/-- Settles O23: a built tree is balanced at every node, and its height is that of a balanced tree of so many nodes. -/
theorem builtTreesAreBalanced : Obligations.BuiltTreesAreBalanced := by
  intro s xs h1 h256
  obtain ⟨t, hrun, hb⟩ := runOps_build s h1 h256
  refine ⟨t, hrun, hb.ok, exec_height (heightOf_built hb), log2_le_eight h1 h256, fun nd hnd _ _ => ?_⟩
  obtain ⟨a, b, hleft, hright, hab⟩ := countOf_slots_balanced hb.ok hb.balanced hnd
  exact ⟨a, b, exec_count hleft, exec_count hright, hab⟩

end Sys2Proof.Machine
end

section
/-! PROOFS. The Path Codec, performed on its own: what `TREE.PATHINFO` finds, where `TREE.FINDVALUE` walks, and that each
inverts the other in a tree of pairwise distinct symbols (43_path_codec.md R170 to R174). -/

namespace Sys2Proof.Machine

/-! ### `TREE.PATHINFO`, performed on its own (43_path_codec.md R170, R172) -/

theorem exec_pathinfo {s t : State} {x : Sym} (h : treePathinfo x s = .ok () t) :
    exec (.treePathinfo x) s = .next t := opOutcome_of_ok h

/-- Where a node holds the symbol, the search has a first one to find (43_path_codec.md R172 b). -/
theorem treePathinfo_of_held {s : State} (h : TreeOk s.nodes) {n : Nat} {x : Sym}
    (hx : (s.nodes[n]?).bind (·.val) = some x) :
    ∃ p m, treePathinfo x s = .ok () ((s.setFound true).setPath p.length p) ∧ follow s.nodes 0 p = some m ∧
      (s.nodes[m]?).bind (·.val) = some x ∧
      ∀ q j, follow s.nodes 0 q = some j → (s.nodes[j]?).bind (·.val) = some x → noLater p q = true := by
  rcases treePathinfo_cases h x with hfound | ⟨_, habsent⟩
  · exact hfound
  · obtain ⟨nd, hn, hv⟩ := Option.bind_eq_some_iff.mp hx
    exact absurd hv (habsent nd (List.mem_of_getElem? hn))

/-- Where no node holds the symbol, no path can lead to one that does (43_path_codec.md R172 a). -/
theorem treePathinfo_of_absent {s : State} (h : TreeOk s.nodes) {x : Sym} (hx : ∀ nd ∈ s.nodes, nd.val ≠ some x) :
    treePathinfo x s = .ok () ((s.setFound false).setPath 0 []) := by
  rcases treePathinfo_cases h x with ⟨_, m, _, _, hm, _⟩ | ⟨hnone, _⟩
  · obtain ⟨nd, hn, hv⟩ := Option.bind_eq_some_iff.mp hm
    exact absurd hv (hx nd (List.mem_of_getElem? hn))
  · exact hnone

/-- Settles O24: the search of a tree is complete (`treePathinfo_of_held`). -/
theorem pathinfoFindsAHeldSymbol : Obligations.PathinfoFindsAHeldSymbol := by
  intro s x n nd h hn hv
  obtain ⟨p, k, hp, hreach, hval, hfirst⟩ := treePathinfo_of_held h (Option.bind_eq_some_iff.mpr ⟨nd, hn, hv⟩)
  exact ⟨p, k, exec_pathinfo hp, hreach, hval, hfirst⟩

/-- Settles O25: the search of a tree is sound (`treePathinfo_of_absent`). -/
theorem pathinfoReportsAnAbsentSymbol : Obligations.PathinfoReportsAnAbsentSymbol :=
  fun _ _ h hx => exec_pathinfo (treePathinfo_of_absent h hx)

/-! ### `TREE.FINDVALUE`, performed on its own (43_path_codec.md R171) -/

theorem exec_findvalue {s : State} {x : Sym} (h : treeFindvalue s = .ok x s) :
    exec .treeFindvalue s = .next (s.setRet (.sym x)) := retOutcome_of_ok h

theorem exec_findvalue_of_error {s : State} {f : FaultCode} (h : treeFindvalue s = .error f s) :
    exec .treeFindvalue s = .next (faultEntry f s) := retOutcome_of_error h

/-- The path register leads to the symbol. -/
theorem exec_findvalue_of_follow {s : State} {n : Nat} {x : Sym}
    (hf : follow s.nodes 0 (pathField s.piPath s.piDepth) = some n) (hx : (s.nodes[n]?).bind (·.val) = some x) :
    exec .treeFindvalue s = .next (s.setRet (.sym x)) := by
  obtain ⟨nd, hn, hv⟩ := Option.bind_eq_some_iff.mp hx
  have hwalk := treeFindvalue_of_follow hf hn
  rw [hv] at hwalk
  exact exec_findvalue hwalk

/-- Settles O26, by where the first `PI_DEPTH` bits lead: to a symbol, to an absent child, to an empty node. -/
theorem findvalueWalksThePath : Obligations.FindvalueWalksThePath := by
  refine fun s => ⟨fun n x => exec_findvalue_of_follow, fun h hf => ?_, fun n nd hf hn hv => ?_⟩
  · rcases treeFindvalue_cases h with ⟨m, x, hreach, _⟩ | ⟨_, hfault⟩
    · cases hf.symm.trans hreach
    · exact exec_findvalue_of_error hfault
  · have hwalk := treeFindvalue_of_follow hf hn
    rw [hv] at hwalk
    exact exec_findvalue_of_error hwalk

/-! ### The inverse laws (43_path_codec.md R173, R174) -/

/-- A path written to the register with its own length is the path the walk takes. -/
theorem exec_findvalue_of_setPath {s : State} {p : List Bool} {m : Nat} {x : Sym}
    (hf : follow s.nodes 0 p = some m) (hx : (s.nodes[m]?).bind (·.val) = some x) :
    exec .treeFindvalue (s.setPath p.length p) = .next ((s.setPath p.length p).setRet (.sym x)) := by
  refine exec_findvalue_of_follow (n := m) ?_ hx
  rw [setPath_nodes, setPath_piPath, setPath_piDepth, pathField_self]
  exact hf

/-- Settles O27: `TREE.FINDVALUE` walks the path that `TREE.PATHINFO` found. -/
theorem findvalueInvertsPathinfo : Obligations.FindvalueInvertsPathinfo := by
  intro s x n nd h _ hn hv
  obtain ⟨p, m, hp, hreach, hval, _⟩ := treePathinfo_of_held h (Option.bind_eq_some_iff.mpr ⟨nd, hn, hv⟩)
  exact ⟨_, exec_pathinfo hp, rfl, exec_findvalue_of_setPath (s := s.setFound true) hreach hval⟩

/-- With distinct symbols every path to a symbol is the one that `TREE.PATHINFO` finds: one node holds the symbol, and one
path leads to it. -/
theorem treePathinfo_of_follow {s : State} (h : TreeOk s.nodes) (hd : DistinctSymbols s.nodes) {q : List Bool} {n : Nat}
    {x : Sym} (hq : follow s.nodes 0 q = some n) (hx : (s.nodes[n]?).bind (·.val) = some x) :
    treePathinfo x s = .ok () ((s.setFound true).setPath q.length q) := by
  obtain ⟨p, m, hp, hreach, hval, _⟩ := treePathinfo_of_held h hx
  have hnode : m = n := distinct_unique hd hval hx
  subst hnode
  have hpath : p = q := follow_unique h (m + 1) m (Nat.lt_succ_self m) p q hreach hq
  rw [hp, hpath]

@[simp] theorem pathField_length (p : List Bool) (d : Nat) : (pathField p d).length = d := by simp [pathField]

theorem pathField_getD {p : List Bool} {d i : Nat} (hi : i < d) : (pathField p d).getD i false = p.getD i false := by
  simp [pathField, hi]

/-- Settles O28: `TREE.PATHINFO` finds the path the register holds, `pathField s.piPath s.piDepth`, by
`treePathinfo_of_follow`. -/
theorem pathinfoInvertsFindvalue : Obligations.PathinfoInvertsFindvalue := by
  intro s x n h hd hf hx
  refine ⟨exec_findvalue_of_follow hf hx, _, exec_pathinfo (treePathinfo_of_follow h hd hf hx), rfl, ?_, fun i hi => ?_⟩
  · exact pathField_length s.piPath s.piDepth
  · exact pathField_getD hi

end Sys2Proof.Machine
end

section
/-! PROOFS. The Bit Stream Writer and Reader, performed on their own: what each operation does to its registers, what a
sequence of puts leaves in `OUT`, and that the reader returns what the writer packed (44_bitstream.md R180 to R188). -/

namespace Sys2Proof.Machine

/-! ### The writer, one operation at a time (44_bitstream.md R180 to R183) -/

/-- Settles O29: both operations are one register update. -/
theorem streamInitsClearTheirRegisters : Obligations.StreamInitsClearTheirRegisters := fun _ _ => ⟨rfl, rfl⟩

/-- Settles O30: the byte is `withBit`, whose bits are given by `withBit_getLsbD`. -/
theorem writebitSetsTheBitAtTheCursor : Obligations.WritebitSetsTheBitAtTheCursor := by
  refine fun s b => ⟨withBit s.wbyte s.wcur b, rfl, ?_, fun j hj hne => ?_⟩
  · rw [withBit_getLsbD _ _ _ _ s.wcur.isLt, if_pos rfl]
  · rw [withBit_getLsbD _ _ _ _ hj, if_neg hne]

/-- A bit counted, the largest count not being reached. -/
theorem tbits_succ_toNat {s : State} (h : s.tbits.toNat ≠ 2 ^ 32 - 1) : (s.tbits + 1).toNat = s.tbits.toNat + 1 :=
  BitVec.toNat_add_of_lt (by have := s.tbits.isLt; change s.tbits.toNat + 1 < 2 ^ 32; omega)

/-- The cursor moved inside the byte. -/
theorem wcur_succ_toNat {s : State} (h : s.wcur.toNat ≠ 7) : (s.wcur + 1).toNat = s.wcur.toNat + 1 :=
  BitVec.toNat_add_of_lt (by have := s.wcur.isLt; change s.wcur.toNat + 1 < 2 ^ 3; omega)

/-- `BSW.ADVANCE` in one expression (44_bitstream.md R182). -/
theorem bswAdvance_eq (s : State) : bswAdvance s =
    if s.tbits.toNat = 2 ^ 32 - 1 then .error .bitCountOverflow s
    else if s.wcur.toNat = 7 then
      if s.cfg.outFits (s.outLen + 1) = true then
        .ok () ((s.setOut (s.outMem.write s.outLen s.wbyte) (s.outLen + 1)).setWriter 0 0 (s.tbits + 1))
      else .error .outputOverflow (s.setWriter s.wbyte s.wcur (s.tbits + 1))
    else .ok () (s.setWriter s.wbyte (s.wcur + 1) (s.tbits + 1)) := by
  rcases bswAdvance_cases s with ⟨hfull, h⟩ | ⟨hcount, hcur, h⟩ | ⟨hcount, hcur, hfit, h⟩ | ⟨hcount, hcur, hfit, h⟩
  · rw [h, if_pos hfull]
  · rw [h, if_neg hcount, if_neg hcur]
  · rw [h, if_neg hcount, if_pos hcur, if_pos hfit]
  · rw [h, if_neg hcount, if_pos hcur, if_neg (Bool.eq_false_iff.mp hfit)]

/-- `BSW.FLUSH` in one expression (44_bitstream.md R183). -/
theorem bswFlush_eq (s : State) : bswFlush s =
    if s.wcur.toNat = 0 then .ok () s
    else if s.cfg.outFits (s.outLen + 1) = true then
      .ok () ((s.setOut (s.outMem.write s.outLen s.wbyte) (s.outLen + 1)).setWriter 0 0 s.tbits)
    else .error .outputOverflow s := by
  rcases bswFlush_cases s with ⟨hcur, h⟩ | ⟨hcur, hfit, h⟩ | ⟨hcur, hfit, h⟩
  · rw [h, if_pos hcur]
  · rw [h, if_neg hcur, if_pos hfit]
  · rw [h, if_neg hcur, if_neg (Bool.eq_false_iff.mp hfit)]

theorem exec_advance {s t : State} (h : bswAdvance s = .ok () t) : exec .bswAdvance s = .next t := opOutcome_of_ok h

theorem exec_advance_of_error {s t : State} {f : FaultCode} (h : bswAdvance s = .error f t) :
    exec .bswAdvance s = .next (faultEntry f t) := opOutcome_of_error h

theorem exec_flush {s t : State} (h : bswFlush s = .ok () t) : exec .bswFlush s = .next t := opOutcome_of_ok h

theorem exec_flush_of_error {s t : State} {f : FaultCode} (h : bswFlush s = .error f t) :
    exec .bswFlush s = .next (faultEntry f t) := opOutcome_of_error h

/-- Settles O31, by the branches of `bswAdvance_eq`. -/
theorem advanceCountsAndFlushesFullBytes : Obligations.AdvanceCountsAndFlushesFullBytes := by
  refine fun s => ⟨fun hfull => ?_, fun hcount hcur => ?_, fun hcount hcur hfit => ?_, fun hcount hcur hfit => ?_⟩
  · exact exec_advance_of_error (by rw [bswAdvance_eq, if_pos hfull])
  · exact ⟨_, exec_advance (by rw [bswAdvance_eq, if_neg hcount, if_neg hcur]), rfl, wcur_succ_toNat hcur,
      tbits_succ_toNat hcount⟩
  · exact ⟨_, exec_advance (by rw [bswAdvance_eq, if_neg hcount, if_pos hcur, if_pos hfit]), rfl, tbits_succ_toNat hcount,
      fun hwf => read_write_same hwf _ _, fun _ ha => read_write_other _ _ ha⟩
  · exact ⟨_, exec_advance_of_error (t := s.setWriter s.wbyte s.wcur (s.tbits + 1))
      (by rw [bswAdvance_eq, if_neg hcount, if_pos hcur, if_neg (Bool.eq_false_iff.mp hfit)])⟩

/-- Settles O32, by the branches of `bswFlush_eq`. -/
theorem flushAppendsAPartialByte : Obligations.FlushAppendsAPartialByte := by
  intro s
  have hzero : s.wcur = 0 ↔ s.wcur.toNat = 0 := BitVec.toNat_inj.symm
  rw [ne_eq, hzero]
  refine ⟨fun hcur => ?_, fun hcur hfit => ?_, fun hcur hfit => ?_⟩
  · exact exec_flush (by rw [bswFlush_eq, if_pos hcur])
  · exact ⟨_, exec_flush (by rw [bswFlush_eq, if_neg hcur, if_pos hfit]), rfl, fun hwf => read_write_same hwf _ _,
      fun _ ha => read_write_other _ _ ha⟩
  · exact exec_flush_of_error (by rw [bswFlush_eq, if_neg hcur, if_neg (Bool.eq_false_iff.mp hfit)])

/-! ### Puts after `BSW.INIT` (44_bitstream.md R185) -/

/-- With room for their full bytes, puts into a fresh writer complete. -/
theorem runOps_init_puts {s : State} {bits : List Bool} (hn : bits.length < 2 ^ 32)
    (hfit : s.cfg.outFits (s.outLen + bits.length / 8) = true) :
    ∃ t, runOps (.bswInit :: putOps bits) s = .next t ∧ PutsTo (s.setWriter 0 0 0) bits t := by
  obtain ⟨t, hrun, hputs⟩ := puts_ok bits (s.setWriter 0 0 0) (by simpa using hn) (by simpa using hfit)
  exact ⟨t, runOps_puts bits hrun, hputs⟩

/-- Settles O33: `puts_init` reads the bytes, the registers and the frame off `PutsTo`. -/
theorem putsPackBitsLeastSignificantFirst : Obligations.PutsPackBitsLeastSignificantFirst := by
  intro s bits hn hwf hfit
  obtain ⟨t, hrun, hputs⟩ := runOps_init_puts hn hfit
  obtain ⟨hbyte, hcur, hcount, hlen, hbytes, hother, hframe⟩ := puts_init hputs
  refine ⟨t.outMem, ?_, hbytes hwf, hother⟩
  rw [← hbyte, ← hcur, ← hcount, ← hlen, ← hframe]
  exact hrun

/-! ### The reader, one bit (44_bitstream.md R187) -/

/-- Settles O34: a placed reader reads the stream bit of its count and is placed again one bit on. -/
theorem readbitReturnsTheNextStreamBit : Obligations.ReadbitReturnsTheNextStreamBit := by
  refine fun s => ⟨fun hleft hplaced hinside => ?_, fun hend => ?_⟩
  · have htotal := s.rtotal.isLt
    obtain ⟨hplaced', hcount⟩ := readerNext_placed hplaced (by omega)
    refine ⟨_, retOutcome_of_ok (bsrReadbit_of_placed hplaced hleft hinside), ?_, hcount, hplaced'⟩
    rw [readerNext_eq]
    rfl
  · rcases bsrReadbit_cases s with ⟨hleft, _⟩ | ⟨_, hfault⟩
    · omega
    · exact retOutcome_of_error hfault

/-! ### The mirror law (44_bitstream.md R188) -/

theorem streamed_of_putsTo {s t : State} {bits : List Bool} (hn : bits.length < 2 ^ 32)
    (h : PutsTo (s.setWriter 0 0 0) bits t) : Streamed s.outMem s.outLen bits t := by
  obtain ⟨hbyte, hcur, hcount, hlen, hbytes, hother, _⟩ := puts_init h
  refine ⟨hlen, ?_, hbyte, ?_, h.wf, hbytes, hother⟩
  · rw [hcur, BitVec.toNat_ofNat]; omega
  · rw [hcount, BitVec.toNat_ofNat]; omega

/-- With room for all their bytes, puts into a fresh writer and a flush leave the packed bits in `OUT`
(44_bitstream.md R183, R185). -/
theorem runOps_init_puts_flush {s : State} {bits : List Bool} (hn : bits.length < 2 ^ 32) (hwf : s.outMem.wf = true)
    (hfit : s.cfg.outFits (s.outLen + ceilDiv8 bits.length) = true) :
    ∃ t, runOps (.bswInit :: putOps bits ++ [.bswFlush]) s = .next t ∧
      t.outLen = s.outLen + ceilDiv8 bits.length ∧ t.outMem.bytes s.outLen (ceilDiv8 bits.length) = packBits bits := by
  obtain ⟨t, hrun, hputs⟩ := runOps_init_puts hn (outFits_mono hfit (by unfold ceilDiv8; omega))
  have hcfg : t.cfg = s.cfg := by rw [hputs.frame]; rfl
  rcases bswFlush_streamed (streamed_of_putsTo hn hputs) with ⟨_, m, hflush, hbytes, _⟩ | ⟨hfull, _⟩
  · refine ⟨(t.setOut m (s.outLen + ceilDiv8 bits.length)).setWriter 0 0 t.tbits, ?_, rfl, (hbytes hwf).2⟩
    rw [runOps_append, hrun]
    simp only [runOps, exec_flush hflush]
  · rw [hcfg, hfit] at hfull
    cases hfull

/-- Equal bytes at two places are the same byte sequence. -/
theorem bytes_congr_shift {m m' : Memory} {a b n : Nat} (h : ∀ k < n, m.read (a + k) = m'.read (b + k)) :
    m.bytes a n = m'.bytes b n := by
  refine List.ext_getElem? fun k => ?_
  by_cases hk : k < n
  · rw [bytes_getElem? m hk, bytes_getElem? m' hk, h k hk]
  · rw [List.getElem?_eq_none (by simpa using hk), List.getElem?_eq_none (by simpa using hk)]

/-- Byte `k` of packed bits holds bits `8k .. 8k + 7` (30_encoding.md R99). -/
theorem read_of_packed {m : Memory} {base : Nat} {bits : List Bool}
    (h : m.bytes base (ceilDiv8 bits.length) = packBits bits) {k : Nat} (hk : k < ceilDiv8 bits.length) :
    m.read (base + k) = BitVec.ofNat 8 (bitsToNat ((bits.drop (8 * k)).take 8)) := by
  have hget := bytes_getElem? m (a := base) hk
  rw [h] at hget
  simpa [packBits, hk] using hget.symm

/-- Bit `j` of a stream of packed bits is bit `j` of them (20_memory.md R69). -/
theorem streamBit_of_packed {m : Memory} {base : Nat} {bits : List Bool}
    (h : m.bytes base (ceilDiv8 bits.length) = packBits bits) {j : Nat} (hj : j < bits.length) :
    streamBit m base j = bits[j] := by
  have hbyte : j / 8 < ceilDiv8 bits.length := by unfold ceilDiv8; omega
  have hplace : 8 * (j / 8) + j % 8 = j := Nat.div_add_mod j 8
  have hbit : j % 8 < 8 := Nat.mod_lt j (by decide)
  rw [streamBit, read_of_packed h hbyte, ofNat_bits _ _ hbit]
  simp [hbit, hplace, hj]

theorem streamBits_of_packed {m : Memory} {base : Nat} {bits : List Bool}
    (h : m.bytes base (ceilDiv8 bits.length) = packBits bits) : streamBits m base 0 bits.length = bits := by
  refine List.ext_getElem (streamBits_length m base 0 bits.length) fun j _ hj => ?_
  simp only [streamBits, List.getElem_map, List.getElem_range, Nat.zero_add]
  exact streamBit_of_packed h hj

/-- A reader started at `base` returns the first `n` bits of the stream there (44_bitstream.md R186, R187). -/
theorem readOps_of_init {u : State} {base : BitVec 32} {n : Nat} (hn : n ≤ u.rtotal.toNat)
    (hin : base.toNat + ceilDiv8 n ≤ u.inLen.toNat) :
    ∃ v w, exec (.bsrInit base) u = .next v ∧ readOps n v = some (streamBits u.inMem base.toNat 0 n, w) := by
  obtain ⟨w, hread⟩ := readOps_placed n ((u.setRbase base).setReader 0 0 0) rfl (by simpa using hn) (by simpa using hin)
  exact ⟨_, w, rfl, hread⟩

/-- Settles O35: the bytes at `IN[base ..]` are the packed bits, and the stream of packed bits is the bits. -/
theorem readerMirrorsWriter : Obligations.ReaderMirrorsWriter := by
  intro s bits hn hwf hfit
  obtain ⟨t, hrun, hlen, hpacked⟩ := runOps_init_puts_flush hn hwf hfit
  refine ⟨t, hrun, hlen, fun u base hsame hin htotal => ?_⟩
  have hstream : streamBits u.inMem base.toNat 0 bits.length = bits :=
    streamBits_of_packed ((bytes_congr_shift hsame).trans hpacked)
  obtain ⟨v, w, hinit, hread⟩ := readOps_of_init htotal hin
  exact ⟨v, w, hinit, by rw [hread, hstream]⟩

end Sys2Proof.Machine
end

section
/-! PROOFS. ENCODE as a whole: the fault it ends with as a function of the input and the room in `OUT`, and the encoded
buffer where there is none (45_codec_driver.md R200 to R208). -/

namespace Sys2Proof.Machine

/-! ### What a command leaves when its sequence ends -/

/-- The command ends with the fault `f`, the result empty, `IN` and `IN_LEN` as they were (60_exceptions.md R250). -/
abbrev EndsEmpty (i : Instr) (s : State) (f : FaultCode) : Prop :=
  ∃ t, exec i s = .next t ∧ t.status = statusErr f ∧ t.outLen = 0 ∧ t.inMem = s.inMem ∧ t.inLen = s.inLen

/-- What no operation writes has not changed from `s` to `t` (`writes_untouched`). -/
abbrev Untouched : State → State → Prop :=
  Same fun s => (s.inMem, s.inLen, s.cfg, s.cmd, s.status, s.ret, s.script, s.replies)

theorem Untouched.input {s t : State} (h : Untouched s t) : t.inMem = s.inMem ∧ t.inLen = s.inLen := by
  simp only [Untouched, Same, Prod.mk.injEq] at h
  obtain ⟨hmem, hlen, _⟩ := h
  exact ⟨hmem, hlen⟩

theorem encode_ends_with_fault {s u : State} {f : FaultCode} (h : encodeSequence s = .error f u) : EndsEmpty .encode s f :=
  have hsame : Untouched s u := (within_encodeSequence writes_untouched).error h
  ⟨faultEntry f u, commandOutcome_of_error h, rfl, rfl, hsame.input⟩

theorem decode_ends_with_fault {s u : State} {f : FaultCode} (h : decodeSequence s = .error f u) : EndsEmpty .decode s f :=
  have hsame : Untouched s u := (within_decodeSequence writes_untouched).error h
  ⟨faultEntry f u, commandOutcome_of_error h, rfl, rfl, hsame.input⟩

theorem exec_encode_of_ok {s v : State} (h : encodeSequence s = .ok () v) : exec .encode s = .next (commandDone v) :=
  commandOutcome_of_ok h

theorem exec_decode_of_ok {s v : State} (h : decodeSequence s = .ok () v) : exec .decode s = .next (commandDone v) :=
  commandOutcome_of_ok h

theorem result_of_outLen_zero {t : State} (h : t.outLen = 0) : t.result = [] := by
  rw [State.result, h, Memory.bytes]

@[simp] theorem result_commandDone (v : State) : (commandDone v).result = v.result := rfl

theorem EndsEmpty.endsWithFault {i : Instr} {s : State} {f : FaultCode} (h : EndsEmpty i s f) : EndsWithFault i s f := by
  obtain ⟨t, hexec, hstatus, hlen, hin⟩ := h
  exact ⟨t, hexec, hstatus, result_of_outLen_zero hlen, hin⟩

/-! ### The outcome of ENCODE -/

/-- The fault the writer meets on the symbols `xs` of the alphabet `a`, if any: which one comes first (45_codec_driver.md
R208 h, 60_exceptions.md R253). -/
def writerFault (c : Config) (a xs : List Sym) : Option FaultCode :=
  if (streamOf a xs).length < 2 ^ 32 then
    if c.outFits (encodedBuffer c.w a xs).length then none else some .outputOverflow
  else if c.outFits (2 + a.length * c.w + (2 ^ 32 - 1) / 8) then some .bitCountOverflow
  else some .outputOverflow

/-- The fault `ENCODE` ends with on `len` bytes that are the symbols `xs` of the alphabet `a`, if any: the input checks,
then the writer's (45_codec_driver.md R208, 60_exceptions.md R253). -/
def encodeFault (c : Config) (len : Nat) (a xs : List Sym) : Option FaultCode :=
  if len = 0 then some .emptyInput
  else if len % c.w ≠ 0 then some .lengthNotMultiple
  else if 256 < a.length then some .invalidAlphabetSize
  else writerFault c a xs

theorem encodeFault_of_input_ok {c : Config} {len : Nat} {a : List Sym} (xs : List Sym) (hlen : len ≠ 0)
    (hmod : len % c.w = 0) (hle : a.length ≤ 256) : encodeFault c len a xs = writerFault c a xs := by
  rw [encodeFault, if_neg hlen, if_neg (not_not_intro hmod), if_neg (Nat.not_lt.mpr hle)]

theorem writerFault_of_countable {c : Config} {a xs : List Sym} (h : (streamOf a xs).length < 2 ^ 32) :
    writerFault c a xs = if c.outFits (encodedBuffer c.w a xs).length then none else some .outputOverflow := if_pos h

theorem writerFault_of_uncountable {c : Config} {a xs : List Sym} (h : 2 ^ 32 ≤ (streamOf a xs).length) :
    writerFault c a xs = if c.outFits (2 + a.length * c.w + (2 ^ 32 - 1) / 8) then some .bitCountOverflow
      else some .outputOverflow := if_neg (Nat.not_lt.mpr h)

/-- The state `v` in which the sequence of `ENCODE` ends without fault from `s` (45_codec_driver.md R207). -/
structure Encoded (s : State) (a : List Sym) (v : State) : Prop where
  /-- The length of the result. -/
  len : v.outLen = (encodedBuffer s.cfg.w a s.inSymbols).length
  /-- The result. -/
  buffer : s.outMem.wf = true → v.result = encodedBuffer s.cfg.w a s.inSymbols
  /-- No byte behind the result has changed. -/
  behind : ∀ x, v.outLen ≤ x → v.outMem.read x = s.outMem.read x
  /-- What else has changed. -/
  frame : v = { s with outMem := v.outMem, outLen := v.outLen, runs := v.runs, alpha := v.alpha, nodes := v.nodes,
                       piDepth := v.piDepth, piPath := v.piPath, piFound := v.piFound, wbyte := v.wbyte,
                       wcur := v.wcur, tbits := v.tbits, mdb := v.mdb, height := v.height, phase := v.phase }

/-- Past the input checks and with at most 256 distinct symbols, the tables are ready and the phases from E_HEADER on
decide the outcome (45_codec_driver.md R201). -/
theorem encodeSequence_of_tables {s : State} {a : List Sym} (ha : IsAlphabet s.inSymbols a) (hlen : s.inLen.toNat ≠ 0)
    (hmod : s.inLen.toNat % s.cfg.w = 0) (hle : a.length ≤ 256) :
    ∃ u, EncodeReady u a s.inSymbols ∧ encodeSequence s = encodeBack u ∧
      u = { s with outLen := 0, runs := u.runs, alpha := u.alpha, nodes := u.nodes, height := u.height, mdb := u.mdb,
                   phase := u.phase } := by
  rcases encodeInit_cases (s.setPhase .eInit) with ⟨h, _⟩ | ⟨_, h, _⟩ | ⟨_, _, hinit⟩
  · exact absurd h hlen
  · exact absurd hmod h
  have hsyms : ((s.setPhase .eInit).setOut s.outMem 0).inSymbols = s.inSymbols := inSymbols_congr rfl rfl rfl
  have h0 := inSymbols_ne_nil hlen hmod
  rw [length_of_isAlphabet ha] at hle
  rw [← hsyms] at h0 hle ha ⊢
  rcases encodeMiddle_cases h0 with ⟨_, l, t, hl, hb, he⟩ | ⟨hmany, _⟩
  · rw [← isAlphabet_unique hl.order ha]
    exact ⟨_, encodeReady_of_tables h0 hle rfl hl hb, by rw [encodeSequence_eq, bind_of_ok hinit]; exact he, rfl⟩
  · exact absurd hle (Nat.not_le.mpr hmany)

/-- More than 256 distinct symbols raise `InvalidAlphabetSize` (41_alphabet.md R141). -/
theorem encodeSequence_of_many_symbols {s : State} {a : List Sym} (ha : IsAlphabet s.inSymbols a)
    (hlen : s.inLen.toNat ≠ 0) (hmod : s.inLen.toNat % s.cfg.w = 0) (hmany : 256 < a.length) :
    ∃ u, encodeSequence s = .error .invalidAlphabetSize u := by
  rcases encodeInit_cases (s.setPhase .eInit) with ⟨h, _⟩ | ⟨_, h, _⟩ | ⟨_, _, h⟩
  · exact absurd h hlen
  · exact absurd hmod h
  · have hsyms : ((s.setPhase .eInit).setOut s.outMem 0).inSymbols = s.inSymbols := inSymbols_congr rfl rfl rfl
    have h0 := inSymbols_ne_nil hlen hmod
    rw [length_of_isAlphabet ha] at hmany
    rcases encodeMiddle_cases (hsyms.symm ▸ h0) with ⟨hle, _⟩ | ⟨_, u, he, _⟩
    · rw [hsyms] at hle
      omega
    · exact ⟨u, by rw [encodeSequence_eq, bind_of_ok h]; exact he⟩

/-- Every outcome of the sequence of `ENCODE`. -/
theorem encodeSequence_outcome {s : State} {a : List Sym} (ha : IsAlphabet s.inSymbols a) :
    (∃ f u, encodeFault s.cfg s.inLen.toNat a s.inSymbols = some f ∧ encodeSequence s = .error f u) ∨
    (encodeFault s.cfg s.inLen.toNat a s.inSymbols = none ∧ ∃ v, encodeSequence s = .ok () v ∧ Encoded s a v) := by
  by_cases hlen : s.inLen.toNat = 0
  · rcases encodeInit_cases (s.setPhase .eInit) with ⟨_, h⟩ | ⟨h, _⟩ | ⟨h, _⟩
    · exact .inl ⟨_, _, if_pos hlen, by rw [encodeSequence_eq, bind_of_error h]⟩
    · exact absurd hlen h
    · exact absurd hlen h
  by_cases hmod : s.inLen.toNat % s.cfg.w = 0
  case neg =>
    rcases encodeInit_cases (s.setPhase .eInit) with ⟨h, _⟩ | ⟨_, _, h⟩ | ⟨_, h, _⟩
    · exact absurd h hlen
    · exact .inl ⟨_, _, by rw [encodeFault, if_neg hlen, if_pos hmod], by rw [encodeSequence_eq, bind_of_error h]⟩
    · exact absurd h hmod
  by_cases hle : a.length ≤ 256
  case neg =>
    obtain ⟨u, hu⟩ := encodeSequence_of_many_symbols ha hlen hmod (Nat.lt_of_not_le hle)
    exact .inl ⟨_, u, by rw [encodeFault, if_neg hlen, if_neg (not_not_intro hmod), if_pos (Nat.lt_of_not_le hle)], hu⟩
  obtain ⟨u, hready, he, hu⟩ := encodeSequence_of_tables ha hlen hmod hle
  have hcfg : u.cfg = s.cfg := by rw [hu]
  have hback := encodeBack_cases hready
  rw [encodeFault_of_input_ok _ hlen hmod hle, he]
  rw [hcfg] at hback
  rcases hback with ⟨hbits, hfit, v, hv, hvlen, hvres, hvother, hframe⟩ | ⟨hno, v, hv⟩ | ⟨hbits, hfit, v, hv⟩
  · have hmem : u.outMem = s.outMem := by rw [hu]
    rw [hmem] at hvres hvother
    exact .inr ⟨by rw [writerFault_of_countable hbits, if_pos hfit], v, hv, hvlen, hvres, hvother, by rw [hframe, hu]⟩
  · refine .inl ⟨.outputOverflow, v, ?_, hv⟩
    rcases hno with ⟨hbits, hfit⟩ | ⟨hbits, hfit⟩
    · rw [writerFault_of_countable hbits, if_neg (Bool.eq_false_iff.mp hfit)]
    · rw [writerFault_of_uncountable hbits, if_neg (Bool.eq_false_iff.mp hfit)]
  · exact .inl ⟨.bitCountOverflow, v, by rw [writerFault_of_uncountable hbits, if_pos hfit], hv⟩

/-- Every symbol sequence has an alphabet order (41_alphabet.md R143). -/
theorem exists_isAlphabet (xs : List Sym) : ∃ a, IsAlphabet xs a :=
  ⟨_, sortLetters_isAlphabet (xs := xs) (l := xs.eraseDups.map fun x => { sym := x, freq := xs.count x })
    (by simp [Function.comp_def]) (by simp)⟩

/-- The fault of the closed form is the one `ENCODE` ends with. -/
theorem encode_fault {s : State} {a : List Sym} {f : FaultCode} (ha : IsAlphabet s.inSymbols a)
    (hf : encodeFault s.cfg s.inLen.toNat a s.inSymbols = some f) : EndsEmpty .encode s f := by
  rcases encodeSequence_outcome ha with ⟨g, u, hg, hu⟩ | ⟨hnone, _⟩
  · rw [hf] at hg
    cases hg
    exact encode_ends_with_fault hu
  · rw [hf] at hnone
    cases hnone

/-- Where the closed form has no fault, `ENCODE` ends without one. -/
theorem encode_done {s : State} {a : List Sym} (ha : IsAlphabet s.inSymbols a)
    (hf : encodeFault s.cfg s.inLen.toNat a s.inSymbols = none) :
    ∃ v, exec .encode s = .next (commandDone v) ∧ Encoded s a v := by
  rcases encodeSequence_outcome ha with ⟨g, u, hg, _⟩ | ⟨_, v, hv, henc⟩
  · rw [hf] at hg
    cases hg
  · exact ⟨v, exec_encode_of_ok hv, henc⟩

/-! ### The closed form, and the faults -/

theorem encodedBuffer_length (w : Nat) (a xs : List Sym) : (encodedBuffer w a xs).length =
    2 + a.length * w + ceilDiv8 (streamOf a xs).length + 4 := by
  simp [encodedBuffer, packBits]
  omega

/-- Settles O44: no clause of `encodeFault` applies, and `Encoded` is the closed form with its frame. -/
theorem encodeProducesTheWireFormat : Obligations.EncodeProducesTheWireFormat := by
  intro s a hlen hmod ha hle hbits hfit hwf
  have hnone : encodeFault s.cfg s.inLen.toNat a s.inSymbols = none := by
    rw [encodeFault_of_input_ok _ hlen hmod hle, writerFault_of_countable hbits, if_pos hfit]
  obtain ⟨v, hexec, henc⟩ := encode_done ha hnone
  refine ⟨commandDone v, hexec, statusState_word _ _, statusErrcode_word _ _, henc.buffer hwf, ?_, henc.behind, ?_⟩
  · rw [← encodedBuffer_length]
    exact henc.len
  · rw [henc.frame]
    rfl

/-- Settles O45: the first three clauses of `encodeFault`. -/
theorem encodeRejectsBadInput : Obligations.EncodeRejectsBadInput := by
  intro s
  obtain ⟨a, ha⟩ := exists_isAlphabet s.inSymbols
  refine ⟨fun hlen => ?_, fun hlen hmod => ?_, fun hlen hmod hmany => ?_⟩
  · exact encode_fault ha (by simp [encodeFault, hlen])
  · exact encode_fault ha (by simp [encodeFault, hlen, hmod])
  · exact encode_fault ha (by simp [encodeFault, hlen, hmod, length_of_isAlphabet ha, hmany])

/-- Settles O46: the last clauses of `encodeFault`, those of the writer. -/
theorem encodeOverflowsASmallBuffer : Obligations.EncodeOverflowsASmallBuffer := by
  intro s a hlen hmod ha hle
  have hwriter := encodeFault_of_input_ok s.inSymbols hlen hmod hle
  refine ⟨fun hbits hfit => ?_, fun hbits => ⟨fun hfit => ?_, fun hfit => ?_⟩⟩
  · rw [writerFault_of_countable hbits, if_neg (Bool.eq_false_iff.mp hfit)] at hwriter
    exact (encode_fault ha hwriter).endsWithFault
  · rw [writerFault_of_uncountable hbits, if_pos hfit] at hwriter
    exact (encode_fault ha hwriter).endsWithFault
  · rw [writerFault_of_uncountable hbits, if_neg (Bool.eq_false_iff.mp hfit)] at hwriter
    exact (encode_fault ha hwriter).endsWithFault

end Sys2Proof.Machine
end

section
/-! PROOFS. DECODE as a whole: the header checks, the symbols of the records, and the round trip (45_codec_driver.md R210
to R220). -/

namespace Sys2Proof.Machine

/-! ### The checks before the record loop -/

/-- The fault `DECODE` ends with before its tree, on the `len` bytes of `m`, if any: the three length tests, then the depth
width (45_codec_driver.md R213 to R215, 60_exceptions.md R253). -/
def headerFault (w : Nat) (m : Memory) (len : Nat) : Option FaultCode :=
  if len < 2 ∨ len < 2 + ((m.read 1).toNat + 1) * w + 4 ∨
      len < 2 + ((m.read 1).toNat + 1) * w + ceilDiv8 (m.load (len - 4) 4) + 4 then some .truncatedInput
  else if m.read 0 = 0 then some .invalidDepthWidth
  else none

theorem headerFault_of_room {w : Nat} {m : Memory} {len : Nat}
    (h : 2 + ((m.read 1).toNat + 1) * w + ceilDiv8 (m.load (len - 4) 4) + 4 ≤ len) :
    headerFault w m len = if m.read 0 = 0 then some .invalidDepthWidth else none :=
  if_neg (by omega)

/-- Every outcome of the sequence of `DECODE` up to the record loop. -/
theorem decodeSequence_outcome (s : State) :
    (∃ f u, headerFault s.cfg.w s.inMem s.inLen.toNat = some f ∧ decodeSequence s = .error f u) ∨
    (headerFault s.cfg.w s.inMem s.inLen.toNat = none ∧
      ∃ a u, DecodeReady s a u ∧ decodeSequence s = readRecords u.rtotal.toNat u) := by
  rcases decodeSequence_cases s with ⟨hshort, u, hu⟩ | ⟨hroom, ⟨hzero, u, hu⟩ | ⟨hwide, hready⟩⟩
  · exact .inl ⟨_, u, if_pos hshort, hu⟩
  · exact .inl ⟨_, u, by rw [headerFault_of_room hroom, if_pos hzero], hu⟩
  · exact .inr ⟨by rw [headerFault_of_room hroom, if_neg hwide], hready⟩

theorem decode_header_fault {s : State} {f : FaultCode} (h : headerFault s.cfg.w s.inMem s.inLen.toNat = some f) :
    EndsEmpty .decode s f := by
  rcases decodeSequence_outcome s with ⟨g, u, hg, hu⟩ | ⟨hnone, _⟩
  · rw [h] at hg
    cases hg
    exact decode_ends_with_fault hu
  · rw [h] at hnone
    cases hnone

/-- Settles O49: the two clauses of `headerFault`. -/
theorem decodeRejectsMalformedHeaders : Obligations.DecodeRejectsMalformedHeaders := by
  intro s
  rw [leValue_eq_load]
  refine ⟨fun hshort => decode_header_fault (if_pos hshort), fun hroom hzero => decode_header_fault ?_⟩
  rw [headerFault_of_room hroom, if_pos hzero]

/-! ### A buffer of records -/

/-- `IN` holds an alphabet `a` of 1 to 256 letters and the records of the letters of ranks `ks`, with depth fields of `mdb`
bits (30_encoding.md R95 to R101, R106). -/
structure HoldsRecords (s : State) (mdb : Nat) (a : List Sym) (ks : List Nat) : Prop where
  /-- There is a letter. -/
  pos : 1 ≤ a.length
  /-- Every rank is one of the alphabet, and its depth fits the depth field. -/
  ranks : ∀ k ∈ ks, k < a.length ∧ rankDepth k < 2 ^ mdb
  /-- Byte 0. -/
  width : (s.inMem.read 0).toNat = mdb
  /-- Depth fields are not empty. -/
  wide : 1 ≤ mdb
  /-- Byte 1. -/
  size : (s.inMem.read 1).toNat + 1 = a.length
  /-- The alphabet entries. -/
  letters : (headerLetters s 0 a.length).map (·.sym) = a
  /-- The bit stream begins with the records. -/
  stream : streamBits s.inMem (2 + a.length * s.cfg.w) 0 (ks.flatMap (rankRecord mdb)).length =
    ks.flatMap (rankRecord mdb)
  /-- The trailer counts their bits. -/
  total : s.inMem.load (s.inLen.toNat - 4) 4 = (ks.flatMap (rankRecord mdb)).length
  /-- The buffer holds all this. -/
  room : 2 + a.length * s.cfg.w + ceilDiv8 (ks.flatMap (rankRecord mdb)).length + 4 ≤ s.inLen.toNat

/-- The state `v` in which the sequence of `DECODE` ends without fault from `s`, having read the letters of ranks `ks`
(45_codec_driver.md R217). -/
structure Decoded (s : State) (a : List Sym) (ks : List Nat) (v : State) : Prop where
  /-- The length of the result. -/
  len : v.outLen = ks.length * s.cfg.w
  /-- The result. -/
  symbols : s.outMem.wf = true → v.result = ks.flatMap fun k => leBytes s.cfg.w (a.getD k 0).toNat
  /-- No byte behind the result has changed. -/
  behind : ∀ x, v.outLen ≤ x → v.outMem.read x = s.outMem.read x
  /-- What else has changed. -/
  frame : v = { s with outMem := v.outMem, outLen := v.outLen, alpha := v.alpha, nodes := v.nodes, piDepth := v.piDepth,
                       piPath := v.piPath, rbase := v.rbase, ridx := v.ridx, rcur := v.rcur, rbits := v.rbits,
                       rtotal := v.rtotal, mdb := v.mdb, nsym := v.nsym, phase := v.phase }

theorem DecodeReady.readReady {s u : State} {a : List Sym} (h : DecodeReady s a u) : ReadReady u where
  ok := h.built.ok
  placed := h.placed
  inside := by
    have hlen : u.inLen = s.inLen := by rw [h.frame]
    have hinside := h.inside
    rw [hlen]
    omega
  wide := h.wide

/-- The record loop starts on a buffer of records with their alphabet. -/
theorem HoldsRecords.ready {s : State} {mdb : Nat} {a : List Sym} {ks : List Nat} (h : HoldsRecords s mdb a ks) :
    ∃ u, DecodeReady s a u ∧ decodeSequence s = readRecords u.rtotal.toNat u := by
  have hroom := h.room
  rw [← h.size, ← h.total] at hroom
  have hwide : s.inMem.read 0 ≠ 0 := fun hzero => by
    have hw := h.wide
    rw [← h.width, hzero] at hw
    exact absurd hw (by decide)
  rcases decodeSequence_outcome s with ⟨f, u, hf, _⟩ | ⟨_, b, u, hready, he⟩
  · rw [headerFault_of_room hroom, if_neg hwide] at hf
    cases hf
  · have hb : b = a := by rw [hready.letters, h.size, h.letters]
    exact ⟨u, hb ▸ hready, he⟩

/-- `DECODE` on a buffer of records (45_codec_driver.md R217, 60_exceptions.md R249). -/
theorem decodeSequence_of_records {s : State} {mdb : Nat} {a : List Sym} {ks : List Nat} (h : HoldsRecords s mdb a ks) :
    (s.cfg.outFits (ks.length * s.cfg.w) = false ∧ ∃ u, decodeSequence s = .error .outputOverflow u) ∨
    (s.cfg.outFits (ks.length * s.cfg.w) = true ∧ ∃ v, decodeSequence s = .ok () v ∧ Decoded s a ks v) := by
  obtain ⟨u, hready, he⟩ := h.ready
  have hcfg : u.cfg = s.cfg := by rw [hready.frame]
  have hin : u.inMem = s.inMem := by rw [hready.frame]
  have hout : u.outMem = s.outMem := by rw [hready.frame]
  have hzero : u.outLen = 0 := by rw [hready.frame]
  have hmdb : u.mdb.toNat = mdb := by rw [hready.mdb, h.width]
  have htotal : u.rtotal.toNat = (ks.flatMap (rankRecord mdb)).length := hready.total.trans h.total
  have hloop := readRecords_letters (a := a) ks (n := u.rtotal.toNat) hready.readReady hready.built
    (by rw [hmdb]; exact h.ranks) (by rw [hmdb, hready.fresh, htotal, Nat.zero_add]) (Nat.le_add_left _ _)
    (by rw [hmdb, hin, hready.base, hready.fresh]; exact h.stream) (by rw [hzero]; exact outFits_zero _)
  rw [hcfg, hzero, Nat.zero_add, hout, ← he] at hloop
  rcases hloop with hfault | ⟨hfit, v, hv, hlen, hbytes, hother, hframe⟩
  · exact .inl hfault
  · refine .inr ⟨hfit, v, hv, hlen, fun hwf => ?_, fun x hx => hother x (.inr hx), ?_⟩
    · rw [State.result, hlen]
      exact hbytes hwf
    · rw [hframe, hready.frame]

/-! ### The parts of a buffer given as bytes -/

theorem bytes_of_append {m : Memory} {b n : Nat} {l r : List Byte} (h : m.bytes b n = l ++ r) :
    m.bytes b l.length = l ∧ m.bytes (b + l.length) r.length = r := by
  have hn : n = l.length + r.length := by simpa using congrArg List.length h
  rw [hn, bytes_append] at h
  exact List.append_inj h (by simp)

theorem read_of_bytes_pair {m : Memory} {b0 b1 : Byte} (h : m.bytes 0 2 = [b0, b1]) : m.read 0 = b0 ∧ m.read 1 = b1 := by
  simpa [Memory.bytes] using h

/-- A buffer of a header, a bit stream and a trailer, in the order of 30_encoding.md R95, holds the records its stream
begins with. -/
theorem holdsRecords_of_bytes {s : State} {mdb : Nat} {a : List Sym} {ks : List Nat} {stream : List Byte}
    (hwide : 1 ≤ mdb) (hmdb : mdb ≤ 255) (hpos : 1 ≤ a.length) (hle : a.length ≤ 256)
    (hfits : ∀ x ∈ a, x.fits s.cfg = true) (hranks : ∀ k ∈ ks, k < a.length ∧ rankDepth k < 2 ^ mdb)
    (hcount : (ks.flatMap (rankRecord mdb)).length < 2 ^ 32)
    (hlong : ceilDiv8 (ks.flatMap (rankRecord mdb)).length ≤ stream.length)
    (hbits : ∀ j < (ks.flatMap (rankRecord mdb)).length,
      (stream.getD (j / 8) 0).getLsbD (j % 8) = (ks.flatMap (rankRecord mdb)).getD j false)
    (hbytes : s.inMem.bytes 0 s.inLen.toNat = [BitVec.ofNat 8 mdb, BitVec.ofNat 8 (a.length - 1)] ++
      a.flatMap (fun x => leBytes s.cfg.w x.toNat) ++ stream ++ leBytes 4 (ks.flatMap (rankRecord mdb)).length) :
    HoldsRecords s mdb a ks := by
  have hlen : s.inLen.toNat = 2 + a.length * s.cfg.w + stream.length + 4 := by
    rw [← bytes_length s.inMem 0 s.inLen.toNat, hbytes]
    simp
    omega
  obtain ⟨hfront, htrailer⟩ := bytes_of_append hbytes
  obtain ⟨hheader, hstream⟩ := bytes_of_append hfront
  obtain ⟨hpair, halpha⟩ := bytes_of_append hheader
  obtain ⟨hbyte0, hbyte1⟩ := read_of_bytes_pair hpair
  have hflat : (a.flatMap fun x => leBytes s.cfg.w x.toNat).length = a.length * s.cfg.w := by simp
  simp only [List.length_append, List.length_cons, List.length_nil, hflat, leBytes_length,
    Nat.zero_add] at hstream htrailer halpha
  refine ⟨hpos, hranks, ?_, hwide, ?_, ?_, ?_, ?_, ?_⟩
  · rw [hbyte0, BitVec.toNat_ofNat, Nat.mod_eq_of_lt (by omega)]
  · rw [hbyte1, BitVec.toNat_ofNat, Nat.mod_eq_of_lt (by omega)]
    omega
  · exact headerLetters_of_bytes a hfits (by simpa using halpha)
  · refine List.ext_getElem (by simp) fun j _ hj => ?_
    have hbyte := bytes_getElem? s.inMem (a := 2 + a.length * s.cfg.w) (n := stream.length) (k := j / 8)
      (by unfold ceilDiv8 at hlong; omega)
    rw [hstream] at hbyte
    have hbit := hbits j hj
    simp only [List.getD_eq_getElem?_getD, hbyte, List.getElem?_eq_getElem hj, Option.getD_some] at hbit
    simpa [streamBits, streamBit] using hbit
  · rw [hlen, Nat.add_sub_cancel]
    exact load_of_bytes htrailer hcount
  · omega

/-- Settles O48: the buffer holds the records of `ks`, and `Decoded` is the closed form with its frame. -/
theorem decodeRecoversTheRecords : Obligations.DecodeRecoversTheRecords := by
  intro s mdb a ks stream hwide hmdb hpos hle hfits hranks hcount hlong hbits hbytes
  have hholds := holdsRecords_of_bytes hwide hmdb hpos hle hfits hranks hcount hlong hbits hbytes
  rcases decodeSequence_of_records hholds with ⟨hno, u, hu⟩ | ⟨hfit, v, hv, hdec⟩
  · refine ⟨fun hfit _ => ?_, fun _ => (decode_ends_with_fault hu).endsWithFault⟩
    rw [hno] at hfit
    cases hfit
  · refine ⟨fun _ hwf => ?_, fun hno => ?_⟩
    · refine ⟨commandDone v, exec_decode_of_ok hv, statusState_word _ _, statusErrcode_word _ _, hdec.symbols hwf, hdec.len,
        hdec.behind, ?_⟩
      rw [hdec.frame]
      rfl
    · rw [hfit] at hno
      cases hno

/-! ### The round trip (45_codec_driver.md R220) -/

/-- A bit of packed bits is the bit packed there (30_encoding.md R99). -/
theorem packBits_bit {bits : List Bool} {j : Nat} (hj : j < bits.length) :
    ((packBits bits).getD (j / 8) 0).getLsbD (j % 8) = bits.getD j false := by
  have hbyte : j / 8 < ceilDiv8 bits.length := by unfold ceilDiv8; omega
  have hbit : j % 8 < 8 := Nat.mod_lt j (by decide)
  have hget : (packBits bits).getD (j / 8) 0 = BitVec.ofNat 8 (bitsToNat ((bits.drop (8 * (j / 8))).take 8)) := by
    simp [packBits, hbyte]
  rw [hget, ofNat_bits _ _ hbit]
  simp [hbit, Nat.div_add_mod]

theorem encodeFault_eq_none {c : Config} {len : Nat} {a xs : List Sym} (h : encodeFault c len a xs = none) :
    len ≠ 0 ∧ len % c.w = 0 ∧ a.length ≤ 256 ∧ (streamOf a xs).length < 2 ^ 32 := by
  unfold encodeFault at h
  split at h
  · cases h
  split at h
  · cases h
  split at h
  · cases h
  next hlen hmod hle =>
    refine ⟨hlen, not_not.mp hmod, Nat.le_of_not_lt hle, ?_⟩
    by_contra hbits
    rw [writerFault_of_uncountable (Nat.le_of_not_lt hbits)] at h
    split at h <;> cases h

/-- An encoded buffer in `IN` holds the records of its symbols (45_codec_driver.md R207). -/
theorem holdsRecords_of_encodedBuffer {u : State} {a xs : List Sym} (ha : IsAlphabet xs a) (h0 : xs ≠ [])
    (hle : a.length ≤ 256) (hfits : ∀ x ∈ xs, x.fits u.cfg = true) (hcount : (streamOf a xs).length < 2 ^ 32)
    (hbytes : u.inMem.bytes 0 u.inLen.toNat = encodedBuffer u.cfg.w a xs) :
    HoldsRecords u (depthWidth a.length) a (xs.map a.idxOf) := by
  have hmem : ∀ {x}, x ∈ a ↔ x ∈ xs := isAlphabet_mem ha
  obtain ⟨x, hx⟩ := List.exists_mem_of_ne_nil xs h0
  have hstream : (xs.map a.idxOf).flatMap (rankRecord (depthWidth a.length)) = streamOf a xs := List.flatMap_map ..
  obtain ⟨hwide, hnarrow⟩ := depthWidth_bounds hle
  refine holdsRecords_of_bytes (stream := packBits (streamOf a xs)) hwide (by omega)
    (List.length_pos_of_mem (hmem.mpr hx)) hle (fun y hy => hfits y (hmem.mp hy)) (fun k hk => ?_) ?_ ?_ ?_ ?_
  · obtain ⟨y, hy, rfl⟩ := List.mem_map.mp hk
    have hrank := List.idxOf_lt_length_of_mem (hmem.mpr hy)
    exact ⟨hrank, rankDepth_lt_depthWidth hrank⟩
  · rwa [hstream]
  · rw [hstream]
    simp [packBits]
  · rw [hstream]
    exact fun j hj => packBits_bit hj
  · rw [hstream]
    exact hbytes

/-- The letters of the ranks of some symbols are the symbols. -/
theorem letters_of_ranks {a xs : List Sym} (h : ∀ x ∈ xs, x ∈ a) (w : Nat) :
    (xs.map a.idxOf).flatMap (fun k => leBytes w (a.getD k 0).toNat) = xs.flatMap fun x => leBytes w x.toNat := by
  rw [List.flatMap_map]
  refine List.flatMap_congr fun x hx => ?_
  rw [List.getD_eq_getElem?_getD, List.getElem?_idxOf (h x hx), Option.getD_some]

/-- The bytes of a raw buffer of whole symbols (20_memory.md R64). -/
theorem bytes_inSymbols {s : State} (hmod : s.inLen.toNat % s.cfg.w = 0) :
    s.inSymbols.flatMap (fun x => leBytes s.cfg.w x.toNat) = s.inMem.bytes 0 s.inLen.toNat := by
  rw [State.inSymbols, ← bytes_symsFrom, Nat.zero_mul, State.symCount, Nat.div_mul_cancel (Nat.dvd_of_mod_eq_zero hmod)]

/-- Settles O50: the result of ENCODE holds the records of the input's symbols, and DECODE gives the symbols of the
records. -/
theorem decodeUndoesEncode : Obligations.DecodeUndoesEncode := by
  intro s t u hexec hstatus hwf hroom hcfg huwf hbytes
  obtain ⟨a, ha⟩ := exists_isAlphabet s.inSymbols
  rcases encodeSequence_outcome ha with ⟨f, v, _, hv⟩ | ⟨hnone, v, hv, henc⟩
  · obtain ⟨t', hexec', hfault, _⟩ := encode_ends_with_fault hv
    rw [hexec] at hexec'
    cases hexec'
    exact absurd (hfault.symm.trans hstatus) (statusErr_ne_statusOk f)
  · have ht := exec_encode_of_ok hv
    rw [hexec] at ht
    cases ht
    obtain ⟨hlen, hmod, hle, hcount⟩ := encodeFault_eq_none hnone
    rw [result_commandDone, henc.buffer hwf, ← hcfg] at hbytes
    have hholds := holdsRecords_of_encodedBuffer ha (inSymbols_ne_nil hlen hmod) hle
      (hcfg ▸ inSymbols_fits s) hcount hbytes
    have hsize : (s.inSymbols.map a.idxOf).length * u.cfg.w = s.inLen.toNat := by
      rw [List.length_map, inSymbols_length, hcfg, Nat.div_mul_cancel (Nat.dvd_of_mod_eq_zero hmod)]
    rcases decodeSequence_of_records hholds with ⟨hno, _⟩ | ⟨_, w, hw, hdec⟩
    · rw [hsize, hcfg, hroom] at hno
      cases hno
    · refine ⟨commandDone w, exec_decode_of_ok hw, rfl, ?_⟩
      rw [result_commandDone, hdec.symbols huwf, letters_of_ranks (fun x => (isAlphabet_mem ha).mpr), hcfg,
        bytes_inSymbols hmod]

end Sys2Proof.Machine
end

section
/-! PROOFS. What a command can end with, and what it reads: two runs from states that agree on `IN`, `IN_LEN`, `W` and
`OUT_CAP` end alike (45_codec_driver.md R200, R210, R221). -/

namespace Sys2Proof.Machine

/-! ### Ends of the commands (45_codec_driver.md R200, R210) -/

/-- What every command leaves, fault or not: the block idle, and all that no operation writes. -/
theorem command_leaves {i : Instr} {s t : State} (hi : IsCommand i) (h : exec i s = .next t) :
    t.phase = .idle ∧ t.inMem = s.inMem ∧ t.inLen = s.inLen ∧ t.cfg = s.cfg ∧ t.cmd = s.cmd ∧ t.ret = s.ret ∧
      t.script = s.script ∧ t.replies = s.replies := by
  obtain ⟨t', u, ht, hsame, hend⟩ := command_cases writes_untouched i hi s
  rw [h] at ht
  cases ht
  simp only [Same, Prod.mk.injEq] at hsame
  obtain ⟨hmem, hlen, hcfg, hcmd, _, hret, hscript, hreplies⟩ := hsame
  rcases hend with rfl | ⟨f, rfl⟩
  · exact ⟨rfl, hmem, hlen, hcfg, hcmd, hret, hscript, hreplies⟩
  · exact ⟨rfl, hmem, hlen, hcfg, hcmd, hret, hscript, hreplies⟩

theorem encodeFault_mem {c : Config} {len : Nat} {a xs : List Sym} {f : FaultCode} (h : encodeFault c len a xs = some f) :
    f ∈ [.emptyInput, .lengthNotMultiple, .invalidAlphabetSize, .bitCountOverflow, .outputOverflow] := by
  unfold encodeFault writerFault at h
  split_ifs at h <;> cases h <;> decide

theorem headerFault_mem {w : Nat} {m : Memory} {len : Nat} {f : FaultCode} (h : headerFault w m len = some f) :
    f ∈ [.truncatedInput, .invalidDepthWidth] := by
  unfold headerFault at h
  split_ifs at h <;> cases h <;> decide

/-- `ENCODE` ends without fault or with one of its own (45_codec_driver.md R208). -/
theorem encodeSequence_ends (s : State) : (∃ v, encodeSequence s = .ok () v) ∨ ∃ f u, encodeSequence s = .error f u ∧
    f ∈ [.emptyInput, .lengthNotMultiple, .invalidAlphabetSize, .bitCountOverflow, .outputOverflow] := by
  obtain ⟨a, ha⟩ := exists_isAlphabet s.inSymbols
  rcases encodeSequence_outcome ha with ⟨f, u, hf, hu⟩ | ⟨_, v, hv, _⟩
  · exact .inr ⟨f, u, hu, encodeFault_mem hf⟩
  · exact .inl ⟨v, hv⟩

/-- `DECODE` ends without fault or with one of its own: of the header or of a record (45_codec_driver.md R213 to R216). -/
theorem decodeSequence_ends (s : State) : (∃ v, decodeSequence s = .ok () v) ∨ ∃ f u, decodeSequence s = .error f u ∧
    f ∈ [.truncatedInput, .invalidDepthWidth, .bitCountMismatch, .treeLookupFailure, .outputOverflow] := by
  rcases decodeSequence_outcome s with ⟨f, u, hf, hu⟩ | ⟨_, a, u, hready, he⟩
  · exact .inr ⟨f, u, hu, List.mem_append_left [FaultCode.bitCountMismatch, .treeLookupFailure, .outputOverflow]
      (headerFault_mem hf)⟩
  · rw [he]
    rcases readRecords_ends _ hready.readReady (Nat.le_add_left _ _) with hok | ⟨f, v, hv, rfl | rfl | rfl⟩
    · exact .inl hok
    · exact .inr ⟨_, v, hv, by decide⟩
    · exact .inr ⟨_, v, hv, by decide⟩
    · exact .inr ⟨_, v, hv, by decide⟩

/-- Settles O52: the faults by `encodeSequence_ends` and `decodeSequence_ends`, the frame by `command_leaves`. -/
theorem commandsEndOkOrWithTheirFaults : Obligations.CommandsEndOkOrWithTheirFaults := by
  refine fun s => ⟨?_, ?_⟩
  · rcases encodeSequence_ends s with ⟨v, hv⟩ | ⟨f, u, hu, hf⟩
    · have hexec := exec_encode_of_ok hv
      obtain ⟨hidle, hrest⟩ := command_leaves (.inl rfl) hexec
      exact ⟨_, hexec, hidle, .inl rfl, hrest⟩
    · obtain ⟨t, hexec, hstatus, hlen, _⟩ := encode_ends_with_fault hu
      obtain ⟨hidle, hrest⟩ := command_leaves (.inl rfl) hexec
      exact ⟨t, hexec, hidle, .inr ⟨hlen, f, List.mem_append_left [FaultCode.internalInvariant] hf, hstatus⟩, hrest⟩
  · rcases decodeSequence_ends s with ⟨v, hv⟩ | ⟨f, u, hu, hf⟩
    · have hexec := exec_decode_of_ok hv
      obtain ⟨hidle, hrest⟩ := command_leaves (.inr rfl) hexec
      exact ⟨_, hexec, hidle, .inl rfl, hrest⟩
    · obtain ⟨t, hexec, hstatus, hlen, _⟩ := decode_ends_with_fault hu
      obtain ⟨hidle, hrest⟩ := command_leaves (.inr rfl) hexec
      exact ⟨t, hexec, hidle, .inr ⟨hlen, f, List.mem_append_left [FaultCode.internalInvariant] hf, hstatus⟩, hrest⟩

/-! ### Two runs that end alike (45_codec_driver.md R221) -/

/-- Two runs end alike: with the same fault, or both without one and with the same result. -/
def EndAlike (r r' : EStateM.Result FaultCode State Unit) : Prop :=
  (∃ f u u', r = .error f u ∧ r' = .error f u') ∨
    ∃ v v', r = .ok () v ∧ r' = .ok () v' ∧ v.outLen = v'.outLen ∧ v.result = v'.result

theorem EndAlike.command {body : Op Unit} {s s' t t' : State} (h : EndAlike (body s) (body s'))
    (ht : commandOutcome body s = .next t) (ht' : commandOutcome body s' = .next t') :
    t.status = t'.status ∧ t.outLen = t'.outLen ∧ t.result = t'.result := by
  rcases h with ⟨f, u, u', hu, hu'⟩ | ⟨v, v', hv, hv', hlen, hresult⟩
  · rw [commandOutcome_of_error hu] at ht
    rw [commandOutcome_of_error hu'] at ht'
    cases ht
    cases ht'
    exact ⟨rfl, rfl, rfl⟩
  · rw [commandOutcome_of_ok hv] at ht
    rw [commandOutcome_of_ok hv'] at ht'
    cases ht
    cases ht'
    exact ⟨rfl, hlen, hresult⟩

/-- The two states agree on what a command reads (45_codec_driver.md R221, 20_memory.md R65). -/
structure SameInput (s s' : State) : Prop where
  /-- The symbol width. -/
  width : s.cfg.w = s'.cfg.w
  /-- The room in `OUT`. -/
  room : s.cfg.outFits = s'.cfg.outFits
  /-- `IN`. -/
  mem : s.inMem = s'.inMem
  /-- `IN_LEN`. -/
  len : s.inLen = s'.inLen

/-! ### Two runs of ENCODE -/

theorem encodeFault_congr {c d : Config} (hw : c.w = d.w) (hroom : c.outFits = d.outFits) (len : Nat) (a xs : List Sym) :
    encodeFault c len a xs = encodeFault d len a xs := by
  simp only [encodeFault, writerFault, hw, hroom]

theorem encodeSequence_alike {s s' : State} (h : SameInput s s') (hwf : s.outMem.wf = true) (hwf' : s'.outMem.wf = true) :
    EndAlike (encodeSequence s) (encodeSequence s') := by
  have hsyms : s.inSymbols = s'.inSymbols := inSymbols_congr h.width h.mem h.len
  obtain ⟨a, ha⟩ := exists_isAlphabet s.inSymbols
  have hfault : encodeFault s.cfg s.inLen.toNat a s.inSymbols = encodeFault s'.cfg s'.inLen.toNat a s'.inSymbols := by
    rw [encodeFault_congr h.width h.room, h.len, hsyms]
  have hrun' := encodeSequence_outcome (s := s') (hsyms ▸ ha)
  rw [← hfault] at hrun'
  rcases encodeSequence_outcome ha with ⟨f, u, hf, hu⟩ | ⟨hnone, v, hv, henc⟩
  · rw [hf] at hrun'
    rcases hrun' with ⟨f', u', hf', hu'⟩ | ⟨hnone', _⟩
    · cases hf'
      exact .inl ⟨f, u, u', hu, hu'⟩
    · cases hnone'
  · rw [hnone] at hrun'
    rcases hrun' with ⟨f', u', hf', _⟩ | ⟨_, v', hv', henc'⟩
    · cases hf'
    · refine .inr ⟨v, v', hv, hv', ?_, ?_⟩
      · rw [henc.len, henc'.len, hsyms, h.width]
      · rw [henc.buffer hwf, henc'.buffer hwf', hsyms, h.width]

/-! ### Two runs of DECODE -/

/-- The symbol a path leads to. -/
def letterAt (t : List Node) (p : List Bool) : Option Sym := (follow t 0 p).bind fun m => (t[m]?).bind (·.val)

theorem letterAt_built {t : List Node} {a : List Sym} (h : Built t a) {p : List Bool} {x : Sym} :
    letterAt t p = some x ↔ ∃ m, m < a.length ∧ p = rankPath m ∧ a[m]? = some x := by
  rw [letterAt, Option.bind_eq_some_iff]
  constructor
  · rintro ⟨m, hm, hx⟩
    obtain ⟨hlt, hp⟩ := (follow_built h).mp hm
    exact ⟨m, hlt, hp, by rw [← h.val m hlt]; exact hx⟩
  · rintro ⟨m, hlt, hp, hx⟩
    exact ⟨m, (follow_built h).mpr ⟨hlt, hp⟩, by rw [h.val m hlt]; exact hx⟩

/-- The record at the reader's place: its letter, or the fault it ends with (45_codec_driver.md R216). -/
def nextRecord (s : State) : Except FaultCode Sym :=
  if s.rtotal.toNat < s.rbits.toNat + s.mdb.toNat + nextDepth s then .error .bitCountMismatch
  else
    match letterAt s.nodes (nextPath s) with
    | none => .error .treeLookupFailure
    | some x => if s.cfg.outFits (s.outLen + s.cfg.w) then .ok x else .error .outputOverflow

/-- `DRV.RECREAD` in the record loop does what `nextRecord` says. -/
theorem drvRecread_nextRecord {s : State} (h : ReadReady s) :
    (∃ f t, nextRecord s = .error f ∧ drvRecread s = .error f t) ∨
      ∃ x t, nextRecord s = .ok x ∧ drvRecread s = .ok () t ∧ RecordRead s x t := by
  unfold nextRecord
  rcases recread_outcome h with ⟨hcross, t, ht⟩ | ⟨hinside, hrest⟩
  · exact .inl ⟨_, t, if_pos (by omega), ht⟩
  rw [if_neg (Nat.not_lt.mpr hinside)]
  rcases hrest with ⟨hnone, t, ht⟩ | ⟨m, x, hm, hx, hrest⟩
  · have hletter : letterAt s.nodes (nextPath s) = none := Option.bind_eq_none_iff.mpr hnone
    exact .inl ⟨_, t, by rw [hletter], ht⟩
  · have hletter : letterAt s.nodes (nextPath s) = some x := Option.bind_eq_some_iff.mpr ⟨m, hm, hx⟩
    rw [hletter]
    rcases hrest with ⟨hno, t, ht⟩ | ⟨hfit, t, ht, hread⟩
    · exact .inl ⟨_, t, if_neg (Bool.eq_false_iff.mp hno), ht⟩
    · exact .inr ⟨x, t, if_pos hfit, ht, hread⟩

/-- The two states agree on what the record loop reads and on what it has written. -/
structure SameReading (s s' : State) : Prop extends SameInput s s' where
  /-- The start of the bit stream. -/
  base : s.rbase.toNat = s'.rbase.toNat
  /-- The reader's place. -/
  bits : s.rbits.toNat = s'.rbits.toNat
  /-- The end of the bit stream. -/
  total : s.rtotal.toNat = s'.rtotal.toNat
  /-- The depth width. -/
  mdb : s.mdb = s'.mdb
  /-- The trees hold the same letters at the same paths. -/
  letters : ∀ p, letterAt s.nodes p = letterAt s'.nodes p
  /-- The bytes written. -/
  result : s.result = s'.result
  /-- Their number. -/
  outLen : s.outLen = s'.outLen
  /-- The memories are in canonical form. -/
  wf : s.outMem.wf = true ∧ s'.outMem.wf = true

theorem SameReading.nextDepth_eq {s s' : State} (h : SameReading s s') : nextDepth s = nextDepth s' := by
  rw [nextDepth, nextDepth, h.mem, h.base, h.bits, h.mdb]

theorem SameReading.nextRecord_eq {s s' : State} (h : SameReading s s') : nextRecord s = nextRecord s' := by
  have hpath : nextPath s = nextPath s' := by
    rw [nextPath, nextPath, h.nextDepth_eq, h.mem, h.base, h.bits, h.mdb]
  simp only [nextRecord, h.nextDepth_eq, hpath, h.total, h.bits, h.mdb, h.letters, h.room, h.outLen, h.width]

/-- A record appends its letter to the result (20_memory.md R66). -/
theorem RecordRead.result {s t : State} {x : Sym} (h : RecordRead s x t) (hwf : s.outMem.wf = true) :
    t.result = s.result ++ leBytes s.cfg.w x.toNat := by
  have hlen : t.outLen = s.outLen + s.cfg.w := by rw [h.frame]
  have hmem : t.outMem = s.outMem.store s.outLen s.cfg.w x.toNat := by rw [h.frame]
  rw [State.result, State.result, hlen, hmem, bytes_append, Nat.zero_add, bytes_store hwf]
  congr 1
  exact bytes_congr fun y _ hy => read_store_other _ _ (by omega)

/-- After the same record the two states agree again. -/
theorem SameReading.after {s s' t t' : State} {x : Sym} (h : SameReading s s') (hr : RecordRead s x t)
    (hr' : RecordRead s' x t') : SameReading t t' where
  width := by rw [hr.frame, hr'.frame]; exact h.width
  room := by rw [hr.frame, hr'.frame]; exact h.room
  mem := by rw [hr.frame, hr'.frame]; exact h.mem
  len := by rw [hr.frame, hr'.frame]; exact h.len
  base := by rw [hr.frame, hr'.frame]; exact h.base
  bits := by rw [hr.count, hr'.count, h.bits, h.mdb, h.nextDepth_eq]
  total := by rw [hr.frame, hr'.frame]; exact h.total
  mdb := by rw [hr.frame, hr'.frame]; exact h.mdb
  letters := by rw [hr.frame, hr'.frame]; exact h.letters
  result := by
    obtain ⟨hwf, hwf'⟩ := h.wf
    rw [hr.result hwf, hr'.result hwf', h.result, h.width]
  outLen := by
    rw [hr.frame, hr'.frame]
    exact congrArg₂ (· + ·) h.outLen h.width
  wf := by
    obtain ⟨hwf, hwf'⟩ := h.wf
    rw [hr.frame, hr'.frame]
    exact ⟨wf_store hwf _ _ _, wf_store hwf' _ _ _⟩

/-- One turn of the record loop (45_codec_driver.md R211). -/
theorem readRecords_succ (n : Nat) (s : State) : readRecords (n + 1) s =
    if s.rbits.toNat < s.rtotal.toNat then (drvRecread >>= fun _ => readRecords n) s else .ok () s := by
  cases h : drvRecread s <;> simp only [readRecords, bind_apply, h]

/-- Two runs of the record loop, record by record. -/
theorem readRecords_alike (n : Nat) {s s' : State} (h : SameReading s s') (hr : ReadReady s) (hr' : ReadReady s') :
    EndAlike (readRecords n s) (readRecords n s') := by
  have hdone : ∀ {s s'}, SameReading s s' → EndAlike (.ok () s) (.ok () s') := fun h =>
    .inr ⟨_, _, rfl, rfl, h.outLen, h.result⟩
  induction n generalizing s s' with
  | zero =>
    simp only [readRecords, raiseIf, h.bits, h.total]
    split
    · exact .inl ⟨_, s, s', rfl, rfl⟩
    · exact hdone h
  | succ n ih =>
    rw [readRecords_succ, readRecords_succ, h.bits, h.total]
    split
    · have hrun' := drvRecread_nextRecord hr'
      rw [← h.nextRecord_eq] at hrun'
      rcases drvRecread_nextRecord hr with ⟨f, t, hf, ht⟩ | ⟨x, t, hx, ht, hread⟩
      · rw [hf] at hrun'
        rcases hrun' with ⟨f', t', hf', ht'⟩ | ⟨x', t', hx', _⟩
        · cases hf'
          exact .inl ⟨f, t, t', bind_of_error ht, bind_of_error ht'⟩
        · cases hx'
      · rw [hx] at hrun'
        rcases hrun' with ⟨f', t', hf', _⟩ | ⟨x', t', hx', ht', hread'⟩
        · cases hf'
        · cases hx'
          rw [bind_of_ok ht, bind_of_ok ht']
          exact ih (h.after hread hread') hread.ready hread'.ready
    · exact hdone h

/-- The alphabet of a header depends on `IN` and `W` alone (45_codec_driver.md R213). -/
theorem headerLetters_congr {s s' : State} (hw : s.cfg.w = s'.cfg.w) (hm : s.inMem = s'.inMem) (k n : Nat) :
    headerLetters s k n = headerLetters s' k n := by
  induction n generalizing k with
  | zero => rfl
  | succ n ih => rw [headerLetters, headerLetters, ih, hw, hm]

/-- The two states in which the record loops start agree. -/
theorem SameInput.sameReading {s s' u u' : State} {a a' : List Sym} (h : SameInput s s') (hwf : s.outMem.wf = true)
    (hwf' : s'.outMem.wf = true) (hu : DecodeReady s a u) (hu' : DecodeReady s' a' u') : SameReading u u' where
  width := by rw [hu.frame, hu'.frame]; exact h.width
  room := by rw [hu.frame, hu'.frame]; exact h.room
  mem := by rw [hu.frame, hu'.frame]; exact h.mem
  len := by rw [hu.frame, hu'.frame]; exact h.len
  base := by rw [hu.base, hu'.base, hu.letters, hu'.letters, headerLetters_congr h.width h.mem, h.mem, h.width]
  bits := by rw [hu.fresh, hu'.fresh]
  total := by rw [hu.total, hu'.total, h.mem, h.len]
  mdb := by rw [hu.mdb, hu'.mdb, h.mem]
  letters p := by
    have ha : a = a' := by rw [hu.letters, hu'.letters, headerLetters_congr h.width h.mem, h.mem]
    refine Option.ext fun x => ?_
    rw [letterAt_built hu.built, letterAt_built hu'.built, ha]
  result := by
    rw [result_of_outLen_zero (t := u) (by rw [hu.frame]), result_of_outLen_zero (t := u') (by rw [hu'.frame])]
  outLen := by rw [hu.frame, hu'.frame]
  wf := by rw [hu.frame, hu'.frame]; exact ⟨hwf, hwf'⟩

theorem decodeSequence_alike {s s' : State} (h : SameInput s s') (hwf : s.outMem.wf = true) (hwf' : s'.outMem.wf = true) :
    EndAlike (decodeSequence s) (decodeSequence s') := by
  have hfault : headerFault s.cfg.w s.inMem s.inLen.toNat = headerFault s'.cfg.w s'.inMem s'.inLen.toNat := by
    rw [h.width, h.mem, h.len]
  have hrun' := decodeSequence_outcome s'
  rw [← hfault] at hrun'
  rcases decodeSequence_outcome s with ⟨f, u, hf, hu⟩ | ⟨hnone, a, u, hready, he⟩
  · rw [hf] at hrun'
    rcases hrun' with ⟨f', u', hf', hu'⟩ | ⟨hnone', _⟩
    · cases hf'
      exact .inl ⟨f, u, u', hu, hu'⟩
    · cases hnone'
  · rw [hnone] at hrun'
    rcases hrun' with ⟨f', u', hf', _⟩ | ⟨_, a', u', hready', he'⟩
    · cases hf'
    · have hsame := h.sameReading hwf hwf' hready hready'
      rw [he, he', hsame.total]
      exact readRecords_alike _ hsame hready.readReady hready'.readReady

/-- Settles O51: each command's two runs end alike. -/
theorem commandsReadOnlyTheInput : Obligations.CommandsReadOnlyTheInput := by
  intro i s s' t t' hi hwidth hcap hmem hlen hwf hwf' ht ht'
  have hsame : SameInput s s' := ⟨congrArg Width.bytes hwidth, funext (outFits_congr hcap), hmem, hlen⟩
  rcases hi with rfl | rfl
  · exact (encodeSequence_alike hsame hwf hwf').command ht ht'
  · exact (decodeSequence_alike hsame hwf hwf').command ht ht'

end Sys2Proof.Machine
end

section
/-! PROOFS. The micro-operations of the Codec Driver, performed on their own (45_codec_driver.md R203 to R206, R213 to
R216). -/

namespace Sys2Proof.Machine

/-! ### `DRV.DEPTHBITS` (45_codec_driver.md R203) -/

/-- A number fits as many bits as its `bitlen`, and no fewer (00_scope.md R11). -/
theorem bitlen_le_iff (x w : Nat) : bitlen x ≤ w ↔ x < 2 ^ w := by
  unfold bitlen
  split
  case isTrue h => simp [h]
  case isFalse h => exact Nat.log2_lt h

/-- Settles O36: by `bitlen_le_iff` the width fits `HEIGHT`, is a byte, and is the least one. -/
theorem depthbitsIsTheLeastWidth : Obligations.DepthbitsIsTheLeastWidth := by
  intro s hheight
  have hbyte : bitlen s.height ≤ 255 := (bitlen_le_iff _ _).mpr hheight
  have hvalue : (BitVec.ofNat 8 (max 1 (bitlen s.height))).toNat = max 1 (bitlen s.height) := by
    rw [BitVec.toNat_ofNat, Nat.mod_eq_of_lt (by omega)]
  refine ⟨BitVec.ofNat 8 (max 1 (bitlen s.height)), rfl, ?_, ?_, fun w hw hfit => ?_⟩
  · rw [hvalue]
    exact Nat.le_max_left _ _
  · rw [hvalue]
    exact Nat.le_sub_one_of_lt ((bitlen_le_iff _ _).mp (Nat.le_max_right _ _))
  · rw [hvalue]
    have hpow := Nat.two_pow_pos w
    exact Nat.max_le.mpr ⟨hw, (bitlen_le_iff _ _).mpr (by omega)⟩

/-! ### What ENCODE writes (45_codec_driver.md R204 to R206) -/

/-- Settles O37, by `drvHdremit_ok` and `drvHdremit_overflow`. -/
theorem hdremitWritesTheHeader : Obligations.HdremitWritesTheHeader := by
  refine fun s hpos hle => ⟨fun hwf hfit => ?_, fun hfit => ?_⟩
  · obtain ⟨m, hm, hbytes, hother⟩ := drvHdremit_ok hpos hle hfit
    exact ⟨m, opOutcome_of_ok hm, (hbytes hwf).2, hother⟩
  · obtain ⟨m, n, hm⟩ := drvHdremit_overflow hpos hle hfit
    exact ⟨m, n, opOutcome_of_error hm⟩

/-- The bits of one record. -/
theorem record_length (mdb d : Nat) (p : List Bool) : (depthField mdb d ++ pathField p d).length = mdb + d := by
  simp [pathField]

/-- Settles O38: the operation is the puts of the record's bits, and `PutsTo` says what these leave. -/
theorem recemitPutsOneRecord : Obligations.RecemitPutsOneRecord := by
  intro s hcount hfit
  have hlen := record_length s.mdb.toNat s.piDepth s.piPath
  obtain ⟨t, hputs, ht⟩ := puts_ok (depthField s.mdb.toNat s.piDepth ++ pathField s.piPath s.piDepth) s
    (by rw [hlen, ← Nat.add_assoc]; exact hcount) (by rw [hlen, ← Nat.add_assoc]; exact hfit)
  have htbits := ht.count
  have houtLen := ht.len
  rw [hlen, ← Nat.add_assoc] at htbits houtLen
  exact ⟨t, opOutcome_of_ok ((drvRecemit_eq s).trans hputs), runOps_puts _ hputs, htbits, ht.frame, houtLen, ht.other⟩

theorem drvTrailemit_apply (s : State) : drvTrailemit s = outAppend 4 s.tbits.toNat s := rfl

/-- Settles O39: the operation is one `OutAppend` of four bytes. -/
theorem trailemitAppendsTheCount : Obligations.TrailemitAppendsTheCount := by
  refine fun s => ⟨fun hwf hfit => ?_, fun hfull => ?_⟩
  · refine ⟨_, opOutcome_of_ok ((drvTrailemit_apply s).trans (outAppend_of_fits _ hfit)), ?_,
      fun x hx => read_store_other _ _ hx⟩
    rw [leValue_eq_load]
    exact load_store_same hwf s.tbits.isLt
  · exact opOutcome_of_error ((drvTrailemit_apply s).trans (outAppend_of_full _ hfull))

/-! ### What DECODE reads before its records (45_codec_driver.md R213, R214) -/

/-- A symbol's bytes load as a 32-bit value (00_scope.md R17). -/
theorem sym_load_toNat (s : State) (b : Nat) : (BitVec.ofNat 32 (s.inMem.load b s.cfg.w)).toNat = s.inMem.load b s.cfg.w := by
  have hload := load_lt s.inMem b s.cfg.w
  have hpow : 256 ^ s.cfg.w ≤ 256 ^ 4 := Nat.pow_le_pow_right (by decide) (width_le_four s.cfg.width).2
  rw [BitVec.toNat_ofNat, Nat.mod_eq_of_lt (by omega)]

/-- Settles O40, by the branches of `drvHdrparse_cases`. -/
theorem hdrparseReadsTheHeader : Obligations.HdrparseReadsTheHeader := by
  intro s
  have hbyte := (s.inMem.read 1).isLt
  rcases drvHdrparse_cases s with ⟨hshort, h⟩ | ⟨hlong, hshort, h⟩ | ⟨hroom, h⟩
  · exact ⟨fun _ => opOutcome_of_error h, fun hlong => by omega, fun hroom => by omega⟩
  · exact ⟨fun _ => by omega, fun _ _ => opOutcome_of_error h, fun hroom => by omega⟩
  · refine ⟨fun _ => by omega, fun _ _ => by omega, fun _ => ⟨_, opOutcome_of_ok h, rfl, ?_, ?_, fun k hk => ?_⟩⟩
    · change (BitVec.ofNat 9 ((s.inMem.read 1).toNat + 1)).toNat = _
      rw [BitVec.toNat_ofNat, Nat.mod_eq_of_lt (by omega)]
    · exact headerLetters_length _ _ _
    · rw [setAlpha_alpha, headerLetters_length] at hk
      refine ⟨_, headerLetters_getElem? s hk, ?_, rfl⟩
      rw [leValue_eq_load, Nat.zero_add, sym_load_toNat]

/-- Settles O41, by the branches of `drvTrailread_cases`. -/
theorem trailreadReadsTheCountFromTheTail : Obligations.TrailreadReadsTheCountFromTheTail := by
  intro s hlen
  rcases drvTrailread_cases s with ⟨hshort, _⟩ | ⟨_, total, htotal, hrest⟩
  · omega
  · refine ⟨total, by rw [leValue_eq_load, htotal], fun hroom => ?_, fun hshort => ?_⟩
    · rcases hrest with ⟨hshort, _⟩ | ⟨_, h⟩
      · exact absurd hroom (Nat.not_le.mpr hshort)
      · exact opOutcome_of_ok h
    · rcases hrest with ⟨_, h⟩ | ⟨hroom, _⟩
      · exact opOutcome_of_error h
      · exact absurd hroom (Nat.not_le.mpr hshort)

/-! ### `DRV.RECREAD` (45_codec_driver.md R216) -/

/-- `TREE.FINDVALUE` of a path that leads to a symbol, in any arena (43_path_codec.md R171). -/
theorem treeFindvalue_of_symbol {s : State} {n : Nat} {x : Sym}
    (h : follow s.nodes 0 (pathField s.piPath s.piDepth) = some n) (hx : (s.nodes[n]?).bind (·.val) = some x) :
    treeFindvalue s = .ok x s := by
  obtain ⟨nd, hnd, hval⟩ := Option.bind_eq_some_iff.mp hx
  rw [treeFindvalue_of_follow h hnd, hval]

/-- Settles O42: `drvRecread_reads` says what is read, the path leads to `x`, and `x` is appended. -/
theorem recreadReadsOneRecord : Obligations.RecreadReadsOneRecord := by
  intro s d n p x hplaced hinside hd htotal hp hfollow hval hwf hfit
  rcases drvRecread_reads hplaced hinside (by omega) hd hp with ⟨hcross, _⟩ | ⟨_, t, hreads, hpath, he⟩
  · omega
  have hframe := hreads.frame
  have hnodes : t.nodes = s.nodes := by rw [hframe]; rfl
  have hcfg : t.cfg = s.cfg := by rw [hframe]; rfl
  have hlen : t.outLen = s.outLen := by rw [hframe]; rfl
  have hmem : t.outMem = s.outMem := by rw [hframe]; rfl
  have hfind : treeFindvalue t = .ok x t :=
    treeFindvalue_of_symbol (by rw [hnodes, hpath]; exact hfollow) (by rw [hnodes]; exact hval)
  have happend : symAppend x t = .ok () (t.setOut (s.outMem.store s.outLen s.cfg.w x.toNat) (s.outLen + s.cfg.w)) := by
    rw [symAppend, outAppend_of_fits _ (by rw [hcfg, hlen]; exact hfit), hcfg, hlen, hmem]
  refine ⟨_, opOutcome_of_ok (he.trans ((bind_of_ok hfind).trans happend)), ?_, ?_, hreads.placed, ?_,
    fun a ha => read_store_other _ _ ha⟩
  · rw [hframe]
    rfl
  · rw [setOut_rbits, hreads.count, setPath_rbits, Nat.add_assoc]
  · exact bytes_store hwf _ _ _

/-- Settles O43: the first test by `drvRecread_depth_fault`, the later ones by the branches of `drvRecread_cases`. -/
theorem recreadFaultsInOrder : Obligations.RecreadFaultsInOrder := by
  refine fun s d hd => ⟨fun hcross => opOutcome_of_error (drvRecread_depth_fault hcross),
    fun hplaced hinside hdepth => ⟨fun hcross => ?_, fun p hp htotal hok => ⟨fun hlost => ?_, fun n x hn hx hfull => ?_⟩⟩⟩
  · rcases drvRecread_reads hplaced hinside hdepth hd rfl with ⟨_, t, he, hreads⟩ | ⟨hle, _⟩
    · exact ⟨t, opOutcome_of_error he, hreads.frame⟩
    · omega
  · rcases drvRecread_cases hok hplaced hinside hdepth hd hp with ⟨hcross, _⟩ | ⟨_, t, hreads, ⟨_, he⟩ | ⟨m, y, hm, hy, _⟩⟩
    · omega
    · exact ⟨t, opOutcome_of_error he, hreads.frame⟩
    · rcases hlost with hnone | ⟨n, hn, hempty⟩
      · rw [hm] at hnone
        cases hnone
      · rw [hm] at hn
        cases hn
        rw [hy] at hempty
        cases hempty
  · rcases drvRecread_cases hok hplaced hinside hdepth hd hp with ⟨hcross, _⟩ | ⟨_, t, hreads, ⟨hlost, _⟩ | ⟨m, y, _, _, he⟩⟩
    · omega
    · have hnone := hlost n hn
      rw [hx] at hnone
      cases hnone
    · have hframe := hreads.frame
      have hcfg : t.cfg = s.cfg := by rw [hframe]; rfl
      have hlen : t.outLen = s.outLen := by rw [hframe]; rfl
      have happend : symAppend y t = .error .outputOverflow t :=
        outAppend_of_full _ (by rw [hcfg, hlen]; exact hfull)
      exact ⟨t, opOutcome_of_error (he.trans happend), hframe⟩

end Sys2Proof.Machine
end

section
/-! PROOFS. The fault entry, and the faults no command ends with (60_exceptions.md R240, R250, R252). -/

namespace Sys2Proof.Machine

/-- Settles O9: the entry is a record update of three fields, and the word it writes has the three fields of `STATUS`. -/
theorem faultEntryDoesExactlyThis : Obligations.FaultEntryDoesExactlyThis := by
  refine ⟨fun f s => ⟨rfl, ?_, ?_, ?_, ?_⟩, rfl, rfl, rfl, rfl, rfl, rfl, rfl, rfl, rfl, rfl, rfl⟩
  · exact statusState_word stateDoneErr f.code
  · exact statusErrcode_word stateDoneErr f.code
  · exact statusReserved_word stateDoneErr f.code
  · exact result_of_outLen_zero (faultEntry_outLen f s)

/-- A sequence that ends without fault, or with a fault of a list that does not hold `f`, does not raise `f`. -/
theorem fault_not_raised {body : Op Unit} {s : State} {l : List FaultCode} {f : FaultCode} (hl : f ∉ l)
    (hends : (∃ v, body s = .ok () v) ∨ ∃ g u, body s = .error g u ∧ g ∈ l) (u : State) : body s ≠ .error f u := by
  intro hf
  rcases hends with ⟨v, hv⟩ | ⟨g, w, hg, hmem⟩
  · rw [hf] at hv
    cases hv
  · rw [hf] at hg
    cases hg
    exact hl hmem

/-- Settles O53: a command that ends with a fault has raised it, and `encodeSequence_ends` and `decodeSequence_ends` list
what the two sequences raise from any state. -/
theorem commandsNeverBreakAnInvariant : Obligations.CommandsNeverBreakAnInvariant := by
  rintro i s t (rfl | rfl) hexec hstatus
  · obtain ⟨u, hu⟩ := error_of_commandOutcome hexec hstatus
    exact fault_not_raised (by decide) (encodeSequence_ends s) u hu
  · obtain ⟨u, hu⟩ := error_of_commandOutcome hexec hstatus
    exact fault_not_raised (by decide) (decodeSequence_ends s) u hu

end Sys2Proof.Machine
end

section
/-! PROOFS. The block that waits for the host (70_reset_and_hazards.md R281). -/

namespace Sys2Proof.Machine

/-- Settles O8: of the branches of a step, an idle block with `CMD` empty and no script line takes the waiting one. -/
theorem idleBlockWaits : Obligations.IdleBlockWaits := by
  intro s hidle hcmd hscript
  exact step_of_waiting hidle hcmd hscript

end Sys2Proof.Machine
end
